-- ==== Sys2Proof/Word.lean ====
section
/-! DEFINITION. The words of the machine: bytes, command words, tree slots, symbols, the 16-bit registers.
Every width is the spec's (00_scope.md R10, 10_state.md R36, R37, R47; 30_encoding.md R100). -/

namespace Sys2Proof

/-- A byte: of the stream, of the ring, of the output; an entry of the code-length table. -/
abbrev Byte := BitVec 8

/-- A command word (30_encoding.md R100). -/
abbrev Word := BitVec 32

/-- One slot of a tree RAM: bit 15 the leaf marker, bits 14:0 the payload (10_state.md R47). -/
abbrev Slot := BitVec 16

/-- A symbol: the 15-bit payload of a leaf (10_state.md R47). -/
abbrev Symbol := BitVec 15

/-- A 16-bit register of the host's interface: RES or STAT (10_state.md R36, R37). -/
abbrev Half := BitVec 16

end Sys2Proof
end

