-- ==== Sys2Proof/Config.lean ====
section
/-! DEFINITION. The parameters of the block (00_scope.md R10 to R13) and the values the spec leaves open.
Scalar parameters are plain data that the state carries (log 1). The two parameter functions TREE_HEADER and
PM2_TOKEN are constants without a body; their types let them do only what R12 and R13 allow (log 2). -/

namespace Sys2Proof

/-- The tree a command works on: the code tree or the offset tree (10_state.md R46; 30_encoding.md R106). -/
inductive TreeSel where
  | ct
  | ot
  deriving DecidableEq, Repr, Inhabited

/-- REBUILD_OVERSHOOT (00_scope.md R10; 44_variant_rebuild.md R252). -/
inductive Overshoot where
  /-- The reload is added to the count (the spec's default). -/
  | carry
  /-- The count is set to the reload value. -/
  | reload
  deriving DecidableEq, Repr

/-- Which instance of TREE_HEADER and PM2_TOKEN the block has (log 3). -/
inductive Formats where
  /-- The unknown functions `Config.treeHeader` and `Config.pm2Token`. -/
  | unspecified
  /-- `hdr_test` and `tok_test` of 95_test_vectors.md section 0: made up for testing, not the pm2 formats. -/
  | testVectors
  deriving DecidableEq, Repr

/-- The parameters that have no value in any source (00_scope.md R10, marked OPEN), as plain data. -/
structure Params where
  /-- CODE_SYMS, the number of symbols of the code tree. -/
  codeSyms : Nat
  /-- RING_FILL, the ring content after reset. -/
  ringFill : Byte
  /-- MAX_COPY, the largest copy length PM2_TOKEN returns. -/
  maxCopy : Nat
  /-- REBUILD_OVERSHOOT. -/
  overshoot : Overshoot
  /-- The instance of TREE_HEADER and PM2_TOKEN. -/
  formats : Formats
  deriving DecidableEq, Repr

/-- The ranges of R11; a model refuses a parameter set outside them (93_implementation_defined.md U12). -/
def Params.wf (p : Params) : Bool :=
  decide (1 ≤ p.codeSyms) && decide (p.codeSyms ≤ 4095) && decide (p.maxCopy ≤ 4095)

/-- RING_SIZE (00_scope.md R10). -/
abbrev Config.ringSize : Nat := 8192

/-- OT_CAP (00_scope.md R10). -/
abbrev Config.otCap : Nat := 15

/-- QUEUE_CAP (00_scope.md R10; 92_eei_decisions.md D44). -/
abbrev Config.queueCap : Nat := 32

/-- CT_CAP = 2 × CODE_SYMS − 1 (00_scope.md R10). -/
def Params.ctCap (p : Params) : Nat := 2 * p.codeSyms - 1

/-- CLT_MAX = max(CODE_SYMS, 8) (00_scope.md R10). -/
def Params.cltMax (p : Params) : Nat := max p.codeSyms 8

/-- CAP_t, the capacity of tree `t` (41_tree_builder.md R160). -/
def Params.cap (p : Params) : TreeSel → Nat
  | .ct => p.ctCap
  | .ot => Config.otCap

/-- A program that reads bits of the stream, one at a time, and then returns a value: what a function that may use
only `ReadBit` and `ReadBits` can do (00_scope.md R12; `ReadBits` is a chain of `ReadBit`, 40_bitstream.md R142). -/
inductive BitProg (α : Type) where
  | ret (a : α)
  | bit (k : Bool → BitProg α)
  deriving Inhabited

/-- A program that reads bits and decodes symbols of the offset tree, and then returns a value (00_scope.md R13). -/
inductive TokProg (α : Type) where
  | ret (a : α)
  | bit (k : Bool → TokProg α)
  | offset (k : Symbol → TokProg α)
  deriving Inhabited

/-- What TREE_HEADER returns: one symbol, or one 8-bit code length per symbol (00_scope.md R12). -/
inductive Header (nsym : Nat) where
  | single (s : Symbol)
  | lengths (l : Vector Byte nsym)
  deriving Inhabited, DecidableEq

/-- What PM2_TOKEN returns: a literal, or a copy of length at most MAX_COPY (00_scope.md R13). -/
inductive Token (maxCopy : Nat) where
  | literal (b : Byte)
  | copy (len : Fin (maxCopy + 1)) (dist : BitVec 16)
  deriving Inhabited, DecidableEq, Repr

/-- TREE_HEADER(t, nsym): OPEN, no value in any source (00_scope.md R12; log 2). -/
opaque Config.treeHeader : TreeSel → (nsym : Nat) → BitProg (Header nsym)

/-- PM2_TOKEN(sym) for a given MAX_COPY: OPEN, no value in any source (00_scope.md R13; log 2). -/
opaque Config.pm2Token : (maxCopy : Nat) → Symbol → TokProg (Token maxCopy)

/-- The free values of 93_implementation_defined.md U14: how much an interrupted command had moved (log 8). -/
opaque Config.freeNat : Nat → Nat

end Sys2Proof
end

