-- ==== Sys2Proof/Syntax.lean ====
section
/-! DEFINITION. The commands of the block, one constructor per row of spec/opcode_table.json (30_encoding.md R111).
Every field has the width the encoding gives it (R102 to R112), so no field holds a value that no word holds. -/

namespace Sys2Proof

/-- A command word's meaning before its operand values are checked. -/
inductive Instr where
  /-- Format N, OP 0x0: start a new session (R280). -/
  | init
  /-- Format B, OP 0x1: read NM1 + 1 bits (R144). -/
  | rdbits (nm1 : BitVec 4)
  /-- Format L, OP 0x2: write a code-length table entry (R173). -/
  | cltw (idx : BitVec 12) (len : Byte)
  /-- Format T, OP 0x3: reset a tree (R174). -/
  | treset (t : TreeSel)
  /-- Format TN, OP 0x4: build a tree (R175). -/
  | tbuild (t : TreeSel) (nsym : BitVec 12)
  /-- Format TS, OP 0x5: make a tree a single leaf (R176). -/
  | tsingle (t : TreeSel) (sym : Symbol)
  /-- Format T, OP 0x6: decode one symbol (R202). -/
  | decode (t : TreeSel)
  /-- Format Y, OP 0x7: push a byte into the ring (R223). -/
  | rpush (b : Byte)
  /-- Format K, OP 0x8: read the ring (R224). -/
  | rread (dist : BitVec 16)
  /-- Format Y, OP 0x9: emit a literal (R242). -/
  | lit (b : Byte)
  /-- Format C, OP 0xA: emit a copy (R243). -/
  | copy (len : BitVec 12) (dist : BitVec 16)
  /-- Format N, OP 0xB: run a due rebuild event (R254). -/
  | rebuild
  /-- Format N, OP 0xC: produce one output unit (R255). -/
  | produce
  /-- OP 0xD, reserved: raises ILL whatever its other bits (R114). -/
  | reservedD (rest : BitVec 28)
  /-- OP 0xE, reserved: raises ILL whatever its other bits (R114). -/
  | reservedE (rest : BitVec 28)
  /-- OP 0xF, reserved: raises ILL whatever its other bits (R114). -/
  | reservedF (rest : BitVec 28)
  deriving DecidableEq, Repr

end Sys2Proof
end

