-- ==== Sys2Proof/WellFormed.lean ====
section
/-! DEFINITION. Which commands are legal (30_encoding.md R114, R116). The widths of the fields are in the syntax; what is left
to check is the value of two operands against CLT_MAX, and that the opcode is not a reserved one. -/

namespace Sys2Proof

/-- `i` is a legal command of a block whose code-length table has `cltMax` entries: CLTW needs IDX < CLT_MAX and TBUILD
needs NSYM ≤ CLT_MAX (R116), the opcodes 0xD to 0xF are reserved (R114), and no other field value is illegal. -/
def Instr.wf (cltMax : Nat) : Instr → Bool
  | .init => true
  | .rdbits _ => true
  | .cltw idx _ => decide (idx.toNat < cltMax)
  | .treset _ => true
  | .tbuild _ nsym => decide (nsym.toNat ≤ cltMax)
  | .tsingle _ _ => true
  | .decode _ => true
  | .rpush _ => true
  | .rread _ => true
  | .lit _ => true
  | .copy _ _ => true
  | .rebuild => true
  | .produce => true
  | .reservedD _ => false
  | .reservedE _ => false
  | .reservedF _ => false

end Sys2Proof
end

