-- ==== Sys2Proof/Decode.lean ====
section
/-! DEFINITION. Decoding of command words, total on every 32-bit word (30_encoding.md R111, R114, R115, R123), and the
encoder written from the format tables (R102 to R112). -/

namespace Sys2Proof

/-- Bits 31:28 (R101). -/
def opField (w : Word) : BitVec 4 := w.extractLsb' 28 4

/-- The match column of R111, by opcode. -/
def rowMatch (op : BitVec 4) : Word := op.setWidth 32 <<< 28

/-- The mask column of R111, by opcode. -/
def rowMask (op : BitVec 4) : Word :=
  match op.toNat with
  | 0x0 => 0xFFFFFFFF
  | 0x1 => 0xFFFFFFF0
  | 0x2 => 0xFFF00000
  | 0x3 => 0xFEFFFFFF
  | 0x4 => 0xFEFFF000
  | 0x5 => 0xFEFF8000
  | 0x6 => 0xFEFFFFFF
  | 0x7 => 0xFFFFFF00
  | 0x8 => 0xFFFF0000
  | 0x9 => 0xFFFFFF00
  | 0xA => 0xF0000000
  | 0xB => 0xFFFFFFFF
  | 0xC => 0xFFFFFFFF
  | _ => 0xF0000000

/-- The T field, bit 24: 0 selects CT, 1 selects OT (R106). -/
def treeField (w : Word) : TreeSel := if w.getLsbD 24 then .ot else .ct

/-- The command of the row of `op`, with the fields of R102 to R112. -/
def rowInstr (op : BitVec 4) (w : Word) : Instr :=
  match op.toNat with
  | 0x0 => .init
  | 0x1 => .rdbits (w.extractLsb' 0 4)
  | 0x2 => .cltw (w.extractLsb' 8 12) (w.extractLsb' 0 8)
  | 0x3 => .treset (treeField w)
  | 0x4 => .tbuild (treeField w) (w.extractLsb' 0 12)
  | 0x5 => .tsingle (treeField w) (w.extractLsb' 0 15)
  | 0x6 => .decode (treeField w)
  | 0x7 => .rpush (w.extractLsb' 0 8)
  | 0x8 => .rread (w.extractLsb' 0 16)
  | 0x9 => .lit (w.extractLsb' 0 8)
  | 0xA => .copy (w.extractLsb' 16 12) (w.extractLsb' 0 16)
  | 0xB => .rebuild
  | 0xC => .produce
  | 0xD => .reservedD (w.extractLsb' 0 28)
  | 0xE => .reservedE (w.extractLsb' 0 28)
  | _ => .reservedF (w.extractLsb' 0 28)

/-- The row of the opcode map that a word selects, `none` where a reserved bit of its format is set (R111, R115). The
operand values are not checked here: the command that has one checks it first (R116; log 16). -/
def decode (w : Word) : Option Instr :=
  if w &&& rowMask (opField w) = rowMatch (opField w) then some (rowInstr (opField w) w) else none

/-- `Decode(w)` of R123, whole: `none` is ILL. -/
def decodeLegal (cltMax : Nat) (w : Word) : Option Instr :=
  match decode w with
  | some i => if i.wf cltMax then some i else none
  | none => none

/-- A field placed with its lowest bit at position `lo` of the word. -/
def field {w : Nat} (v : BitVec w) (lo : Nat) : Word := v.setWidth 32 <<< lo

/-- The T field of a tree, at bit 24 (R106). -/
def treeBit : TreeSel → Word
  | .ct => field 0#1 24
  | .ot => field 1#1 24

/-- The word of a command (R102 to R112 and the Encoding lines of the command rules; R114 for the reserved opcodes). -/
def encode : Instr → Word
  | .init => 0x00000000
  | .rdbits nm1 => 0x10000000 ||| field nm1 0
  | .cltw idx len => 0x20000000 ||| field idx 8 ||| field len 0
  | .treset t => 0x30000000 ||| treeBit t
  | .tbuild t nsym => 0x40000000 ||| treeBit t ||| field nsym 0
  | .tsingle t sym => 0x50000000 ||| treeBit t ||| field sym 0
  | .decode t => 0x60000000 ||| treeBit t
  | .rpush b => 0x70000000 ||| field b 0
  | .rread dist => 0x80000000 ||| field dist 0
  | .lit b => 0x90000000 ||| field b 0
  | .copy len dist => 0xA0000000 ||| field len 16 ||| field dist 0
  | .rebuild => 0xB0000000
  | .produce => 0xC0000000
  | .reservedD rest => 0xD0000000 ||| field rest 0
  | .reservedE rest => 0xE0000000 ||| field rest 0
  | .reservedF rest => 0xF0000000 ||| field rest 0

/-- The word whose low `nbits` bits are those of `w` and whose other bits are 0. -/
def tableWord (nbits w : Nat) : Word := BitVec.ofNat 32 (w % 2 ^ nbits)

/-- The host's entry to the decoder: the command of the word whose low `nbits` bits are `w`. -/
def decodeTableWord (nbits w : Nat) : Option Instr := decode (tableWord nbits w)

end Sys2Proof
end

