-- ==== Sys2Proof/Machine/State.lean ====
section
/-! DEFINITION. The state of the machine as plain data: the block's registers and RAMs (10_state.md), the host's pending
actions, the byte source's remaining answers, the output record (R31, R34, R35), and the parameters (00_scope.md R10). -/

namespace Sys2Proof.Machine

/-- One internal RAM: (index, element) pairs in one canonical form (`Memory.wf` in Ops.lean). -/
abbrev Memory (w : Nat) := List (Nat × BitVec w)

/-- The five rebuild phases (10_state.md R43); no other value of the register exists. -/
inductive Phase where
  | unbuilt
  | build1
  | build2
  | build3
  | steady
  deriving DecidableEq, Repr

/-- One answer of the byte source to a byte request (10_state.md R34). -/
inductive SrcAnswer where
  | byte (b : Byte)
  | eof
  deriving DecidableEq, Repr

/-- What the host, or the world at the block's ports, does next (log 4). -/
inductive HostInput where
  /-- A command word presented after CMD_DONE of the last command (10_state.md R33). -/
  | command (w : Word)
  /-- A command word presented before CMD_DONE of the last one (70_reset_and_hazards.md R343). -/
  | early (w : Word)
  /-- RST asserted between commands (70_reset_and_hazards.md R330). -/
  | rst
  /-- RST asserted while the command of this word runs (70_reset_and_hazards.md R330). -/
  | rstDuring (w : Word)
  /-- A command whose byte requests nobody answers and whose output bytes nobody accepts (93_implementation_defined.md U16). -/
  | unanswered (w : Word)
  /-- A byte source connected for the next session (45_session.md R281, R289). -/
  | connect (answers : List SrcAnswer)
  deriving DecidableEq, Repr

/-- The whole machine. -/
structure State where
  /-- The parameters of 00_scope.md R10; no step changes them. -/
  params : Params
  /-- What the host does next, oldest first. -/
  inputs : List HostInput
  /-- The answers the bound byte source has not given yet; after the last one it answers end of input (R34). -/
  src : List SrcAnswer
  /-- The byte source connected for the next session, if the host has connected one. -/
  connected : Option (List SrcAnswer)
  /-- OUT: what this session has emitted, oldest first (R35). -/
  out : List Byte
  /-- What earlier sessions emitted; it stays with the consumer (45_session.md R280). -/
  taken : List Byte
  /-- RES (R36). -/
  res : Half
  /-- STAT (R37). -/
  stat : Half
  /-- RC_PHASE (R43). -/
  rcPhase : Phase
  /-- RC_COUNT, two's complement (R44). -/
  rcCount : BitVec 32
  /-- BR_BYTE (R45). -/
  brByte : Byte
  /-- BR_POS (R45). -/
  brPos : BitVec 3
  /-- BR_VALID (R45). -/
  brValid : Bool
  /-- CT (R46). -/
  ct : Memory 16
  /-- OT (R46). -/
  ot : Memory 16
  /-- CLT (R48). -/
  clt : Memory 8
  /-- RING (R49). -/
  ring : List Host.Cell
  /-- RB_WP (R49). -/
  rbWp : BitVec 13
  /-- The free values used so far: the model's own counter (log 8). -/
  freeCtr : Nat
  deriving DecidableEq, Repr

/-- What stops the machine without a next state. No command of the spec faults: its failures are next states with
STAT.FAIL set (60_exceptions.md R309). -/
inductive Fault where
  /-- Raised by step for the input `unanswered`: the command waits for ever for the byte source or the consumer
  (93_implementation_defined.md U16, treatment `stuck`). Safe: the machine stops where the hardware hangs. -/
  | environmentNeverAnswers
  deriving DecidableEq, Repr

/-- What the model has no meaning for. -/
inductive Refusal where
  /-- Raised by exec for a command that has no meaning yet: none is left. Safe. -/
  | notModelled (mnemonic : String)
  /-- Raised by step: the parameters lie outside the ranges of 00_scope.md R11 (U12, treatment `refuse`). Safe. -/
  | parametersOutOfRange
  /-- Raised by step: a command presented before CMD_DONE of the last one (70_reset_and_hazards.md R343; U13, treatment
  `refuse`). Safe. -/
  | commandBeforeDone
  deriving DecidableEq, Repr

/-- The parameters `State.reset` carries: the spec's default overshoot and scalar values of its test vectors
(95_test_vectors.md section 0). DESIGN CHOICE, no rule fixes them (log 1). -/
def resetParams : Params :=
  { codeSyms := 16, ringFill := 0x20, maxCopy := 10, overshoot := .carry, formats := .unspecified }

/-- A block of the given parameters right after reset (10_state.md R52): nothing listed in a RAM means every element at its
reset value. Nothing has been connected, issued or emitted yet (log 4, 5, 6, 7). -/
def State.resetWith (p : Params) : State :=
  { params := p, inputs := [], src := [], connected := none, out := [], taken := [],
    res := 0, stat := 0, rcPhase := .unbuilt, rcCount := 0,
    brByte := 0, brPos := 0, brValid := false,
    ct := [], ot := [], clt := [], ring := [], rbWp := 0, freeCtr := 0 }

/-- The machine right after reset. -/
def State.reset : State := State.resetWith resetParams

end Sys2Proof.Machine
end

