-- ==== Sys2Proof/Machine/Flags.lean ====
section
/-! DEFINITION. STAT: its bits, what sets each, and the PHASE copy (10_state.md R37, R41, R42; 60_exceptions.md R300). -/

namespace Sys2Proof.Machine

/-- The sticky bits of STAT (10_state.md R37). -/
inductive StatBit where
  | fail
  | eos
  | ill
  | wcap
  | wqovf
  | wqempty
  deriving DecidableEq, Repr

/-- The bit's position in STAT (R37). -/
def StatBit.pos : StatBit → Nat
  | .fail => 0
  | .eos => 1
  | .ill => 2
  | .wcap => 3
  | .wqovf => 4
  | .wqempty => 5

/-- The two causes of a failure (60_exceptions.md R302, R303). -/
inductive Failure where
  | eos
  | ill
  deriving DecidableEq, Repr

/-- The STAT bit that says which failure it was (10_state.md R39). -/
def Failure.bit : Failure → StatBit
  | .eos => .eos
  | .ill => .ill

/-- Is the bit set? -/
def statTest (b : StatBit) (v : Half) : Bool := v.getLsbD b.pos

/-- STAT with one bit set and the others as they were. -/
def statSet (b : StatBit) (v : Half) : Half := v ||| (1#16 <<< b.pos)

/-- STAT with one bit set if `c` holds: the warnings of one build are added to what is set already (R41, R308). -/
def statSetIf (c : Bool) (b : StatBit) (v : Half) : Half := if c then statSet b v else v

/-- The encoding of a phase (10_state.md R43). -/
def Phase.code : Phase → BitVec 3
  | .unbuilt => 0
  | .build1 => 1
  | .build2 => 2
  | .build3 => 3
  | .steady => 4

/-- STAT with PHASE, bits 10:8, replaced (R37, R42). -/
def statPhase (p : Phase) (v : Half) : Half := (v &&& 0xF8FF#16) ||| (p.code.setWidth 16 <<< 8)

/-- Has the session failed (10_state.md R38)? -/
def State.failed (s : State) : Bool := statTest .fail s.stat

end Sys2Proof.Machine
end

