-- ==== Sys2Proof/Machine/Operands.lean ====
section
/-! DEFINITION. The operand forms: how the fields of a command become the numbers it works with (30_encoding.md R113, R116),
and how a ring distance becomes an index (43_ring_buffer.md R222). -/

namespace Sys2Proof.Machine

/-- The bit count of RDBITS: NM1 + 1, so 1 to 16 (30_encoding.md R113; 40_bitstream.md R147). -/
def bitCount (nm1 : BitVec 4) : Nat := nm1.toNat + 1

/-- IDX or NSYM or LEN of COPY as a number (R113). -/
def count12 (v : BitVec 12) : Nat := v.toNat

/-- A byte as a value of RES (R113). -/
def resOfByte (b : Byte) : Half := b.setWidth 16

/-- A symbol as a value of RES (R113). -/
def resOfSymbol (x : Symbol) : Half := x.setWidth 16

/-- A byte count of at most 4095 as a value of RES (R113). -/
def resOfCount (n : Nat) : Half := BitVec.ofNat 16 n

/-- A leaf slot for a symbol: the leaf marker and the payload (10_state.md R47). -/
def leafSlot (x : Symbol) : Slot := 0x8000#16 ||| x.setWidth 16

/-- An internal slot whose first child is slot `c` (10_state.md R47; 41_tree_builder.md R163 "zext_16(ALLOC)"). -/
def nodeSlot (c : Nat) : Slot := BitVec.ofNat 16 c

/-- The leaf marker of a slot (10_state.md R47). -/
def isLeaf (v : Slot) : Bool := v.getLsbD 15

/-- The payload of a leaf: its symbol (10_state.md R47). -/
def leafSymbol (v : Slot) : Symbol := v.setWidth 15

/-- The payload of an internal slot: the index of its first child (10_state.md R47). -/
def firstChild (v : Slot) : Nat := (v.setWidth 15 : BitVec 15).toNat

/-- The slot the walk goes to: bit 0 the first child, bit 1 the second (42_tree_decoder.md R201, R207). -/
def childSlot (v : Slot) (b : Bool) : Nat := firstChild v + b.toNat

/-- The ring index `k` behind the write cursor: (RB_WP − k) mod RING_SIZE, on integers (43_ring_buffer.md R222). -/
def ringIndex (wp : BitVec 13) (k : BitVec 16) : Nat :=
  (((wp.toNat : Int) - (k.toNat : Int)) % (Config.ringSize : Int)).toNat

end Sys2Proof.Machine
end

