-- ==== Sys2Proof/Machine/Ops.lean ====
section
/-! DEFINITION. The shared operations: the RAMs, the registers, the two failures and the start of a session, the bit-stream
reader, and the ring. -/

namespace Sys2Proof.Machine

/-! ## One RAM -/

/-- The element at index `a`; an index with no entry reads as `d`, the RAM's reset content (log 12). -/
def Memory.read {w : Nat} (d : BitVec w) (m : Memory w) (a : Nat) : BitVec w :=
  match m with
  | [] => d
  | (k, v) :: rest => if k = a then v else Memory.read d rest a

/-- The entries without the one at `a`. -/
def Memory.erase {w : Nat} (m : Memory w) (a : Nat) : Memory w :=
  match m with
  | [] => []
  | (k, v) :: rest => if k = a then Memory.erase rest a else (k, v) :: Memory.erase rest a

/-- An entry put before the first one of a larger index. -/
def Memory.place {w : Nat} (m : Memory w) (a : Nat) (v : BitVec w) : Memory w :=
  match m with
  | [] => [(a, v)]
  | (k, u) :: rest => if a < k then (a, v) :: (k, u) :: rest else (k, u) :: Memory.place rest a v

/-- The RAM after `v` is written at `a`; an entry equal to `d` is not listed. -/
def Memory.write {w : Nat} (d : BitVec w) (m : Memory w) (a : Nat) (v : BitVec w) : Memory w :=
  if v = d then Memory.erase m a else Memory.place (Memory.erase m a) a v

/-- The canonical form of a RAM of `size` elements whose unlisted elements read as `d`: indices strictly rising from `lo`,
below `size`, no entry equal to `d`. -/
def Memory.wfFrom {w : Nat} (d : BitVec w) (size lo : Nat) (m : Memory w) : Bool :=
  match m with
  | [] => true
  | (k, v) :: rest => decide (lo ≤ k) && decide (k < size) && decide (v ≠ d) && Memory.wfFrom d size (k + 1) rest

/-- The canonical form of a RAM. -/
def Memory.wf {w : Nat} (d : BitVec w) (size : Nat) (m : Memory w) : Bool := Memory.wfFrom d size 0 m

/-! ## The trees, the code-length table and the ring as RAMs -/

/-- A tree slot after reset: a leaf with symbol 0 (10_state.md R52). -/
def resetSlot : Slot := 0x8000

/-- The tree RAM of `t` (10_state.md R46). -/
def State.tree (s : State) : TreeSel → Memory 16
  | .ct => s.ct
  | .ot => s.ot

/-- The state with another tree RAM for `t`. -/
def State.setTree (t : TreeSel) (m : Memory 16) (s : State) : State :=
  match t with
  | .ct => { s with ct := m }
  | .ot => { s with ot := m }

/-- `TREE_t[i]`; at or beyond the capacity it reads as 0x8000 (20_memory.md R89). -/
def State.slot (s : State) (t : TreeSel) (i : Nat) : Slot :=
  if i < s.params.cap t then Memory.read resetSlot (s.tree t) i else resetSlot

/-- `CLT[i]` (10_state.md R48). -/
def State.codeLen (s : State) (i : Nat) : Byte := Memory.read 0 s.clt i

/-- `CLT[i] <- v`. -/
def State.setCodeLen (i : Nat) (v : Byte) (s : State) : State := { s with clt := Memory.write 0 s.clt i v }

/-- `RING[i]` (10_state.md R49). -/
def State.ringAt (s : State) (i : Nat) : Byte := Memory.read s.params.ringFill s.ring i

/-- Every RAM of the state is in its canonical form and within its bounds. -/
def State.memoryWf (s : State) : Bool :=
  Memory.wf resetSlot (s.params.cap .ct) s.ct && Memory.wf resetSlot (s.params.cap .ot) s.ot &&
    Memory.wf 0 s.params.cltMax s.clt && Memory.wf s.params.ringFill Config.ringSize s.ring

/-! ## Registers -/

/-- RES <- v (10_state.md R36). -/
def State.setRes (v : Half) (s : State) : State := { s with res := v }

/-- RC_PHASE <- p, and STAT.PHASE with it (10_state.md R42, R43). -/
def State.setPhase (p : Phase) (s : State) : State := { s with rcPhase := p, stat := statPhase p s.stat }

/-- The port RCCNT (10_state.md R54). -/
def State.rccnt (s : State) : BitVec 32 := s.rcCount

/-- RC_COUNT less one, saturating at −2^31 (44_variant_rebuild.md R241). -/
def countDown (c : BitVec 32) : BitVec 32 := if -2147483648 < c.toInt then c - 1 else c

/-! ## Failures, and the way out of one -/

/-- What a failure does to the block: STAT.FAIL and its cause are set, and nothing else (60_exceptions.md R302, R303). The
command that raises it ends at once (00_scope.md R16). -/
def State.raise (f : Failure) (s : State) : State := { s with stat := statSet f.bit (statSet .fail s.stat) }

/-- The start of a session: every piece of the block's state takes its reset value (45_session.md R280; 10_state.md R52), the
byte source connected at that time is bound (R281; log 7), what was emitted stays with the consumer (R280; log 6). It is the
only way out of a failed session (60_exceptions.md R310). -/
def State.newSession (s : State) : State :=
  { State.resetWith s.params with
    inputs := s.inputs
    src := s.connected.getD s.src
    taken := s.taken ++ s.out
    freeCtr := s.freeCtr }

/-- What a step of a command gives: a value and the state after it, or end of input and the state it leaves (R16). -/
inductive Run (α : Type) where
  | ok (a : α) (s : State)
  | eos (s : State)
  deriving DecidableEq, Repr

/-- One part of a command after another; end of input in the first ends the command (00_scope.md R16). -/
def Run.bind {α β : Type} (r : Run α) (f : α → State → Run β) : Run β :=
  match r with
  | .ok a s => f a s
  | .eos s => .eos s

/-- The state after a command whose last part is `f`: where input ended, EOS is raised and `f` does not run (R302). -/
def Run.finish {α : Type} (r : Run α) (f : α → State → State) : State :=
  match r with
  | .ok a s => f a s
  | .eos s => s.raise .eos

/-! ## The bit-stream reader -/

/-- `Pull()` (40_bitstream.md R143). A source whose list of answers is used up answers end of input. -/
def pull (s : State) : Run Unit :=
  match s.src with
  | [] => .eos s
  | .eof :: rest => .eos { s with src := rest }
  | .byte b :: rest => .ok () { s with src := rest, brByte := b, brPos := 0, brValid := true }

/-- The most significant bit of BR_BYTE not consumed yet, and its consumption (40_bitstream.md R141). -/
def takeBit (s : State) : Run Bool :=
  let b := s.brByte.getLsbD (7 - s.brPos.toNat)
  if s.brPos = 7 then .ok b { s with brPos := 0, brValid := false }
  else .ok b { s with brPos := s.brPos + 1 }

/-- `ReadBit()` (40_bitstream.md R141). -/
def readBit (s : State) : Run Bool :=
  if s.brValid then takeBit s else (pull s).bind fun _ s' => takeBit s'

/-- `n` more bits after the bits in `v`, the first read the most significant (40_bitstream.md R142). -/
def readBitsInto (n : Nat) (v : Half) (s : State) : Run Half :=
  match n with
  | 0 => .ok v s
  | k + 1 =>
    match readBit s with
    | .ok b s' => readBitsInto k ((v <<< 1) ||| (BitVec.ofBool b).setWidth 16) s'
    | .eos s' => .eos s'

/-- `ReadBits(n)` (40_bitstream.md R142). -/
def readBits (n : Nat) (s : State) : Run Half := readBitsInto n 0 s

/-- An upper bound on the bits the block can still read: each of them takes one bit of BR_BYTE or of an answer. -/
def State.bitBudget (s : State) : Nat := (if s.brValid then 8 - s.brPos.toNat else 0) + 8 * s.src.length

/-! ## The ring -/

/-- `RingPush(b)` (43_ring_buffer.md R221); the 13-bit cursor wraps at RING_SIZE. -/
def ringPush (b : Byte) (s : State) : State :=
  { s with ring := Memory.write s.params.ringFill s.ring s.rbWp.toNat b, rbWp := s.rbWp + 1 }

/-- `RingRead(k)` (43_ring_buffer.md R222). -/
def ringRead (k : BitVec 16) (s : State) : Byte := s.ringAt (ringIndex s.rbWp k)

end Sys2Proof.Machine
end

