-- ==== Sys2Proof/Machine/Bitstream.lean ====
section
/-! DEFINITION. The command of the bit-stream reader (40_bitstream.md R144). -/

namespace Sys2Proof.Machine

/-- RDBITS (40_bitstream.md R144). -/
def execRdbits (nm1 : BitVec 4) (s : State) : Host.Outcome State Fault Refusal :=
  .next ((readBits (bitCount nm1) s).finish fun v s' => s'.setRes v)

end Sys2Proof.Machine
end

