-- ==== Sys2Proof/Machine/Builder.lean ====
section
/-! DEFINITION. The tree builder (41_tree_builder.md R160 to R176): its queue, the levels of one build, and the commands
CLTW, TRESET, TBUILD, TSINGLE. -/

namespace Sys2Proof.Machine

/-- The hidden state of one build (10_state.md R50) with the tree it writes and the warnings it meets (log 13). -/
structure Build where
  /-- The slots written so far; every other slot is at its reset value (R162). -/
  tree : Memory 16
  /-- Q: the pending slots, oldest first (R161). -/
  queue : List Nat
  /-- ALLOC (R164). -/
  alloc : Nat
  /-- DEPTH (R167). -/
  depth : Nat
  /-- A level was skipped (R165). -/
  wcap : Bool
  /-- An entry was dropped (R161). -/
  wqovf : Bool
  /-- A symbol was not placed (R169). -/
  wqempty : Bool
  deriving DecidableEq, Repr

/-- `Q.push(v)`: dropped, with a warning, when the queue is full (R161). -/
def Build.push (v : Nat) (b : Build) : Build :=
  if b.queue.length < Config.queueCap then { b with queue := b.queue ++ [v] } else { b with wqovf := true }

/-- The start of a build: the reset tree, the root queued, the cursor behind it (R162, R164). -/
def Build.start : Build :=
  { tree := [], queue := [0], alloc := 1, depth := 0, wcap := false, wqovf := false, wqempty := false }

/-- One slot of the expand step: it becomes internal, its two children are allocated and queued (R166). -/
def Build.expandOne (b : Build) : Build :=
  match b.queue with
  | [] => b
  | s :: rest =>
    let b1 : Build := { b with tree := Memory.write resetSlot b.tree s (nodeSlot b.alloc), queue := rest }
    let b2 := (b1.push b.alloc).push (b.alloc + 1)
    { b2 with alloc := b.alloc + 2 }

/-- `q` slots of the expand step, in queue order (R166). -/
def Build.expandMany (q : Nat) (b : Build) : Build :=
  match q with
  | 0 => b
  | k + 1 => Build.expandMany k b.expandOne

/-- The expand step of a level of a tree of capacity `cap`: skipped whole, with a warning, if it does not fit (R165). -/
def Build.expandLevel (cap : Nat) (b : Build) : Build :=
  if cap < b.alloc + 2 * b.queue.length then { b with wcap := true } else b.expandMany b.queue.length

/-- The leaf assignment of one symbol whose length is the current depth (R168, R169). -/
def Build.placeLeaf (i : Nat) (b : Build) : Build :=
  match b.queue with
  | [] => { b with wqempty := true }
  | s :: rest => { b with tree := Memory.write resetSlot b.tree s (leafSlot (BitVec.ofNat 15 i)), queue := rest }

/-- The leaf assignment of a level: the symbols from `i` on, in increasing number (R168). -/
def Build.assign (lens : List Byte) (i : Nat) (b : Build) : Build :=
  match lens with
  | [] => b
  | l :: rest => Build.assign rest (i + 1) (if l.toNat = b.depth then b.placeLeaf i else b)

/-- One level: expand, count the depth, assign the leaves (R163). -/
def Build.level (cap : Nat) (lens : List Byte) (b : Build) : Build :=
  let b1 := b.expandLevel cap
  Build.assign lens 0 { b1 with depth := b1.depth + 1 }

/-- Is some symbol deeper than the current depth (R163 `more`, R170)? -/
def Build.more (lens : List Byte) (b : Build) : Bool := lens.any fun l => decide (b.depth < l.toNat)

/-- Levels until no symbol is deeper than the current depth, `fuel` of them at most (R163). A length is at most 255, so 255
levels are enough (R170; log 14). -/
def Build.levels (cap : Nat) (lens : List Byte) (fuel : Nat) (b : Build) : Build :=
  match fuel with
  | 0 => b
  | k + 1 =>
    let b1 := b.level cap lens
    if b1.more lens then Build.levels cap lens k b1 else b1

/-- `TreeBuild` for a tree of capacity `cap` from the lengths of its symbols (R163). -/
def buildTree (cap : Nat) (lens : List Byte) : Build := Build.levels cap lens 255 Build.start

/-- `CLT[0..n−1]` (R160). -/
def State.codeLens (s : State) (n : Nat) : List Byte := (List.range n).map s.codeLen

/-- STAT with the warnings of a build added (10_state.md R41; 60_exceptions.md R308). -/
def buildStat (b : Build) (v : Half) : Half :=
  statSetIf b.wqempty .wqempty (statSetIf b.wqovf .wqovf (statSetIf b.wcap .wcap v))

/-- `TreeReset(t)`: every slot 0x8000 (R162). -/
def treeReset (t : TreeSel) (s : State) : State := s.setTree t []

/-- `TreeBuild(t, nsym)` (R163). -/
def treeBuild (t : TreeSel) (nsym : Nat) (s : State) : State :=
  let b := buildTree (s.params.cap t) (s.codeLens nsym)
  { s.setTree t b.tree with stat := buildStat b s.stat }

/-- `TreeSingle(t, x)` (R172). -/
def treeSingle (t : TreeSel) (x : Symbol) (s : State) : State :=
  s.setTree t (Memory.write resetSlot [] 0 (leafSlot x))

/-- CLTW (R173); an index at or above CLT_MAX is illegal and nothing is written (30_encoding.md R116). -/
def execCltw (idx : BitVec 12) (len : Byte) (s : State) : Host.Outcome State Fault Refusal :=
  .next (if (Instr.cltw idx len).wf s.params.cltMax then s.setCodeLen (count12 idx) len else s.raise .ill)

/-- TRESET (R174). -/
def execTreset (t : TreeSel) (s : State) : Host.Outcome State Fault Refusal := .next (treeReset t s)

/-- TBUILD (R175); a count above CLT_MAX is illegal (30_encoding.md R116). -/
def execTbuild (t : TreeSel) (nsym : BitVec 12) (s : State) : Host.Outcome State Fault Refusal :=
  .next (if (Instr.tbuild t nsym).wf s.params.cltMax then treeBuild t (count12 nsym) s else s.raise .ill)

/-- TSINGLE (R176). -/
def execTsingle (t : TreeSel) (sym : Symbol) (s : State) : Host.Outcome State Fault Refusal :=
  .next (treeSingle t sym s)

end Sys2Proof.Machine
end

