-- ==== Sys2Proof/Machine/Emit.lean ====
section
/-! DEFINITION. Emission: LIT and COPY (44_variant_rebuild.md R241 to R243). -/

namespace Sys2Proof.Machine

/-- `Emit(b)` (44_variant_rebuild.md R241). -/
def emit (b : Byte) (s : State) : State :=
  let s1 := ringPush b s
  { s1 with out := s.out ++ [b], rcCount := countDown s.rcCount }

/-- `n` times: read the ring at distance `d`, emit the byte (44_variant_rebuild.md R243, R244). -/
def emitCopy (n : Nat) (d : BitVec 16) (s : State) : State :=
  match n with
  | 0 => s
  | k + 1 => emitCopy k d (emit (ringRead d s) s)

/-- LIT (44_variant_rebuild.md R242). -/
def execLit (b : Byte) (s : State) : Host.Outcome State Fault Refusal := .next ((emit b s).setRes (resOfCount 1))

/-- COPY (44_variant_rebuild.md R243). -/
def execCopy (len : BitVec 12) (dist : BitVec 16) (s : State) : Host.Outcome State Fault Refusal :=
  .next ((emitCopy (count12 len) dist s).setRes (resOfCount (count12 len)))

end Sys2Proof.Machine
end

