-- ==== Sys2Proof/Machine/Walk.lean ====
section
/-! DEFINITION. The tree decoder (42_tree_decoder.md R201, R202). -/

namespace Sys2Proof.Machine

/-- The loop of `DecodeSym(t)` from a slot that has been read (R201). Each turn consumes a bit, so the bits that can still be
read bound the turns; where they are used up the next read meets end of input (log 15). -/
def walk (t : TreeSel) (fuel : Nat) (v : Slot) (s : State) : Run Symbol :=
  if isLeaf v then .ok (leafSymbol v) s
  else
    match fuel with
    | 0 => .eos s
    | k + 1 =>
      match readBit s with
      | .ok b s' => walk t k (s'.slot t (childSlot v b)) s'
      | .eos s' => .eos s'

/-- `DecodeSym(t)` (42_tree_decoder.md R201). -/
def decodeSym (t : TreeSel) (s : State) : Run Symbol := walk t (s.bitBudget + 1) (s.slot t 0) s

/-- DECODE (42_tree_decoder.md R202). -/
def execDecode (t : TreeSel) (s : State) : Host.Outcome State Fault Refusal :=
  .next ((decodeSym t s).finish fun x s' => s'.setRes (resOfSymbol x))

end Sys2Proof.Machine
end

