-- ==== Sys2Proof/Machine/Formats.lean ====
section
/-! DEFINITION. The parameter functions TREE_HEADER and PM2_TOKEN as the engine runs them (00_scope.md R12, R13), and their
test instances `hdr_test` and `tok_test` (95_test_vectors.md section 0; log 3). -/

namespace Sys2Proof.Machine

/-- A bit-reading program run on the bit stream: end of input inside it raises EOS (00_scope.md R12). -/
def runBits {α : Type} (p : BitProg α) (s : State) : Run α :=
  match p with
  | .ret a => .ok a s
  | .bit k =>
    match readBit s with
    | .ok b s' => runBits (k b) s'
    | .eos s' => .eos s'

/-- A token program run on the bit stream and the offset tree (00_scope.md R13). -/
def runToken {α : Type} (p : TokProg α) (s : State) : Run α :=
  match p with
  | .ret a => .ok a s
  | .bit k =>
    match readBit s with
    | .ok b s' => runToken (k b) s'
    | .eos s' => .eos s'
  | .offset k =>
    match decodeSym .ot s with
    | .ok x s' => runToken (k x) s'
    | .eos s' => .eos s'

/-- One bit-reading program, then another. -/
def BitProg.andThen {α β : Type} (p : BitProg α) (f : α → BitProg β) : BitProg β :=
  match p with
  | .ret a => f a
  | .bit k => .bit fun b => BitProg.andThen (k b) f

/-- `n` bits after the value `v`, the first the most significant (40_bitstream.md R142). -/
def BitProg.bits (n v : Nat) : BitProg Nat :=
  match n with
  | 0 => .ret v
  | k + 1 => .bit fun b => BitProg.bits k (2 * v + b.toNat)

/-- `ReadBits(3)` for each of `n` symbols, in order (95_test_vectors.md section 0). -/
def testLengths (n : Nat) : BitProg (Vector Byte n) :=
  match n with
  | 0 => .ret #v[]
  | k + 1 => BitProg.andThen (testLengths k) fun v =>
      BitProg.andThen (BitProg.bits 3 0) fun x => .ret (v.push (BitVec.ofNat 8 x))

/-- `hdr_test` (95_test_vectors.md section 0). -/
def hdrTest (_t : TreeSel) (nsym : Nat) : BitProg (Header nsym) :=
  .bit fun b =>
    if b then BitProg.andThen (BitProg.bits 8 0) fun x => .ret (.single (BitVec.ofNat 15 x))
    else BitProg.andThen (testLengths nsym) fun l => .ret (.lengths l)

/-- `tok_test` (95_test_vectors.md section 0), which is written for MAX_COPY = 10 and symbols below 16; a longer copy is cut
to MAX_COPY, so that it stays an instance R13 allows. -/
def tokTest (maxCopy : Nat) (sym : Symbol) : TokProg (Token maxCopy) :=
  if sym.toNat < 8 then .ret (.literal (BitVec.ofNat 8 (0x40 + sym.toNat)))
  else .offset fun x =>
    .ret (.copy ⟨min (sym.toNat - 5) maxCopy, Nat.lt_succ_of_le (Nat.min_le_right _ _)⟩ (x.setWidth 16 + 1))

/-- TREE_HEADER of a block with parameters `p` (00_scope.md R12). -/
def treeHeader (p : Params) (t : TreeSel) (nsym : Nat) : BitProg (Header nsym) :=
  match p.formats with
  | .unspecified => Config.treeHeader t nsym
  | .testVectors => hdrTest t nsym

/-- PM2_TOKEN of a block with parameters `p` (00_scope.md R13). -/
def pm2Token (p : Params) (sym : Symbol) : TokProg (Token p.maxCopy) :=
  match p.formats with
  | .unspecified => Config.pm2Token p.maxCopy sym
  | .testVectors => tokTest p.maxCopy sym

end Sys2Proof.Machine
end

