-- ==== Sys2Proof/Machine/Rebuild.lean ====
section
/-! DEFINITION. The rebuild controller: reading a tree (41_tree_builder.md R177), the schedule (44_variant_rebuild.md R245 to
R253), REBUILD and PRODUCE (R254, R255). -/

namespace Sys2Proof.Machine

/-- `CLT[i..] <- l`, in order (41_tree_builder.md R177). -/
def writeLens (i : Nat) (l : List Byte) (s : State) : State :=
  match l with
  | [] => s
  | v :: rest => writeLens (i + 1) rest (s.setCodeLen i v)

/-- What `ReadTree` does with the header it has read (41_tree_builder.md R177). -/
def applyHeader (t : TreeSel) (nsym : Nat) (h : Header nsym) (s : State) : State :=
  match h with
  | .single x => treeSingle t x s
  | .lengths l => treeBuild t nsym (writeLens 0 l.toList s)

/-- `ReadTree(t, nsym)`; a header cut short writes neither the tree nor CLT (41_tree_builder.md R177). -/
def readTree (t : TreeSel) (nsym : Nat) (s : State) : Run Unit :=
  (runBits (treeHeader s.params t nsym) s).bind fun h s' => .ok () (applyHeader t nsym h s')

/-- OT_SIZES: the offset tree's alphabet at the event of each phase (00_scope.md R10; 44_variant_rebuild.md R245). -/
def otSize : Phase → Nat
  | .unbuilt => 5
  | .build1 => 6
  | .build2 => 7
  | .build3 => 8
  | .steady => 8

/-- The next phase (44_variant_rebuild.md R245). -/
def Phase.next : Phase → Phase
  | .unbuilt => .build1
  | .build1 => .build2
  | .build2 => .build3
  | .build3 => .steady
  | .steady => .steady

/-- RC_RELOAD (00_scope.md R10; 44_variant_rebuild.md R245). -/
def Phase.reload : Phase → BitVec 32
  | .unbuilt => 1024
  | .build1 => 1024
  | .build2 => 2048
  | .build3 => 4096
  | .steady => 4096

/-- The offset tree of the phase is read. -/
def readOffsetTree (p : Phase) (s : State) : Run Unit := readTree .ot (otSize p) s

/-- The code tree is read. -/
def readCodeTree (s : State) : Run Unit := readTree .ct s.params.codeSyms s

/-- What the event of a phase reads (44_variant_rebuild.md R246 to R251). -/
def rebuildReads (p : Phase) (s : State) : Run Unit :=
  match p with
  | .unbuilt => (readCodeTree s).bind fun _ s1 => readOffsetTree .unbuilt s1
  | .build1 => readOffsetTree .build1 s
  | .build2 => readOffsetTree .build2 s
  | .build3 => (readBit s).bind fun f s1 =>
      (if f then readCodeTree s1 else .ok () s1).bind fun _ s2 => readOffsetTree .build3 s2
  | .steady => (readBit s).bind fun f s1 =>
      if f then (readCodeTree s1).bind fun _ s2 => readOffsetTree .steady s2 else .ok () s1

/-- The countdown after an event (44_variant_rebuild.md R252). -/
def reloadCount (o : Overshoot) (c reload : BitVec 32) : BitVec 32 :=
  match o with
  | .carry => c + reload
  | .reload => reload

/-- The end of an event: the next phase and the countdown (44_variant_rebuild.md R246). -/
def endRebuild (p : Phase) (s : State) : State :=
  { s.setPhase p.next with rcCount := reloadCount s.params.overshoot s.rcCount p.reload }

/-- `RebuildIfDue()`: did an event run (44_variant_rebuild.md R246)? -/
def rebuildIfDue (s : State) : Run Bool :=
  if 0 < s.rcCount.toInt then .ok false s
  else (rebuildReads s.rcPhase s).bind fun _ s1 => .ok true (endRebuild s.rcPhase s1)

/-- REBUILD (44_variant_rebuild.md R254). -/
def execRebuild (s : State) : Host.Outcome State Fault Refusal :=
  .next ((rebuildIfDue s).finish fun ran s' => s'.setRes (resOfCount ran.toNat))

/-- A token emitted, with the number of its bytes in RES (44_variant_rebuild.md R255). -/
def emitToken {m : Nat} (tok : Token m) (s : State) : State :=
  match tok with
  | .literal b => (emit b s).setRes (resOfCount 1)
  | .copy len dist => (emitCopy len.val dist s).setRes (resOfCount len.val)

/-- The reads of PRODUCE, all before its first emission: the rebuild, the code symbol, its token (44_variant_rebuild.md R255,
R256). MAX_COPY is a parameter, which no step changes, so the token is typed by the value it has when the command begins. -/
def produceReads (s : State) : Run (Token s.params.maxCopy) :=
  (rebuildIfDue s).bind fun _ s1 => (decodeSym .ct s1).bind fun x s2 => runToken (pm2Token s.params x) s2

/-- PRODUCE (44_variant_rebuild.md R255). -/
def execProduce (s : State) : Host.Outcome State Fault Refusal := .next ((produceReads s).finish emitToken)

end Sys2Proof.Machine
end

