-- ==== Sys2Proof/Machine/Ring.lean ====
section
/-! DEFINITION. The commands of the history ring (43_ring_buffer.md R223, R224). -/

namespace Sys2Proof.Machine

/-- RPUSH: history, not output (43_ring_buffer.md R223). -/
def execRpush (b : Byte) (s : State) : Host.Outcome State Fault Refusal := .next (ringPush b s)

/-- RREAD (43_ring_buffer.md R224). -/
def execRread (dist : BitVec 16) (s : State) : Host.Outcome State Fault Refusal :=
  .next (s.setRes (resOfByte (ringRead dist s)))

end Sys2Proof.Machine
end

