-- ==== Sys2Proof/Machine/Session.lean ====
section
/-! DEFINITION. INIT (45_session.md R280) and the reserved opcodes (30_encoding.md R114). -/

namespace Sys2Proof.Machine

/-- INIT (45_session.md R280). -/
def execInit (s : State) : Host.Outcome State Fault Refusal := .next s.newSession

/-- Opcode 0xD is illegal: it raises ILL and has no other effect (30_encoding.md R114; 60_exceptions.md R303). -/
def execReservedD (_rest : BitVec 28) (s : State) : Host.Outcome State Fault Refusal := .next (s.raise .ill)

/-- Opcode 0xE is illegal (R114). -/
def execReservedE (_rest : BitVec 28) (s : State) : Host.Outcome State Fault Refusal := .next (s.raise .ill)

/-- Opcode 0xF is illegal (R114). -/
def execReservedF (_rest : BitVec 28) (s : State) : Host.Outcome State Fault Refusal := .next (s.raise .ill)

end Sys2Proof.Machine
end

