-- ==== Sys2Proof/Machine/Dispatch.lean ====
section
/-! DEFINITION. The dispatch: one arm per constructor of Instr, each one call of its meaning. -/

namespace Sys2Proof.Machine

def exec (i : Instr) (s : State) : Host.Outcome State Fault Refusal :=
  match i with
  | .init => Sys2Proof.Machine.execInit s
  | .rdbits nm1 => Sys2Proof.Machine.execRdbits nm1 s
  | .cltw idx len => Sys2Proof.Machine.execCltw idx len s
  | .treset t => Sys2Proof.Machine.execTreset t s
  | .tbuild t nsym => Sys2Proof.Machine.execTbuild t nsym s
  | .tsingle t sym => Sys2Proof.Machine.execTsingle t sym s
  | .decode t => Sys2Proof.Machine.execDecode t s
  | .rpush b => Sys2Proof.Machine.execRpush b s
  | .rread dist => Sys2Proof.Machine.execRread dist s
  | .lit b => Sys2Proof.Machine.execLit b s
  | .copy len dist => Sys2Proof.Machine.execCopy len dist s
  | .rebuild => Sys2Proof.Machine.execRebuild s
  | .produce => Sys2Proof.Machine.execProduce s
  | .reservedD rest => Sys2Proof.Machine.execReservedD rest s
  | .reservedE rest => Sys2Proof.Machine.execReservedE rest s
  | .reservedF rest => Sys2Proof.Machine.execReservedF rest s

end Sys2Proof.Machine
end

