-- ==== Sys2Proof/Machine/Command.lean ====
section
/-! DEFINITION. One command word and one input of the host (60_exceptions.md R301; 70_reset_and_hazards.md R330, R343). -/

namespace Sys2Proof.Machine

/-- `Step(w)` of 60_exceptions.md R301: the failure gate, the decoder, the command. -/
def runCommand (w : Word) (s : State) : Host.Outcome State Fault Refusal :=
  if s.failed && decide (w ≠ 0) then .next s
  else
    match decode w with
    | none => .next (s.raise .ill)
    | some i => exec i s

/-- The state after a command, `s` itself where it gives none. -/
def afterCommand (w : Word) (s : State) : State :=
  match runCommand w s with
  | .next s' => s'
  | .fault _ => s
  | .refused _ => s

/-- The command run with no new byte source connected, so that its own requests and emissions can be counted. -/
def probe (w : Word) (s : State) : State := afterCommand w { s with connected := none }

/-- How many answers of the byte source the command takes. -/
def answersTaken (w : Word) (s : State) : Nat := s.src.length - (probe w s).src.length

/-- The bytes the command emits. -/
def bytesEmitted (w : Word) (s : State) : List Byte := (probe w s).out.drop s.out.length

/-- Does the command need the byte source or the consumer: does it take an answer, meet end of input, or emit a byte? -/
def needsEnvironment (w : Word) (s : State) : Bool :=
  decide (0 < answersTaken w s) || decide (bytesEmitted w s ≠ []) ||
    (statTest .eos (probe w s).stat && !statTest .eos s.stat)

/-- RST asserted while the command runs: the block's state is the reset state; how many answers the source has given away and
how many bytes the consumer has taken is any number from none to all the command would have moved
(70_reset_and_hazards.md R330; 93_implementation_defined.md U14; log 8). -/
def interruptCommand (w : Word) (s : State) : State :=
  let given := Config.freeNat s.freeCtr % (answersTaken w s + 1)
  let moved := Config.freeNat (s.freeCtr + 1) % ((bytesEmitted w s).length + 1)
  State.newSession { s with
    src := s.src.drop given
    out := s.out ++ (bytesEmitted w s).take moved
    freeCtr := s.freeCtr + 2 }

/-- One input of the host. -/
def takeInput (e : HostInput) (s : State) : Host.Outcome State Fault Refusal :=
  match e with
  | .command w => runCommand w s
  | .early _ => .refused .commandBeforeDone
  | .rst => .next s.newSession
  | .rstDuring w => .next (interruptCommand w s)
  | .unanswered w => if needsEnvironment w s then .fault .environmentNeverAnswers else runCommand w s
  | .connect answers => .next { s with connected := some answers }

end Sys2Proof.Machine
end

