-- ==== Sys2Proof/Machine/Step.lean ====
section
/-! DEFINITION. One step: the host's next input, or an idle engine; and where the host puts the next word. -/

namespace Sys2Proof.Machine

/-- One step of the machine. Parameters outside their ranges are refused (00_scope.md R11, U12); with no input the engine is
idle and keeps its state (60_exceptions.md R316). -/
def step (s : State) : Host.Outcome State Fault Refusal :=
  if s.params.wf then
    match s.inputs with
    | [] => .next s
    | e :: rest => takeInput e { s with inputs := rest }
  else .refused .parametersOutOfRange

/-- The state in which the very next step runs the word whose low `nbits` bits are `w`: the host presents it next. -/
def State.withFetchWord (s : State) (nbits w : Nat) : State :=
  { s with inputs := .command (tableWord nbits w) :: s.inputs }

end Sys2Proof.Machine
end

