-- ==== Sys2Proof/Safety.lean ====
section
/-! DEFINITION. The words claims are made in: the bits a session can still read, a walk and a parameter function on a list of
bits, the invariants of the machine, and what a successful end is. Nothing here is part of the machine. -/

namespace Sys2Proof.Machine

/-! ## The bit stream as a list of bits -/

/-- The bits of a byte, most significant first (20_memory.md R76). -/
def byteBits (b : Byte) : List Bool := (List.range 8).map fun i => b.getLsbD (7 - i)

/-- The bits of the bytes answered before the source's first end of input, in order (20_memory.md R77). -/
def answerBits : List SrcAnswer → List Bool
  | [] => []
  | .eof :: _ => []
  | .byte b :: rest => byteBits b ++ answerBits rest

/-- The bits of BR_BYTE not consumed yet (10_state.md R45). -/
def State.heldBits (s : State) : List Bool := if s.brValid then (byteBits s.brByte).drop s.brPos.toNat else []

/-- The bits the engine can read before it meets end of input, in stream order. -/
def State.pendingBits (s : State) : List Bool := s.heldBits ++ answerBits s.src

/-- The unsigned value of a list of bits, the first the most significant (40_bitstream.md R142). -/
def bitsValue (l : List Bool) : Nat := l.foldl (fun v b => 2 * v + b.toNat) 0

/-- `t` is `s` but for the bit-stream reader: its three registers and the answers the source has left. -/
def OnlyReaderMoved (s t : State) : Prop :=
  t = { s with src := t.src, brByte := t.brByte, brPos := t.brPos, brValid := t.brValid }

/-- `t` is `s` but for what emission moves: the output record, the ring and its cursor, and the countdown. -/
def OnlyEmitted (s t : State) : Prop :=
  t = { s with out := t.out, ring := t.ring, rbWp := t.rbWp, rcCount := t.rcCount }

/-- The answers after the source's first end of input. -/
def afterEof : List SrcAnswer → List SrcAnswer
  | [] => []
  | .eof :: rest => rest
  | .byte _ :: rest => afterEof rest

/-- `t` is what a command that meets end of input leaves of `s`: only the reader has moved, it holds no bit, every answer up to
the end of input has been taken, so the bits there were are lost, and STAT.FAIL and STAT.EOS are set (60_exceptions.md R302;
40_bitstream.md R145, R148). -/
def EndsAtEos (s t : State) : Prop :=
  OnlyReaderMoved { s with stat := s.stat ||| 0x0003 } t ∧ t.brValid = false ∧ t.brPos = 0 ∧ t.src = afterEof s.src

/-! ## Walks and parameter functions on a list of bits -/

/-- The walk of 42_tree_decoder.md R201 on a list of bits, from a slot `v` of a tree read by `rd`: the symbol and the bits
left, or `none` where the bits end first. -/
def walkBits (rd : Nat → Slot) (v : Slot) : List Bool → Option (Symbol × List Bool)
  | [] => if isLeaf v then some (leafSymbol v, []) else none
  | b :: rest => if isLeaf v then some (leafSymbol v, b :: rest) else walkBits rd (rd (childSlot v b)) rest

/-- A symbol decoded from tree `t` of state `s` on a list of bits. -/
def State.symbolBits (s : State) (t : TreeSel) (bits : List Bool) : Option (Symbol × List Bool) :=
  walkBits (s.slot t) (s.slot t 0) bits

/-- A bit-reading program on a list of bits: its value and the bits left, or `none` where the bits end first. -/
def progBits {α : Type} (p : BitProg α) (bits : List Bool) : Option (α × List Bool) :=
  match p, bits with
  | .ret a, bits => some (a, bits)
  | .bit _, [] => none
  | .bit k, b :: rest => progBits (k b) rest

/-- A token program on a list of bits, with the offset tree of state `s`. -/
def State.tokenBits {α : Type} (s : State) (p : TokProg α) (bits : List Bool) : Option (α × List Bool) :=
  match p with
  | .ret a => some (a, bits)
  | .bit k =>
    match bits with
    | [] => none
    | b :: rest => s.tokenBits (k b) rest
  | .offset k =>
    match s.symbolBits .ot bits with
    | none => none
    | some (x, rest) => s.tokenBits (k x) rest

/-! ## The codes of a code-length table -/

/-- How many codes of `d` bits are taken before symbol `k` of length `d` gets its own: a code of `l` bits takes `2^(d−l)` of them,
and the codes shorter than `d`, and those of `d` bits of lower-numbered symbols, come first (41_tree_builder.md R180). -/
def takenCodes (len : Nat → Byte) (nsym d k : Nat) : Nat :=
  ((List.range nsym).map fun j =>
    if len j ≠ 0 ∧ ((len j).toNat < d ∨ ((len j).toNat = d ∧ j < k)) then 2 ^ (d - (len j).toNat) else 0).sum

/-! ## Invariants -/

/-- STAT as 10_state.md R37, R39 and R42 say it always is: PHASE is the encoding of RC_PHASE, the reserved bits are 0, and FAIL
is set exactly when one, and only one, of EOS and ILL is. -/
structure StatusOk (s : State) : Prop where
  phase : s.stat.extractLsb' 8 3 = s.rcPhase.code
  reservedLow : s.stat.extractLsb' 6 2 = 0
  reservedHigh : s.stat.extractLsb' 11 5 = 0
  cause : statTest .fail s.stat = (statTest .eos s.stat || statTest .ill s.stat)
  oneCause : (statTest .eos s.stat && statTest .ill s.stat) = false

/-- The bit-stream reader between commands (40_bitstream.md R149). -/
def ReaderOk (s : State) : Prop := s.brValid = false → s.brPos = 0

/-- A byte is held exactly where some of its bits are consumed and some are not: it is pulled when a bit of it is needed and not
before, and let go with its eighth bit (40_bitstream.md R141, R143; 90_conflicts.md C5). -/
def ReaderLazy (s : State) : Prop := s.brValid = true ↔ s.brPos ≠ 0

/-- The trees as 41_tree_builder.md R178 says they always are: an internal slot `i` has a first child `c` with `i < c` and
`c + 1` below the capacity. -/
def TreesOk (s : State) : Prop :=
  ∀ t i, i < s.params.cap t → isLeaf (s.slot t i) = false →
    i < firstChild (s.slot t i) ∧ firstChild (s.slot t i) + 1 < s.params.cap t

/-- `k` bytes before the count of this session's next threshold, of the sequence of 44_variant_rebuild.md R257: the threshold
is 0, 1024, 2048, 4096 in the first four phases and a multiple of 4096 from 8192 on in Steady. -/
def ThresholdOk (p : Phase) (threshold : Nat) : Prop :=
  match p with
  | .unbuilt => threshold = 0
  | .build1 => threshold = 1024
  | .build2 => threshold = 2048
  | .build3 => threshold = 4096
  | .steady => 8192 ≤ threshold ∧ threshold % 4096 = 0

/-- RC_COUNT is the next threshold less the bytes emitted since INIT, as long as fewer than 2^31 have been
(44_variant_rebuild.md R257; beyond that the countdown saturates, R241). -/
def ScheduleOk (s : State) : Prop :=
  s.out.length < 2147483648 →
    ∃ threshold, ThresholdOk s.rcPhase threshold ∧ s.rcCount.toInt = (threshold : Int) - (s.out.length : Int)

/-- `t` is the state after a rebuild event that was due in `s`, whose reads gave the trees, CLT and warnings of `m`: the phase
and its copy in STAT are `p`, the countdown is reloaded by `reload` (44_variant_rebuild.md R246, R252), RES is 1 (R254), the
reader has moved, and nothing else. -/
structure EventDone (s m t : State) (p : Phase) (reload : Int) : Prop where
  frame : OnlyReaderMoved { m with rcPhase := p, res := 1, stat := t.stat, rcCount := t.rcCount } t
  bits : ∀ b, statTest b t.stat = statTest b m.stat
  phase : t.stat.extractLsb' 8 3 = p.code
  low : t.stat.extractLsb' 0 8 = m.stat.extractLsb' 0 8
  high : t.stat.extractLsb' 11 5 = m.stat.extractLsb' 11 5
  carry : s.params.overshoot = .carry → t.rcCount.toInt = s.rcCount.toInt + reload
  reloads : s.params.overshoot = .reload → t.rcCount.toInt = reload

/-! ## The end of a run -/

/-- Commands run one after another, each on the state the last one left (20_memory.md R82). -/
def execAll (l : List Instr) (s : State) : Host.Outcome State Fault Refusal :=
  match l with
  | [] => .next s
  | i :: rest =>
    match exec i s with
    | .next t => execAll rest t
    | .fault r => .fault r
    | .refused r => .refused r

/-- The bytes pushed into the ring by commands run one after another from `s`, oldest first: RPUSH pushes its byte, and what any
other command pushes it also emits (43_ring_buffer.md R223, R227; 44_variant_rebuild.md R241). -/
def pushedBytes (l : List Instr) (s : State) : List Byte :=
  match l with
  | [] => []
  | i :: rest =>
    match exec i s with
    | .next t =>
      (match i with
        | .rpush b => [b]
        | _ => t.out.drop s.out.length) ++ pushedBytes rest t
    | .fault _ => []
    | .refused _ => []

/-- The run is over (70_reset_and_hazards.md R348) and the session has not failed: a failed session is never a successful end
(60_exceptions.md R309). -/
def State.successfulEnd (s : State) : Prop := s.inputs = [] ∧ s.failed = false

end Sys2Proof.Machine
end

