-- ==== Sys2Proof/Certificates/Slice0/Obligations.lean ====
section
/-! DEFINITION. The statements for the provers. Each docstring names the rule of spec/ it formalises; the words they are made in
are those of Safety.lean. -/

open Sys2Proof Sys2Proof.Machine

/-! ## Encoding -/

/-- Every command, with every operand its fields can hold, is read back from its word: no bit of a format is dropped
(30_encoding.md R101 to R112). -/
def Obligations.DecodeOfEncodeIsTheCommand : Prop := ∀ i : Instr, decode (encode i) = some i

/-- A word that is a command is the only word of that command: the formats leave no bit of it open (30_encoding.md R101 to
R112, R115). -/
def Obligations.EncodeOfDecodeIsTheWord : Prop := ∀ (w : Word) (i : Instr), decode w = some i → encode i = w

/-- The match and mask columns of 30_encoding.md R111 for opcodes 0x0 to 0xC, and the two value checks of R116, say which words
are commands of a block whose code-length table has `cltMax` entries; `Decode` of R123 gives ILL for every other word. -/
def Obligations.DecodeGivesIllExactlyWhereTheMapDoes : Prop :=
  ∀ (cltMax : Nat) (w : Word), decodeLegal cltMax w ≠ none ↔
    ∃ row ∈ ([(0x00000000, 0xFFFFFFFF), (0x10000000, 0xFFFFFFF0), (0x20000000, 0xFFF00000), (0x30000000, 0xFEFFFFFF),
        (0x40000000, 0xFEFFF000), (0x50000000, 0xFEFF8000), (0x60000000, 0xFEFFFFFF), (0x70000000, 0xFFFFFF00),
        (0x80000000, 0xFFFF0000), (0x90000000, 0xFFFFFF00), (0xA0000000, 0xF0000000), (0xB0000000, 0xFFFFFFFF),
        (0xC0000000, 0xFFFFFFFF)] : List (Word × Word)),
      w &&& row.2 = row.1 ∧
        (row.1 = 0x20000000 → w.toNat / 256 % 4096 < cltMax) ∧ (row.1 = 0x40000000 → w.toNat % 4096 ≤ cltMax)

/-- The fields of a decoded word, as numbers: 30_encoding.md R103 (NM1 in bits 3:0), R104 (IDX in 19:8, LEN in 7:0), R107 (SYM in
14:0), R108 (NSYM in 11:0), R109 (BYTE in 7:0), R110 (DIST in 15:0), R112 (LEN in 27:16, DIST in 15:0), and the tree of bit 24
(R105, R106). -/
def Obligations.DecodedFieldsAreTheFormatsBits : Prop :=
  (∀ w nm1, decode w = some (.rdbits nm1) → nm1.toNat = w.toNat % 16) ∧
  (∀ w idx len, decode w = some (.cltw idx len) → idx.toNat = w.toNat / 256 % 4096 ∧ len.toNat = w.toNat % 256) ∧
  (∀ w t sym, decode w = some (.tsingle t sym) → sym.toNat = w.toNat % 32768 ∧ (t = .ot ↔ w.toNat / 16777216 % 2 = 1)) ∧
  (∀ w t nsym, decode w = some (.tbuild t nsym) → nsym.toNat = w.toNat % 4096 ∧ (t = .ot ↔ w.toNat / 16777216 % 2 = 1)) ∧
  (∀ w t, decode w = some (.treset t) ∨ decode w = some (.decode t) → (t = .ot ↔ w.toNat / 16777216 % 2 = 1)) ∧
  (∀ w b, decode w = some (.rpush b) ∨ decode w = some (.lit b) → b.toNat = w.toNat % 256) ∧
  (∀ w d, decode w = some (.rread d) → d.toNat = w.toNat % 65536) ∧
  (∀ w l d, decode w = some (.copy l d) → l.toNat = w.toNat / 65536 % 4096 ∧ d.toNat = w.toNat % 65536)

/-- The encoding examples of 30_encoding.md R124 decode to the commands they stand for (a sanity statement). -/
def Obligations.DecodesTheEncodingExamples : Prop :=
  decode 0x00000000 = some .init ∧ decode 0x10000002 = some (.rdbits 2) ∧ decode 0x1000000F = some (.rdbits 15) ∧
  decode 0x20000202 = some (.cltw 2 2) ∧ decode 0x31000000 = some (.treset .ot) ∧
  decode 0x40000010 = some (.tbuild .ct 16) ∧ decode 0x50000041 = some (.tsingle .ct 65) ∧
  decode 0x61000000 = some (.decode .ot) ∧ decode 0x70000011 = some (.rpush 0x11) ∧
  decode 0x80000001 = some (.rread 1) ∧ decode 0x90000041 = some (.lit 0x41) ∧
  decode 0xA0040002 = some (.copy 4 2) ∧ decode 0xB0000000 = some .rebuild ∧ decode 0xC0000000 = some .produce

/-! ## A step -/

/-- A command word that the host presents, and that decodes to `i`, is run by the next step as `exec i` on the state without that
word: nothing else is added around the command (60_exceptions.md R301). In a failed session only INIT's word is. -/
def Obligations.StepRunsTheDecodedCommand : Prop :=
  ∀ (s : State) (w : Word) (rest : List HostInput) (i : Instr), s.params.wf = true → s.inputs = .command w :: rest →
    s.failed = false ∨ w = 0 → decode w = some i → step s = exec i { s with inputs := rest }

/-- 30_encoding.md R118: in a failed session a word other than INIT's is ignored, legal or not, and sets no further bit. -/
def Obligations.FailedSessionIgnoresEveryOtherWord : Prop :=
  ∀ (s : State) (w : Word) (rest : List HostInput), s.params.wf = true → s.inputs = .command w :: rest →
    s.failed = true → w ≠ 0 → step s = .next { s with inputs := rest }

/-- 60_exceptions.md R303: an illegal word sets STAT.FAIL and STAT.ILL and does nothing else. Illegal is what `Decode` of
30_encoding.md R123 says. -/
def Obligations.IllegalWordSetsFailAndIllOnly : Prop :=
  ∀ (s : State) (w : Word) (rest : List HostInput), s.params.wf = true → s.inputs = .command w :: rest →
    s.failed = false → decodeLegal s.params.cltMax w = none →
      step s = .next { s with inputs := rest, stat := s.stat ||| 0x0005 }

/-- 30_encoding.md R114: the opcodes 0xD, 0xE and 0xF raise ILL and have no other effect, whatever their other bits. -/
def Obligations.ReservedOpcodesRaiseIll : Prop :=
  ∀ (s : State) (rest : BitVec 28),
    exec (.reservedD rest) s = .next { s with stat := s.stat ||| 0x0005 } ∧
    exec (.reservedE rest) s = .next { s with stat := s.stat ||| 0x0005 } ∧
    exec (.reservedF rest) s = .next { s with stat := s.stat ||| 0x0005 }

/-- 30_encoding.md R116: CLTW with IDX ≥ CLT_MAX and TBUILD with NSYM > CLT_MAX raise ILL, and nothing else happens; no other
field value of opcodes 0x0 to 0xC is illegal: a word that decodes and yet is illegal has one of those two, or a reserved opcode. -/
def Obligations.OperandsOutOfRangeRaiseIll : Prop :=
  ∀ (s : State),
    (∀ (idx : BitVec 12) (len : Byte), s.params.cltMax ≤ idx.toNat →
      exec (.cltw idx len) s = .next { s with stat := s.stat ||| 0x0005 }) ∧
    (∀ (t : TreeSel) (nsym : BitVec 12), s.params.cltMax < nsym.toNat →
      exec (.tbuild t nsym) s = .next { s with stat := s.stat ||| 0x0005 }) ∧
    (∀ (w : Word) (i : Instr), decode w = some i → decodeLegal s.params.cltMax w = none →
      (∃ idx len, i = .cltw idx len ∧ s.params.cltMax ≤ idx.toNat) ∨
      (∃ t nsym, i = .tbuild t nsym ∧ s.params.cltMax < nsym.toNat) ∨ 0xD0000000 ≤ w.toNat)

/-- 00_scope.md R11: step refuses a parameter set outside the ranges, and only such a one. -/
def Obligations.ParametersOutsideTheirRangesAreRefused : Prop :=
  ∀ s : State, step s = .refused .parametersOutOfRange ↔
    ¬ (1 ≤ s.params.codeSyms ∧ s.params.codeSyms ≤ 4095 ∧ s.params.maxCopy ≤ 4095)

/-- With no action of the host the engine keeps its state (60_exceptions.md R316), and a command presented before CMD_DONE is
refused (70_reset_and_hazards.md R343). -/
def Obligations.IdleEngineWaitsAndEarlyCommandIsRefused : Prop :=
  ∀ s : State, s.params.wf = true →
    (s.inputs = [] → step s = .next s) ∧
    (∀ w rest, s.inputs = .early w :: rest → step s = .refused .commandBeforeDone)

/-- 70_reset_and_hazards.md R330, asserted between commands: RST does what INIT does. Asserted while a command runs, it leaves
the reset state of the block too, and the byte source and the consumer have moved by any part of what that command would have
moved (93_implementation_defined.md U14; the two amounts are free values, log 8). -/
def Obligations.RstActsAsInit : Prop :=
  ∀ (s : State) (rest : List HostInput), s.params.wf = true →
    (s.inputs = .rst :: rest → step s = exec .init { s with inputs := rest }) ∧
    (∀ w, s.inputs = .rstDuring w :: rest → ∃ given moved,
      given ≤ answersTaken w { s with inputs := rest } ∧ moved ≤ (bytesEmitted w { s with inputs := rest }).length ∧
      step s = exec .init { s with inputs := rest, src := s.src.drop given, freeCtr := s.freeCtr + 2,
                                   out := s.out ++ (bytesEmitted w { s with inputs := rest }).take moved })

/-! ## Sessions -/

/-- 45_session.md R280: INIT gives every piece of the block's state its reset value, whatever it was. -/
def Obligations.InitGivesTheResetValues : Prop :=
  ∀ s : State, ∃ t, exec .init s = .next t ∧
    t.brByte = 0x00 ∧ t.brPos = 0 ∧ t.brValid = false ∧
    (∀ u i, t.slot u i = 0x8000) ∧ (∀ i, t.codeLen i = 0) ∧ (∀ i, t.ringAt i = s.params.ringFill) ∧
    t.rbWp = 0 ∧ t.rcPhase = .unbuilt ∧ t.rcCount = 0 ∧ t.stat = 0x0000 ∧ t.res = 0

/-- What INIT does to the world beside the block: no parameter, pending input or emitted byte is lost, and the byte source is the
one connected for this session, or the one there was. The last two are the model's readings of 45_session.md R280 and R281
(log 6, log 7). -/
def Obligations.InitKeepsWhatIsNotTheBlocks : Prop :=
  ∀ s : State, ∃ t, exec .init s = .next t ∧
    t.params = s.params ∧ t.inputs = s.inputs ∧ t.freeCtr = s.freeCtr ∧ t.connected = none ∧
    t.taken ++ t.out = s.taken ++ s.out ∧ t.out = [] ∧
    (s.connected = none → t.src = s.src) ∧ (∀ a, s.connected = some a → t.src = a)

/-- 10_state.md R52: after reset, for every parameter set, and after INIT, every piece of state holds the value of the table.
State.reset is the reset of the parameters of log 1. -/
def Obligations.ResetGivesTheResetTable : Prop :=
  State.reset = State.resetWith State.reset.params ∧
  ∀ s : State, (s = State.resetWith s.params ∨ ∃ u : State, u.params = s.params ∧ exec .init u = .next s) →
    s.brByte = 0x00 ∧ s.brPos = 0 ∧ s.brValid = false ∧
    (∀ u i, s.slot u i = 0x8000) ∧ (∀ i, s.codeLen i = 0) ∧ (∀ i, s.ringAt i = s.params.ringFill) ∧
    s.rbWp = 0 ∧ s.rcPhase = .unbuilt ∧ s.rcCount = 0 ∧ s.res = 0 ∧ s.stat = 0x0000 ∧ s.out = []

/-- 60_exceptions.md R310: a step leads out of a failed session only where its input is INIT or a reset, and what it leaves is
the start of a new session. -/
def Obligations.OnlyInitOrResetLeavesAFailedSession : Prop :=
  ∀ s t : State, step s = .next t → s.failed = true → t.failed = false →
    (∃ rest, s.inputs = .command 0 :: rest ∨ s.inputs = .unanswered 0 :: rest ∨ s.inputs = .rst :: rest ∨
      ∃ w, s.inputs = .rstDuring w :: rest) ∧
    ∃ u : State, u.params = s.params ∧ exec .init u = .next t

/-! ## The bit-stream reader -/

/-- 40_bitstream.md R144 with R145: RDBITS with n bits to read completes, RES is their value with the first bit most
significant, those bits and no others are consumed, no byte is pulled beyond the one that holds the last of them (a read that
ends on a byte boundary leaves BR_VALID = 0), and only RES and the reader change. With fewer, EOS is raised, RES stays, and the
bits there were are lost. -/
def Obligations.RdbitsReadsTheNextBits : Prop :=
  ∀ (s : State) (nm1 : BitVec 4), encode (.rdbits nm1) = 0x10000000 ||| nm1.setWidth 32 ∧
    (nm1.toNat + 1 ≤ s.pendingBits.length →
      ∃ t, exec (.rdbits nm1) s = .next t ∧ t.res.toNat = bitsValue (s.pendingBits.take (nm1.toNat + 1)) ∧
        t.pendingBits = s.pendingBits.drop (nm1.toNat + 1) ∧ ReaderLazy t ∧ OnlyReaderMoved { s with res := t.res } t) ∧
    (ReaderOk s → s.pendingBits.length < nm1.toNat + 1 → ∃ t, exec (.rdbits nm1) s = .next t ∧ EndsAtEos s t)

/-- 40_bitstream.md R149, first sentence: between commands a reader that holds no bit is at position 0. And, by R141 and R143, a
byte is pulled when a bit of it is needed and not before, and let go with its eighth bit: between commands a reader that holds a
byte has consumed some of its bits and not all. -/
def Obligations.StepKeepsReaderPosition : Prop :=
  ∀ s t : State, step s = .next t → (ReaderOk s → ReaderOk t) ∧ (ReaderLazy s → ReaderLazy t)

/-- 40_bitstream.md R146 and 20_memory.md R81: a command other than INIT never gives an answer of the source back, and one that
does not meet end of input leaves a tail of the bits there were. -/
def Obligations.TheStreamIsNeverRewound : Prop :=
  ∀ (i : Instr) (s t : State), i ≠ .init → exec i s = .next t →
    t.src <:+ s.src ∧ (statTest .eos t.stat = false → t.pendingBits <:+ s.pendingBits)

/-- 70_reset_and_hazards.md R345: CLTW, TRESET, TBUILD, TSINGLE, RPUSH, RREAD, LIT, COPY and INIT read no bits: the reader and the
source are untouched (INIT resets the reader's registers, and binds a source only where one has been connected, log 7). -/
def Obligations.OnlyFourCommandsReadBits : Prop :=
  ∀ (i : Instr) (s t : State), exec i s = .next t →
    (∀ nm1, i ≠ .rdbits nm1) → (∀ u, i ≠ .decode u) → i ≠ .rebuild → i ≠ .produce →
      (i ≠ .init → t.src = s.src ∧ t.brByte = s.brByte ∧ t.brPos = s.brPos ∧ t.brValid = s.brValid) ∧
      (s.connected = none → t.src = s.src)

/-! ## Trees and the code-length table -/

/-- 41_tree_builder.md R173: CLTW of a legal index writes that entry and nothing else; of another it raises ILL and writes
nothing. -/
def Obligations.CltwWritesOneEntry : Prop :=
  ∀ (s : State) (idx : BitVec 12) (len : Byte),
    encode (.cltw idx len) = 0x20000000 ||| idx.setWidth 32 <<< 8 ||| len.setWidth 32 ∧
    (idx.toNat < s.params.cltMax →
      ∃ t, exec (.cltw idx len) s = .next t ∧ (∀ j, t.codeLen j = if j = idx.toNat then len else s.codeLen j) ∧
        t = { s with clt := t.clt }) ∧
    (s.params.cltMax ≤ idx.toNat → exec (.cltw idx len) s = .next { s with stat := s.stat ||| 0x0005 })

/-- 41_tree_builder.md R174: TRESET writes 0x8000 to every slot of its tree; the other tree and the rest of the state stay. -/
def Obligations.TresetMakesEverySlotLeafZero : Prop :=
  ∀ (s : State) (u : TreeSel), encode (.treset u) = (if u = .ot then 0x31000000 else 0x30000000) ∧
    ∃ t, exec (.treset u) s = .next t ∧ (∀ i, t.slot u i = 0x8000) ∧
      (∀ v, v ≠ u → t.tree v = s.tree v) ∧ t = { s with ct := t.ct, ot := t.ot }

/-- 41_tree_builder.md R172 and R176: TSINGLE makes the root a leaf of its symbol and every other slot 0x8000; the other tree and
the rest of the state stay. -/
def Obligations.TsingleMakesASingleLeaf : Prop :=
  ∀ (s : State) (u : TreeSel) (x : Symbol), s.params.wf = true →
    encode (.tsingle u x) = (if u = .ot then 0x51000000 else 0x50000000) ||| x.setWidth 32 ∧
    ∃ t, exec (.tsingle u x) s = .next t ∧
      (∀ i, t.slot u i = if i = 0 then 0x8000#16 ||| x.setWidth 16 else 0x8000#16) ∧
      (∀ v, v ≠ u → t.tree v = s.tree v) ∧ t = { s with ct := t.ct, ot := t.ot }

/-- 42_tree_decoder.md R205 and R204: DECODE of a tree that TSINGLE made gives its symbol, of a tree in its reset state gives 0,
whatever the stream holds and with no bit read. -/
def Obligations.SingleLeafDecodesWithoutABit : Prop :=
  ∀ (s t : State) (u : TreeSel) (x : Symbol), s.params.wf = true →
    (exec (.tsingle u x) s = .next t → exec (.decode u) t = .next { t with res := x.setWidth 16 }) ∧
    ((∀ i, s.slot u i = 0x8000) → exec (.decode u) s = .next { s with res := 0 })

/-- 41_tree_builder.md R175: TBUILD of a legal count always completes. It moves its tree and STAT's warning bits, which it only
sets; FAIL, EOS, ILL, PHASE and the reserved bits stay, and so does everything else. -/
def Obligations.TbuildMovesItsTreeAndWarningsOnly : Prop :=
  ∀ (s : State) (u : TreeSel) (nsym : BitVec 12), nsym.toNat ≤ s.params.cltMax →
    ∃ t, exec (.tbuild u nsym) s = .next t ∧ (∀ v, v ≠ u → t.tree v = s.tree v) ∧
      t = { s with ct := t.ct, ot := t.ot, stat := t.stat } ∧
      t.stat.extractLsb' 0 3 = s.stat.extractLsb' 0 3 ∧ t.stat.extractLsb' 6 10 = s.stat.extractLsb' 6 10 ∧
      (∀ b, statTest b s.stat = true → statTest b t.stat = true)

/-- The builder's full queue, full tree and empty queue, on the state of one build: 41_tree_builder.md R161 (a push on a full queue
is dropped and WQOVF noted), R165 (a level that does not fit is skipped and WCAP noted), R169 with R168 (a symbol takes the first
queued slot as a leaf; with none queued it is dropped and WQEMPTY noted). -/
def Obligations.BuilderDropsAndWarns : Prop :=
  ∀ (b : Build) (cap v : Nat),
    (b.queue.length < 32 → b.push v = { b with queue := b.queue ++ [v] }) ∧
    (32 ≤ b.queue.length → b.push v = { b with wqovf := true }) ∧
    (cap < b.alloc + 2 * b.queue.length → b.expandLevel cap = { b with wcap := true }) ∧
    (b.alloc + 2 * b.queue.length ≤ cap → (b.expandLevel cap).wcap = b.wcap ∧
      (b.expandLevel cap).alloc = b.alloc + 2 * b.queue.length) ∧
    (b.queue = [] → b.placeLeaf v = { b with wqempty := true }) ∧
    (∀ x rest, b.queue = x :: rest → ∃ m, b.placeLeaf v = { b with tree := m, queue := rest } ∧
      ∀ i, Memory.read 0x8000 m i = if i = x then 0x8000#16 ||| (BitVec.ofNat 15 v).setWidth 16
        else Memory.read 0x8000 b.tree i)

/-- 41_tree_builder.md R179: the tree a build writes, and the warnings it meets, depend only on CLT[0..nsym−1], nsym and the
capacity: two states that agree on those build the same tree, whatever else differs. -/
def Obligations.BuildDependsOnItsLengthsOnly : Prop :=
  ∀ (s s' t t' : State) (u : TreeSel) (nsym : BitVec 12), s.params.cap u = s'.params.cap u →
    nsym.toNat ≤ s.params.cltMax → nsym.toNat ≤ s'.params.cltMax → (∀ i < nsym.toNat, s.codeLen i = s'.codeLen i) →
    exec (.tbuild u nsym) s = .next t → exec (.tbuild u nsym) s' = .next t' →
      (∀ i, t.slot u i = t'.slot u i) ∧ t.tree u = t'.tree u ∧
      (s.stat = s'.stat → t.stat = t'.stat)

/-- 41_tree_builder.md R171: a leaf of a built tree carries a symbol below nsym whose length is not 0, or is a slot at its reset
value (symbol 0). -/
def Obligations.BuiltLeavesAreUsedSymbols : Prop :=
  ∀ (s t : State) (u : TreeSel) (nsym : BitVec 12) (i : Nat), s.params.wf = true → nsym.toNat ≤ s.params.cltMax →
    exec (.tbuild u nsym) s = .next t → isLeaf (t.slot u i) = true →
      t.slot u i = 0x8000 ∨
      ((leafSymbol (t.slot u i)).toNat < nsym.toNat ∧ s.codeLen (leafSymbol (t.slot u i)).toNat ≠ 0)

/-- 41_tree_builder.md R180 for a build that sets no warning: it gives every used symbol of length L a code of L bits, on which
the walk of the tree gives the symbol with no bit left. Codes of one length rise with the symbol number; a code lies behind
everything that starts with a shorter code; and each is the next free one: its value is the number of codes of its length that
the shorter ones, and the ones of lower-numbered symbols of its length, take. -/
def Obligations.EveryUsedSymbolGetsACodeOfItsLength : Prop :=
  ∀ (s t : State) (u : TreeSel) (nsym : BitVec 12), s.params.wf = true → nsym.toNat ≤ s.params.cltMax →
    exec (.tbuild u nsym) s = .next t →
    statTest .wcap t.stat = false → statTest .wqovf t.stat = false → statTest .wqempty t.stat = false →
      ∃ code : Nat → List Bool,
        (∀ i < nsym.toNat, s.codeLen i ≠ 0 → (code i).length = (s.codeLen i).toNat ∧
          t.symbolBits u (code i) = some (BitVec.ofNat 15 i, []) ∧
          bitsValue (code i) = takenCodes s.codeLen nsym.toNat (s.codeLen i).toNat i) ∧
        (∀ i j, i < j → j < nsym.toNat → s.codeLen i ≠ 0 → s.codeLen j = s.codeLen i →
          bitsValue (code i) < bitsValue (code j)) ∧
        (∀ i j, i < nsym.toNat → j < nsym.toNat → s.codeLen i ≠ 0 → (s.codeLen i).toNat < (s.codeLen j).toNat →
          bitsValue (code i) < bitsValue ((code j).take (s.codeLen i).toNat))

/-- A table with no used symbol, in a tree that has room for one level: the root is expanded once and both children are leaves
for symbol 0, so every decode reads one bit and gives 0, and no warning is set (60_exceptions.md R304, last bullet;
41_tree_builder.md R170). -/
def Obligations.UnusedTableDecodesOneBitToZero : Prop :=
  ∀ (s : State) (u : TreeSel) (nsym : BitVec 12), 3 ≤ s.params.cap u → nsym.toNat ≤ s.params.cltMax →
    (∀ i < nsym.toNat, s.codeLen i = 0) →
    ∃ t, exec (.tbuild u nsym) s = .next t ∧ t.stat = s.stat ∧ t.slot u 0 = 0x0001 ∧
      (∀ i, i ≠ 0 → t.slot u i = 0x8000) ∧ ∀ b rest, t.symbolBits u (b :: rest) = some (0, rest)

/-- The example of 41_tree_builder.md R175: the lengths 1, 2, 2 build root → (leaf 0, node → (leaf 1, leaf 2)). -/
def Obligations.LengthsOneTwoTwoBuildTheExampleTree : Prop :=
  ∀ (s : State) (u : TreeSel), 5 ≤ s.params.cap u → s.codeLen 0 = 1 → s.codeLen 1 = 2 → s.codeLen 2 = 2 →
    ∃ t, exec (.tbuild u 3) s = .next t ∧ t.stat = s.stat ∧
      t.slot u 0 = 0x0001 ∧ t.slot u 1 = 0x8000 ∧ t.slot u 2 = 0x0003 ∧ t.slot u 3 = 0x8001 ∧ t.slot u 4 = 0x8002 ∧
      ∀ i, 5 ≤ i → t.slot u i = 0x8000

/-- 41_tree_builder.md R178: in every tree an internal slot's first child lies behind it and its second child is below the
capacity; every step keeps this. -/
def Obligations.StepKeepsTreesInBounds : Prop :=
  ∀ s t : State, step s = .next t → TreesOk s → TreesOk t

/-! ## DECODE -/

/-- 42_tree_decoder.md R202 with R201 and R206: where the walk from the root, one bit of the stream after another, ends in a leaf,
DECODE completes with its symbol, those bits are consumed, no byte is pulled beyond the one that holds the last of them
(40_bitstream.md R143), and only RES and the reader change. Where the bits end inside the walk, EOS is raised and there is no
symbol. -/
def Obligations.DecodeWalksFromTheRoot : Prop :=
  ∀ (s : State) (u : TreeSel), encode (.decode u) = (if u = .ot then 0x61000000 else 0x60000000) ∧
    (∀ x rest, s.symbolBits u s.pendingBits = some (x, rest) →
      ∃ t, exec (.decode u) s = .next t ∧ t.res = x.setWidth 16 ∧ t.pendingBits = rest ∧
        (rest ≠ s.pendingBits ∨ ReaderLazy s → ReaderLazy t) ∧ OnlyReaderMoved { s with res := t.res } t) ∧
    (ReaderOk s → s.symbolBits u s.pendingBits = none → ∃ t, exec (.decode u) s = .next t ∧ EndsAtEos s t)

/-- 42_tree_decoder.md R203, first sentence: on trees in bounds a walk that ends in a leaf reads at most CAP_t − 1 bits. -/
def Obligations.WalkReadsFewerBitsThanTheCapacity : Prop :=
  ∀ (s : State) (u : TreeSel) (x : Symbol) (bits rest : List Bool), s.params.wf = true → TreesOk s →
    s.symbolBits u bits = some (x, rest) → bits.length + 1 ≤ rest.length + s.params.cap u

/-! ## The ring and emission -/

/-- 43_ring_buffer.md R221 and R223: RPUSH writes at the cursor, moves it on modulo 8192, and does nothing else: no output, no
count. -/
def Obligations.RpushWritesAtTheCursor : Prop :=
  ∀ (s : State) (b : Byte), encode (.rpush b) = 0x70000000 ||| b.setWidth 32 ∧
    ∃ t, exec (.rpush b) s = .next t ∧
      (∀ i, t.ringAt i = if i = s.rbWp.toNat then b else s.ringAt i) ∧
      t.rbWp.toNat = (s.rbWp.toNat + 1) % 8192 ∧ t = { s with ring := t.ring, rbWp := t.rbWp }

/-- 43_ring_buffer.md R224 with R222: RREAD gives the byte of the slot from which DIST places, modulo 8192, lead to the cursor,
for every distance, and changes RES only. -/
def Obligations.RreadReadsBehindTheCursor : Prop :=
  ∀ (s : State) (k : BitVec 16), encode (.rread k) = 0x80000000 ||| k.setWidth 32 ∧
    ∃ i < 8192, (i + k.toNat) % 8192 = s.rbWp.toNat ∧
      exec (.rread k) s = .next { s with res := (s.ringAt i).setWidth 16 }

/-- 43_ring_buffer.md R227: after INIT and commands that push p_0 … p_{N−1}, by RPUSH, LIT, COPY or PRODUCE and with any other
commands between, RREAD of k in 1..8192 gives p_{N−k}, or RING_FILL where N < k; RREAD of 0 gives what RREAD of 8192 gives. RPUSH
of a list of bytes pushes that list. -/
def Obligations.HistoryReadsBackThePushes : Prop :=
  ∀ (s s0 : State) (l : List Instr), exec .init s = .next s0 → .init ∉ l → ∃ t, execAll l s0 = .next t ∧
    (∀ k : Nat, 1 ≤ k → k ≤ 8192 → exec (.rread (BitVec.ofNat 16 k)) t =
      .next { t with res := BitVec.setWidth 16 (if k ≤ (pushedBytes l s0).length
        then (pushedBytes l s0).getD ((pushedBytes l s0).length - k) 0 else s.params.ringFill) }) ∧
    exec (.rread 0) t = exec (.rread 8192) t ∧
    (∀ ps : List Byte, l = ps.map .rpush → pushedBytes l s0 = ps)

/-- 44_variant_rebuild.md R242 with R241: LIT pushes its byte, appends it to the output, takes one from the countdown (not below
−2^31), sets RES to 1, and does nothing else; no rebuild event runs (R258). -/
def Obligations.LitEmitsItsByte : Prop :=
  ∀ (s : State) (b : Byte), encode (.lit b) = 0x90000000 ||| b.setWidth 32 ∧
    ∃ t, exec (.lit b) s = .next t ∧ t.out = s.out ++ [b] ∧
      (∀ i, t.ringAt i = if i = s.rbWp.toNat then b else s.ringAt i) ∧
      t.rbWp.toNat = (s.rbWp.toNat + 1) % 8192 ∧ t.rcCount.toInt = max (s.rcCount.toInt - 1) (-2147483648) ∧
      t.res = 1 ∧ OnlyEmitted { s with res := 1 } t

/-- 44_variant_rebuild.md R243 with R244: COPY emits LEN bytes. With e the distance in 1..8192 that reads as DIST, byte j is the
one e − (j mod e) behind the cursor where the copy began, so a copy longer than its distance repeats the last e bytes. They are
appended to the output, pushed and counted; RES is LEN; nothing else changes and no rebuild event runs (R258). -/
def Obligations.CopyEmitsAndRepeats : Prop :=
  ∀ (s : State) (len : BitVec 12) (d : BitVec 16),
    encode (.copy len d) = 0xA0000000 ||| len.setWidth 32 <<< 16 ||| d.setWidth 32 ∧ ∃ t, exec (.copy len d) s = .next t ∧
    (∀ e : Nat, 1 ≤ e → e ≤ 8192 → e % 8192 = d.toNat % 8192 →
      t.out = s.out ++ (List.range len.toNat).map (fun j => ringRead (BitVec.ofNat 16 (e - j % e)) s)) ∧
    t.out.length = s.out.length + len.toNat ∧
    (∀ k : Nat, 1 ≤ k → k ≤ len.toNat →
      ringRead (BitVec.ofNat 16 k) t = t.out.getD (t.out.length - k) 0) ∧
    (∀ k : Nat, len.toNat < k → k ≤ 8192 →
      ringRead (BitVec.ofNat 16 k) t = ringRead (BitVec.ofNat 16 (k - len.toNat)) s) ∧
    t.rbWp.toNat = (s.rbWp.toNat + len.toNat) % 8192 ∧
    t.rcCount.toInt = max (s.rcCount.toInt - len.toNat) (-2147483648) ∧
    t.res.toNat = len.toNat ∧ OnlyEmitted { s with res := t.res } t

/-! ## The rebuild controller -/

/-- 41_tree_builder.md R177: reading a tree takes its header off the stream; `Single` makes a single leaf, as TSINGLE does;
`Lengths` are written into CLT[0..nsym−1] and the tree is built from them, as TBUILD does; a header cut short writes neither
the tree nor CLT. `m` is the state once the header has been read. -/
def Obligations.ReadTreeBuildsWhatTheHeaderSays : Prop :=
  ∀ (s : State) (u : TreeSel) (n : Nat), s.params.wf = true → n ≤ s.params.cltMax →
    (∀ (h : Header n) (rest : List Bool), progBits (treeHeader s.params u n) s.pendingBits = some (h, rest) →
      ∃ m t, readTree u n s = .ok () t ∧ OnlyReaderMoved s m ∧ m.pendingBits = rest ∧
        match h with
        | .single x => exec (.tsingle u x) m = .next t
        | .lengths l => (∀ i, t.codeLen i = if i < n then l.toList.getD i 0 else s.codeLen i) ∧
            exec (.tbuild u (BitVec.ofNat 12 n)) { m with clt := t.clt } = .next t) ∧
    (progBits (treeHeader s.params u n) s.pendingBits = none → ∃ t, readTree u n s = .eos t ∧ OnlyReaderMoved s t)

/-- 44_variant_rebuild.md R254: with RC_COUNT > 0 REBUILD reads nothing and gives RES = 0. -/
def Obligations.RebuildNotDueGivesZero : Prop :=
  ∀ s : State, 0 < s.rcCount.toInt → exec .rebuild s = .next { s with res := 0 }

/-- 44_variant_rebuild.md R247 with R252: the Unbuilt event reads the code tree and then the 5-entry offset tree and gives Build1
with countdown 1024. `applyHeader` is what ReadTree does with a header. -/
def Obligations.UnbuiltEventReadsBothTrees : Prop :=
  ∀ (s : State) (hc : Header s.params.codeSyms) (ho : Header 5) (r1 r2 : List Bool),
    s.rcPhase = .unbuilt → s.rcCount.toInt ≤ 0 →
    progBits (treeHeader s.params .ct s.params.codeSyms) s.pendingBits = some (hc, r1) →
    progBits (treeHeader s.params .ot 5) r1 = some (ho, r2) →
    ∃ t, exec .rebuild s = .next t ∧ t.pendingBits = r2 ∧
      EventDone s (applyHeader .ot 5 ho (applyHeader .ct s.params.codeSyms hc s)) t .build1 1024

/-- 44_variant_rebuild.md R248 and R249 with R252: the Build1 event reads the 6-entry offset tree only and gives Build2 with
countdown 1024; the Build2 event reads the 7-entry offset tree only and gives Build3 with countdown 2048. The code tree is
kept. -/
def Obligations.BuildEventsReadTheOffsetTreeOnly : Prop :=
  ∀ (s : State) (rest : List Bool), s.rcCount.toInt ≤ 0 →
    (∀ h : Header 6, s.rcPhase = .build1 → progBits (treeHeader s.params .ot 6) s.pendingBits = some (h, rest) →
      ∃ t, exec .rebuild s = .next t ∧ t.pendingBits = rest ∧ t.ct = s.ct ∧
        EventDone s (applyHeader .ot 6 h s) t .build2 1024) ∧
    (∀ h : Header 7, s.rcPhase = .build2 → progBits (treeHeader s.params .ot 7) s.pendingBits = some (h, rest) →
      ∃ t, exec .rebuild s = .next t ∧ t.pendingBits = rest ∧ t.ct = s.ct ∧
        EventDone s (applyHeader .ot 7 h s) t .build3 2048)

/-- 44_variant_rebuild.md R250 with R252: the Build3 event reads one flag bit, the code tree if it is 1, and then the 8-entry
offset tree whatever the flag; it gives Steady with countdown 4096. -/
def Obligations.Build3EventReadsAFlagAndTheOffsetTree : Prop :=
  ∀ (s : State) (ho : Header 8) (r1 r2 : List Bool), s.rcPhase = .build3 → s.rcCount.toInt ≤ 0 →
    (s.pendingBits = false :: r1 → progBits (treeHeader s.params .ot 8) r1 = some (ho, r2) →
      ∃ t, exec .rebuild s = .next t ∧ t.pendingBits = r2 ∧ t.ct = s.ct ∧
        EventDone s (applyHeader .ot 8 ho s) t .steady 4096) ∧
    (∀ (hc : Header s.params.codeSyms) (r0 : List Bool), s.pendingBits = true :: r0 →
      progBits (treeHeader s.params .ct s.params.codeSyms) r0 = some (hc, r1) →
      progBits (treeHeader s.params .ot 8) r1 = some (ho, r2) →
      ∃ t, exec .rebuild s = .next t ∧ t.pendingBits = r2 ∧
        EventDone s (applyHeader .ot 8 ho (applyHeader .ct s.params.codeSyms hc s)) t .steady 4096)

/-- 44_variant_rebuild.md R251 with R252: the Steady event reads one flag bit; if it is 0 it reads nothing more and both trees
stay, if it is 1 it reads the code tree and then the 8-entry offset tree; it stays in Steady with countdown 4096. -/
def Obligations.SteadyEventReadsBothTreesOrNone : Prop :=
  ∀ (s : State), s.rcPhase = .steady → s.rcCount.toInt ≤ 0 →
    (∀ r, s.pendingBits = false :: r →
      ∃ t, exec .rebuild s = .next t ∧ t.pendingBits = r ∧ t.ct = s.ct ∧ t.ot = s.ot ∧ EventDone s s t .steady 4096) ∧
    (∀ (hc : Header s.params.codeSyms) (ho : Header 8) (r0 r1 r2 : List Bool), s.pendingBits = true :: r0 →
      progBits (treeHeader s.params .ct s.params.codeSyms) r0 = some (hc, r1) →
      progBits (treeHeader s.params .ot 8) r1 = some (ho, r2) →
      ∃ t, exec .rebuild s = .next t ∧ t.pendingBits = r2 ∧
        EventDone s (applyHeader .ot 8 ho (applyHeader .ct s.params.codeSyms hc s)) t .steady 4096)

/-- 44_variant_rebuild.md R253: an event that raises EOS leaves RC_PHASE and RC_COUNT. The offset tree, which every event reads
last, is not written. The code tree, where the event reads one (`r0` are the bits its header is read from), keeps its new content
if its header was whole and is not written if it was cut short; where the event reads none it stays. -/
def Obligations.EventThatMeetsEndOfInputKeepsTheSchedule : Prop :=
  ∀ (s t : State), s.failed = false → exec .rebuild s = .next t → t.failed = true →
    t.rcPhase = s.rcPhase ∧ t.rcCount = s.rcCount ∧ t.res = s.res ∧ statTest .eos t.stat = true ∧ t.ot = s.ot ∧
    (∀ r0, (s.rcPhase = .unbuilt ∧ s.pendingBits = r0) ∨
        ((s.rcPhase = .build3 ∨ s.rcPhase = .steady) ∧ s.pendingBits = true :: r0) →
      match progBits (treeHeader s.params .ct s.params.codeSyms) r0 with
      | some (hc, _) => t.ct = (applyHeader .ct s.params.codeSyms hc s).ct ∧
          t.clt = (applyHeader .ct s.params.codeSyms hc s).clt
      | none => t.ct = s.ct ∧ t.clt = s.clt) ∧
    (s.rcPhase = .build1 ∨ s.rcPhase = .build2 ∨
        ((s.rcPhase = .build3 ∨ s.rcPhase = .steady) ∧ ∀ r0, s.pendingBits ≠ true :: r0) →
      t.ct = s.ct ∧ t.clt = s.clt)

/-- 44_variant_rebuild.md R258: only REBUILD and PRODUCE run an event: every other command but INIT leaves the phase, and the
countdown too unless it is LIT or COPY, which move only what emission moves, and RES. -/
def Obligations.OnlyRebuildAndProduceRunAnEvent : Prop :=
  ∀ (i : Instr) (s t : State), exec i s = .next t → i ≠ .init → i ≠ .rebuild → i ≠ .produce →
    t.rcPhase = s.rcPhase ∧ t.stat.extractLsb' 8 3 = s.stat.extractLsb' 8 3 ∧
    (((∃ b, i = .lit b) ∨ ∃ l d, i = .copy l d) → OnlyEmitted { s with res := t.res } t) ∧
    ((∀ b, i ≠ .lit b) → (∀ l d, i ≠ .copy l d) → t.rcCount = s.rcCount)

/-- 44_variant_rebuild.md R257 under CARRY: RC_COUNT is the next threshold less the bytes emitted since INIT, and the threshold
is the phase's; every step keeps this (while fewer than 2^31 bytes have been emitted, R241). -/
def Obligations.StepKeepsTheRebuildSchedule : Prop :=
  ∀ s t : State, s.params.overshoot = .carry → step s = .next t → ScheduleOk s → ScheduleOk t

/-! ## PRODUCE -/

/-- 44_variant_rebuild.md R255 with no rebuild due: where the bits of the stream give a code symbol and its token, PRODUCE does
what LIT or COPY of that token does, in the state `m` in which only the reader has moved past those bits. -/
def Obligations.ProduceEmitsTheTokenOfTheNextSymbol : Prop :=
  ∀ (s : State) (x : Symbol) (tok : Token s.params.maxCopy) (r1 r2 : List Bool), s.params.wf = true →
    0 < s.rcCount.toInt → s.symbolBits .ct s.pendingBits = some (x, r1) →
    s.tokenBits (pm2Token s.params x) r1 = some (tok, r2) →
    ∃ m t, OnlyReaderMoved s m ∧ m.pendingBits = r2 ∧ exec .produce s = .next t ∧
      match tok with
      | .literal b => exec (.lit b) m = .next t
      | .copy len d => exec (.copy (BitVec.ofNat 12 len.val) d) m = .next t

/-- 44_variant_rebuild.md R255, whole: PRODUCE is REBUILD, and then, where that did not fail, the symbol, the token and its
emission in the state REBUILD left. -/
def Obligations.ProduceIsRebuildThenOneUnit : Prop :=
  ∀ (s r : State) (x : Symbol) (tok : Token s.params.maxCopy) (r1 r2 : List Bool), s.params.wf = true →
    s.failed = false → exec .rebuild s = .next r → r.failed = false → r.symbolBits .ct r.pendingBits = some (x, r1) →
    r.tokenBits (pm2Token s.params x) r1 = some (tok, r2) →
    ∃ m t, OnlyReaderMoved r m ∧ m.pendingBits = r2 ∧ exec .produce s = .next t ∧
      match tok with
      | .literal b => exec (.lit b) m = .next t
      | .copy len d => exec (.copy (BitVec.ofNat 12 len.val) d) m = .next t

/-- 44_variant_rebuild.md R256 and 45_session.md R282: a PRODUCE emits its whole unit, RES bytes of it, and does not fail, or
emits nothing, leaves RES, the ring and its cursor, and sets FAIL and EOS; where REBUILD alone would have failed it leaves the
phase and the countdown too. -/
def Obligations.ProduceEmitsAllOrNothing : Prop :=
  ∀ (s t : State), s.params.wf = true → s.failed = false → exec .produce s = .next t →
    (t.failed = false ∧ (∃ unit, t.out = s.out ++ unit ∧ unit.length = t.res.toNat ∧ unit.length ≤ max 1 s.params.maxCopy)) ∨
    (t.failed = true ∧ statTest .eos t.stat = true ∧ t.out = s.out ∧ t.res = s.res ∧ t.ring = s.ring ∧ t.rbWp = s.rbWp ∧
      (∀ r, exec .rebuild s = .next r → r.failed = true → t.rcPhase = s.rcPhase ∧ t.rcCount = s.rcCount))

/-! ## The whole machine -/

/-- 10_state.md R37, R39 and R42: STAT.PHASE is the encoding of RC_PHASE, the reserved bits are 0, and FAIL is set exactly when
one, and only one, of EOS and ILL is; every step keeps this. -/
def Obligations.StepKeepsStatusConsistent : Prop :=
  ∀ s t : State, step s = .next t → StatusOk s → StatusOk t

/-- Every RAM stays in its canonical form with every index below its size. That no command writes a tree at or beyond its capacity
(20_memory.md R88), CLT at or beyond CLT_MAX, or the ring beyond 8191 (R70, R87) is the spec's; the canonical form (rising
indices, no entry equal to the reset content) is the model's choice (log 12). -/
def Obligations.StepKeepsMemoriesInBounds : Prop :=
  ∀ s t : State, step s = .next t → s.memoryWf = true → t.memoryWf = true

/-- The invariants of the machine hold after reset, for every parameter set: STAT, the reader, the trees and the countdown are as
10_state.md R52 has them. That the RAMs are in canonical form (`memoryWf`) rests on the model's choice of that form (log 12). -/
def Obligations.InvariantsHoldAfterReset : Prop :=
  ∀ p : Params, StatusOk (State.resetWith p) ∧ ReaderOk (State.resetWith p) ∧
    ReaderLazy (State.resetWith p) ∧ TreesOk (State.resetWith p) ∧
    (State.resetWith p).memoryWf = true ∧ ScheduleOk (State.resetWith p)

/-- 10_state.md R37, last sentence: bits 0 to 5 of STAT are sticky: a command other than INIT leaves set what is set. -/
def Obligations.StatusBitsAreSticky : Prop :=
  ∀ (i : Instr) (s t : State) (b : StatBit), i ≠ .init → exec i s = .next t →
    statTest b s.stat = true → statTest b t.stat = true

/-- 10_state.md R36 and 00_scope.md R16: a command that raises a failure leaves RES; and it emits nothing (44_variant_rebuild.md
R256). The schedule stays too, but for a PRODUCE that fails after its rebuild event has run. -/
def Obligations.FailingCommandLeavesResult : Prop :=
  ∀ (i : Instr) (s t : State), s.failed = false → exec i s = .next t → t.failed = true →
    t.res = s.res ∧ t.out = s.out ∧ t.ring = s.ring ∧ t.rbWp = s.rbWp ∧
      (i ≠ .produce → t.rcPhase = s.rcPhase ∧ t.rcCount = s.rcCount)

/-- 60_exceptions.md R308: a command raises at most one failure: from a session that has not failed, EOS and ILL are never both
set by one command word, and a word that sets ILL moves nothing else. -/
def Obligations.OneFailureAtMost : Prop :=
  ∀ (w : Word) (s t : State), StatusOk s → s.failed = false → runCommand w s = .next t → t.failed = true →
    (statTest .eos t.stat = true ∧ statTest .ill t.stat = false) ∨
    (statTest .eos t.stat = false ∧ statTest .ill t.stat = true ∧ t = { s with stat := s.stat ||| 0x0005 })

/-- No step changes a parameter (70_reset_and_hazards.md R332), and none takes an emitted byte back (45_session.md R280; where an
emitted byte stands, `out` or `taken`, is the model's choice, log 6). -/
def Obligations.ParametersAndEmittedBytesStay : Prop :=
  ∀ s t : State, step s = .next t → t.params = s.params ∧ (s.taken ++ s.out) <+: (t.taken ++ t.out)
end

