-- ==== Sys2Proof/Laws/State.lean ====
section
/-! SUPPORT. One lemma per field per update of the state, so that no proof unfolds a record update. -/

namespace Sys2Proof.Machine

/-! ## RES, CLT, RC_PHASE -/

@[simp] theorem State.setRes_params (v : Half) (s : State) : (s.setRes v).params = s.params := rfl
@[simp] theorem State.setRes_inputs (v : Half) (s : State) : (s.setRes v).inputs = s.inputs := rfl
@[simp] theorem State.setRes_src (v : Half) (s : State) : (s.setRes v).src = s.src := rfl
@[simp] theorem State.setRes_connected (v : Half) (s : State) : (s.setRes v).connected = s.connected := rfl
@[simp] theorem State.setRes_out (v : Half) (s : State) : (s.setRes v).out = s.out := rfl
@[simp] theorem State.setRes_taken (v : Half) (s : State) : (s.setRes v).taken = s.taken := rfl
@[simp] theorem State.setRes_res (v : Half) (s : State) : (s.setRes v).res = v := rfl
@[simp] theorem State.setRes_stat (v : Half) (s : State) : (s.setRes v).stat = s.stat := rfl
@[simp] theorem State.setRes_rcPhase (v : Half) (s : State) : (s.setRes v).rcPhase = s.rcPhase := rfl
@[simp] theorem State.setRes_rcCount (v : Half) (s : State) : (s.setRes v).rcCount = s.rcCount := rfl
@[simp] theorem State.setRes_brByte (v : Half) (s : State) : (s.setRes v).brByte = s.brByte := rfl
@[simp] theorem State.setRes_brPos (v : Half) (s : State) : (s.setRes v).brPos = s.brPos := rfl
@[simp] theorem State.setRes_brValid (v : Half) (s : State) : (s.setRes v).brValid = s.brValid := rfl
@[simp] theorem State.setRes_ct (v : Half) (s : State) : (s.setRes v).ct = s.ct := rfl
@[simp] theorem State.setRes_ot (v : Half) (s : State) : (s.setRes v).ot = s.ot := rfl
@[simp] theorem State.setRes_clt (v : Half) (s : State) : (s.setRes v).clt = s.clt := rfl
@[simp] theorem State.setRes_ring (v : Half) (s : State) : (s.setRes v).ring = s.ring := rfl
@[simp] theorem State.setRes_rbWp (v : Half) (s : State) : (s.setRes v).rbWp = s.rbWp := rfl
@[simp] theorem State.setRes_freeCtr (v : Half) (s : State) : (s.setRes v).freeCtr = s.freeCtr := rfl

@[simp] theorem State.setCodeLen_params (i : Nat) (v : Byte) (s : State) : (s.setCodeLen i v).params = s.params := rfl
@[simp] theorem State.setCodeLen_inputs (i : Nat) (v : Byte) (s : State) : (s.setCodeLen i v).inputs = s.inputs := rfl
@[simp] theorem State.setCodeLen_src (i : Nat) (v : Byte) (s : State) : (s.setCodeLen i v).src = s.src := rfl
@[simp] theorem State.setCodeLen_connected (i : Nat) (v : Byte) (s : State) : (s.setCodeLen i v).connected = s.connected := rfl
@[simp] theorem State.setCodeLen_out (i : Nat) (v : Byte) (s : State) : (s.setCodeLen i v).out = s.out := rfl
@[simp] theorem State.setCodeLen_taken (i : Nat) (v : Byte) (s : State) : (s.setCodeLen i v).taken = s.taken := rfl
@[simp] theorem State.setCodeLen_res (i : Nat) (v : Byte) (s : State) : (s.setCodeLen i v).res = s.res := rfl
@[simp] theorem State.setCodeLen_stat (i : Nat) (v : Byte) (s : State) : (s.setCodeLen i v).stat = s.stat := rfl
@[simp] theorem State.setCodeLen_rcPhase (i : Nat) (v : Byte) (s : State) : (s.setCodeLen i v).rcPhase = s.rcPhase := rfl
@[simp] theorem State.setCodeLen_rcCount (i : Nat) (v : Byte) (s : State) : (s.setCodeLen i v).rcCount = s.rcCount := rfl
@[simp] theorem State.setCodeLen_brByte (i : Nat) (v : Byte) (s : State) : (s.setCodeLen i v).brByte = s.brByte := rfl
@[simp] theorem State.setCodeLen_brPos (i : Nat) (v : Byte) (s : State) : (s.setCodeLen i v).brPos = s.brPos := rfl
@[simp] theorem State.setCodeLen_brValid (i : Nat) (v : Byte) (s : State) : (s.setCodeLen i v).brValid = s.brValid := rfl
@[simp] theorem State.setCodeLen_ct (i : Nat) (v : Byte) (s : State) : (s.setCodeLen i v).ct = s.ct := rfl
@[simp] theorem State.setCodeLen_ot (i : Nat) (v : Byte) (s : State) : (s.setCodeLen i v).ot = s.ot := rfl
@[simp] theorem State.setCodeLen_clt (i : Nat) (v : Byte) (s : State) : (s.setCodeLen i v).clt = Memory.write 0 s.clt i v := rfl
@[simp] theorem State.setCodeLen_ring (i : Nat) (v : Byte) (s : State) : (s.setCodeLen i v).ring = s.ring := rfl
@[simp] theorem State.setCodeLen_rbWp (i : Nat) (v : Byte) (s : State) : (s.setCodeLen i v).rbWp = s.rbWp := rfl
@[simp] theorem State.setCodeLen_freeCtr (i : Nat) (v : Byte) (s : State) : (s.setCodeLen i v).freeCtr = s.freeCtr := rfl

@[simp] theorem State.setPhase_params (p : Phase) (s : State) : (s.setPhase p).params = s.params := rfl
@[simp] theorem State.setPhase_inputs (p : Phase) (s : State) : (s.setPhase p).inputs = s.inputs := rfl
@[simp] theorem State.setPhase_src (p : Phase) (s : State) : (s.setPhase p).src = s.src := rfl
@[simp] theorem State.setPhase_connected (p : Phase) (s : State) : (s.setPhase p).connected = s.connected := rfl
@[simp] theorem State.setPhase_out (p : Phase) (s : State) : (s.setPhase p).out = s.out := rfl
@[simp] theorem State.setPhase_taken (p : Phase) (s : State) : (s.setPhase p).taken = s.taken := rfl
@[simp] theorem State.setPhase_res (p : Phase) (s : State) : (s.setPhase p).res = s.res := rfl
@[simp] theorem State.setPhase_stat (p : Phase) (s : State) : (s.setPhase p).stat = statPhase p s.stat := rfl
@[simp] theorem State.setPhase_rcPhase (p : Phase) (s : State) : (s.setPhase p).rcPhase = p := rfl
@[simp] theorem State.setPhase_rcCount (p : Phase) (s : State) : (s.setPhase p).rcCount = s.rcCount := rfl
@[simp] theorem State.setPhase_brByte (p : Phase) (s : State) : (s.setPhase p).brByte = s.brByte := rfl
@[simp] theorem State.setPhase_brPos (p : Phase) (s : State) : (s.setPhase p).brPos = s.brPos := rfl
@[simp] theorem State.setPhase_brValid (p : Phase) (s : State) : (s.setPhase p).brValid = s.brValid := rfl
@[simp] theorem State.setPhase_ct (p : Phase) (s : State) : (s.setPhase p).ct = s.ct := rfl
@[simp] theorem State.setPhase_ot (p : Phase) (s : State) : (s.setPhase p).ot = s.ot := rfl
@[simp] theorem State.setPhase_clt (p : Phase) (s : State) : (s.setPhase p).clt = s.clt := rfl
@[simp] theorem State.setPhase_ring (p : Phase) (s : State) : (s.setPhase p).ring = s.ring := rfl
@[simp] theorem State.setPhase_rbWp (p : Phase) (s : State) : (s.setPhase p).rbWp = s.rbWp := rfl
@[simp] theorem State.setPhase_freeCtr (p : Phase) (s : State) : (s.setPhase p).freeCtr = s.freeCtr := rfl

/-! ## A failure -/

@[simp] theorem State.raise_params (f : Failure) (s : State) : (s.raise f).params = s.params := rfl
@[simp] theorem State.raise_inputs (f : Failure) (s : State) : (s.raise f).inputs = s.inputs := rfl
@[simp] theorem State.raise_src (f : Failure) (s : State) : (s.raise f).src = s.src := rfl
@[simp] theorem State.raise_connected (f : Failure) (s : State) : (s.raise f).connected = s.connected := rfl
@[simp] theorem State.raise_out (f : Failure) (s : State) : (s.raise f).out = s.out := rfl
@[simp] theorem State.raise_taken (f : Failure) (s : State) : (s.raise f).taken = s.taken := rfl
@[simp] theorem State.raise_res (f : Failure) (s : State) : (s.raise f).res = s.res := rfl
@[simp] theorem State.raise_stat (f : Failure) (s : State) : (s.raise f).stat = statSet f.bit (statSet .fail s.stat) := rfl
@[simp] theorem State.raise_rcPhase (f : Failure) (s : State) : (s.raise f).rcPhase = s.rcPhase := rfl
@[simp] theorem State.raise_rcCount (f : Failure) (s : State) : (s.raise f).rcCount = s.rcCount := rfl
@[simp] theorem State.raise_brByte (f : Failure) (s : State) : (s.raise f).brByte = s.brByte := rfl
@[simp] theorem State.raise_brPos (f : Failure) (s : State) : (s.raise f).brPos = s.brPos := rfl
@[simp] theorem State.raise_brValid (f : Failure) (s : State) : (s.raise f).brValid = s.brValid := rfl
@[simp] theorem State.raise_ct (f : Failure) (s : State) : (s.raise f).ct = s.ct := rfl
@[simp] theorem State.raise_ot (f : Failure) (s : State) : (s.raise f).ot = s.ot := rfl
@[simp] theorem State.raise_clt (f : Failure) (s : State) : (s.raise f).clt = s.clt := rfl
@[simp] theorem State.raise_ring (f : Failure) (s : State) : (s.raise f).ring = s.ring := rfl
@[simp] theorem State.raise_rbWp (f : Failure) (s : State) : (s.raise f).rbWp = s.rbWp := rfl
@[simp] theorem State.raise_freeCtr (f : Failure) (s : State) : (s.raise f).freeCtr = s.freeCtr := rfl

/-! ## A new session -/

@[simp] theorem State.newSession_params (s : State) : (s.newSession).params = s.params := rfl
@[simp] theorem State.newSession_inputs (s : State) : (s.newSession).inputs = s.inputs := rfl
@[simp] theorem State.newSession_src (s : State) : (s.newSession).src = s.connected.getD s.src := rfl
@[simp] theorem State.newSession_connected (s : State) : (s.newSession).connected = none := rfl
@[simp] theorem State.newSession_out (s : State) : (s.newSession).out = [] := rfl
@[simp] theorem State.newSession_taken (s : State) : (s.newSession).taken = s.taken ++ s.out := rfl
@[simp] theorem State.newSession_res (s : State) : (s.newSession).res = 0 := rfl
@[simp] theorem State.newSession_stat (s : State) : (s.newSession).stat = 0 := rfl
@[simp] theorem State.newSession_rcPhase (s : State) : (s.newSession).rcPhase = .unbuilt := rfl
@[simp] theorem State.newSession_rcCount (s : State) : (s.newSession).rcCount = 0 := rfl
@[simp] theorem State.newSession_brByte (s : State) : (s.newSession).brByte = 0 := rfl
@[simp] theorem State.newSession_brPos (s : State) : (s.newSession).brPos = 0 := rfl
@[simp] theorem State.newSession_brValid (s : State) : (s.newSession).brValid = false := rfl
@[simp] theorem State.newSession_ct (s : State) : (s.newSession).ct = [] := rfl
@[simp] theorem State.newSession_ot (s : State) : (s.newSession).ot = [] := rfl
@[simp] theorem State.newSession_clt (s : State) : (s.newSession).clt = [] := rfl
@[simp] theorem State.newSession_ring (s : State) : (s.newSession).ring = [] := rfl
@[simp] theorem State.newSession_rbWp (s : State) : (s.newSession).rbWp = 0 := rfl
@[simp] theorem State.newSession_freeCtr (s : State) : (s.newSession).freeCtr = s.freeCtr := rfl

/-! ## A tree RAM -/

@[simp] theorem State.setTree_params (t : TreeSel) (m : Memory 16) (s : State) : (s.setTree t m).params = s.params := by cases t <;> rfl
@[simp] theorem State.setTree_inputs (t : TreeSel) (m : Memory 16) (s : State) : (s.setTree t m).inputs = s.inputs := by cases t <;> rfl
@[simp] theorem State.setTree_src (t : TreeSel) (m : Memory 16) (s : State) : (s.setTree t m).src = s.src := by cases t <;> rfl
@[simp] theorem State.setTree_connected (t : TreeSel) (m : Memory 16) (s : State) : (s.setTree t m).connected = s.connected := by cases t <;> rfl
@[simp] theorem State.setTree_out (t : TreeSel) (m : Memory 16) (s : State) : (s.setTree t m).out = s.out := by cases t <;> rfl
@[simp] theorem State.setTree_taken (t : TreeSel) (m : Memory 16) (s : State) : (s.setTree t m).taken = s.taken := by cases t <;> rfl
@[simp] theorem State.setTree_res (t : TreeSel) (m : Memory 16) (s : State) : (s.setTree t m).res = s.res := by cases t <;> rfl
@[simp] theorem State.setTree_stat (t : TreeSel) (m : Memory 16) (s : State) : (s.setTree t m).stat = s.stat := by cases t <;> rfl
@[simp] theorem State.setTree_rcPhase (t : TreeSel) (m : Memory 16) (s : State) : (s.setTree t m).rcPhase = s.rcPhase := by cases t <;> rfl
@[simp] theorem State.setTree_rcCount (t : TreeSel) (m : Memory 16) (s : State) : (s.setTree t m).rcCount = s.rcCount := by cases t <;> rfl
@[simp] theorem State.setTree_brByte (t : TreeSel) (m : Memory 16) (s : State) : (s.setTree t m).brByte = s.brByte := by cases t <;> rfl
@[simp] theorem State.setTree_brPos (t : TreeSel) (m : Memory 16) (s : State) : (s.setTree t m).brPos = s.brPos := by cases t <;> rfl
@[simp] theorem State.setTree_brValid (t : TreeSel) (m : Memory 16) (s : State) : (s.setTree t m).brValid = s.brValid := by cases t <;> rfl
@[simp] theorem State.setTree_clt (t : TreeSel) (m : Memory 16) (s : State) : (s.setTree t m).clt = s.clt := by cases t <;> rfl
@[simp] theorem State.setTree_ring (t : TreeSel) (m : Memory 16) (s : State) : (s.setTree t m).ring = s.ring := by cases t <;> rfl
@[simp] theorem State.setTree_rbWp (t : TreeSel) (m : Memory 16) (s : State) : (s.setTree t m).rbWp = s.rbWp := by cases t <;> rfl
@[simp] theorem State.setTree_freeCtr (t : TreeSel) (m : Memory 16) (s : State) : (s.setTree t m).freeCtr = s.freeCtr := by cases t <;> rfl
@[simp] theorem State.setTree_tree_same (t : TreeSel) (m : Memory 16) (s : State) : (s.setTree t m).tree t = m := by
  cases t <;> rfl
theorem State.setTree_tree (t u : TreeSel) (m : Memory 16) (s : State) :
    (s.setTree t m).tree u = if u = t then m else s.tree u := by cases t <;> cases u <;> rfl
theorem State.slot_of_tree {s s' : State} {t : TreeSel} (hp : s'.params = s.params) (ht : s'.tree t = s.tree t) :
    s'.slot t = s.slot t := by funext i; simp [State.slot, hp, ht]

/-! ## The ring and an emission -/

@[simp] theorem ringPush_params (b : Byte) (s : State) : (ringPush b s).params = s.params := rfl
@[simp] theorem ringPush_inputs (b : Byte) (s : State) : (ringPush b s).inputs = s.inputs := rfl
@[simp] theorem ringPush_src (b : Byte) (s : State) : (ringPush b s).src = s.src := rfl
@[simp] theorem ringPush_connected (b : Byte) (s : State) : (ringPush b s).connected = s.connected := rfl
@[simp] theorem ringPush_out (b : Byte) (s : State) : (ringPush b s).out = s.out := rfl
@[simp] theorem ringPush_taken (b : Byte) (s : State) : (ringPush b s).taken = s.taken := rfl
@[simp] theorem ringPush_res (b : Byte) (s : State) : (ringPush b s).res = s.res := rfl
@[simp] theorem ringPush_stat (b : Byte) (s : State) : (ringPush b s).stat = s.stat := rfl
@[simp] theorem ringPush_rcPhase (b : Byte) (s : State) : (ringPush b s).rcPhase = s.rcPhase := rfl
@[simp] theorem ringPush_rcCount (b : Byte) (s : State) : (ringPush b s).rcCount = s.rcCount := rfl
@[simp] theorem ringPush_brByte (b : Byte) (s : State) : (ringPush b s).brByte = s.brByte := rfl
@[simp] theorem ringPush_brPos (b : Byte) (s : State) : (ringPush b s).brPos = s.brPos := rfl
@[simp] theorem ringPush_brValid (b : Byte) (s : State) : (ringPush b s).brValid = s.brValid := rfl
@[simp] theorem ringPush_ct (b : Byte) (s : State) : (ringPush b s).ct = s.ct := rfl
@[simp] theorem ringPush_ot (b : Byte) (s : State) : (ringPush b s).ot = s.ot := rfl
@[simp] theorem ringPush_clt (b : Byte) (s : State) : (ringPush b s).clt = s.clt := rfl
@[simp] theorem ringPush_ring (b : Byte) (s : State) : (ringPush b s).ring = Memory.write s.params.ringFill s.ring s.rbWp.toNat b := rfl
@[simp] theorem ringPush_rbWp (b : Byte) (s : State) : (ringPush b s).rbWp = s.rbWp + 1 := rfl
@[simp] theorem ringPush_freeCtr (b : Byte) (s : State) : (ringPush b s).freeCtr = s.freeCtr := rfl

/-! ## A failure -/

/-- ILL sets STAT.FAIL and STAT.ILL (60_exceptions.md R303). -/
theorem State.raise_ill (s : State) : s.raise .ill = { s with stat := s.stat ||| 0x0005 } := by
  have h : statSet .ill (statSet .fail s.stat) = s.stat ||| 0x0005 := by rw [statSet, statSet, BitVec.or_assoc]; rfl
  rw [State.raise, ← h]; rfl

/-- EOS sets STAT.FAIL and STAT.EOS (60_exceptions.md R302). -/
theorem State.raise_eos (s : State) : s.raise .eos = { s with stat := s.stat ||| 0x0003 } := by
  have h : statSet .eos (statSet .fail s.stat) = s.stat ||| 0x0003 := by rw [statSet, statSet, BitVec.or_assoc]; rfl
  rw [State.raise, ← h]; rfl

end Sys2Proof.Machine
end

