-- ==== Sys2Proof/Laws/Bits.lean ====
section
/-! SUPPORT. The bit-stream reader against the list of the bits it can still read: what ReadBit and ReadBits answer. -/

namespace Sys2Proof.Machine

/-! ## Only the reader moved -/

theorem OnlyReaderMoved.refl (s : State) : OnlyReaderMoved s s := rfl

theorem OnlyReaderMoved.trans {s t u : State} (h : OnlyReaderMoved s t) (h' : OnlyReaderMoved t u) :
    OnlyReaderMoved s u := by
  unfold OnlyReaderMoved at *
  rw [h'.trans (congrArg (fun x : State => { x with src := u.src, brByte := u.brByte, brPos := u.brPos, brValid := u.brValid }) h)]

theorem OnlyReaderMoved.params_eq {s t : State} (h : OnlyReaderMoved s t) : t.params = s.params := by
  rw [OnlyReaderMoved] at h; rw [h]
theorem OnlyReaderMoved.inputs_eq {s t : State} (h : OnlyReaderMoved s t) : t.inputs = s.inputs := by
  rw [OnlyReaderMoved] at h; rw [h]
theorem OnlyReaderMoved.connected_eq {s t : State} (h : OnlyReaderMoved s t) : t.connected = s.connected := by
  rw [OnlyReaderMoved] at h; rw [h]
theorem OnlyReaderMoved.out_eq {s t : State} (h : OnlyReaderMoved s t) : t.out = s.out := by
  rw [OnlyReaderMoved] at h; rw [h]
theorem OnlyReaderMoved.taken_eq {s t : State} (h : OnlyReaderMoved s t) : t.taken = s.taken := by
  rw [OnlyReaderMoved] at h; rw [h]
theorem OnlyReaderMoved.res_eq {s t : State} (h : OnlyReaderMoved s t) : t.res = s.res := by
  rw [OnlyReaderMoved] at h; rw [h]
theorem OnlyReaderMoved.stat_eq {s t : State} (h : OnlyReaderMoved s t) : t.stat = s.stat := by
  rw [OnlyReaderMoved] at h; rw [h]
theorem OnlyReaderMoved.rcPhase_eq {s t : State} (h : OnlyReaderMoved s t) : t.rcPhase = s.rcPhase := by
  rw [OnlyReaderMoved] at h; rw [h]
theorem OnlyReaderMoved.rcCount_eq {s t : State} (h : OnlyReaderMoved s t) : t.rcCount = s.rcCount := by
  rw [OnlyReaderMoved] at h; rw [h]
theorem OnlyReaderMoved.ct_eq {s t : State} (h : OnlyReaderMoved s t) : t.ct = s.ct := by
  rw [OnlyReaderMoved] at h; rw [h]
theorem OnlyReaderMoved.ot_eq {s t : State} (h : OnlyReaderMoved s t) : t.ot = s.ot := by
  rw [OnlyReaderMoved] at h; rw [h]
theorem OnlyReaderMoved.clt_eq {s t : State} (h : OnlyReaderMoved s t) : t.clt = s.clt := by
  rw [OnlyReaderMoved] at h; rw [h]
theorem OnlyReaderMoved.ring_eq {s t : State} (h : OnlyReaderMoved s t) : t.ring = s.ring := by
  rw [OnlyReaderMoved] at h; rw [h]
theorem OnlyReaderMoved.rbWp_eq {s t : State} (h : OnlyReaderMoved s t) : t.rbWp = s.rbWp := by
  rw [OnlyReaderMoved] at h; rw [h]
theorem OnlyReaderMoved.freeCtr_eq {s t : State} (h : OnlyReaderMoved s t) : t.freeCtr = s.freeCtr := by
  rw [OnlyReaderMoved] at h; rw [h]

theorem OnlyReaderMoved.slot_eq {s t : State} (h : OnlyReaderMoved s t) (u : TreeSel) : t.slot u = s.slot u :=
  State.slot_of_tree h.params_eq (by cases u; exacts [h.ct_eq, h.ot_eq])

/-- The reader's two invariants are kept from `s` to `t`. -/
structure ReaderKept (s t : State) : Prop where
  ok : ReaderOk s → ReaderOk t
  lazy : ReaderLazy s → ReaderLazy t

theorem ReaderLazy.ok {s : State} (h : ReaderLazy s) : ReaderOk s := fun hv => by
  by_contra hp
  rw [h.mpr hp] at hv
  cases hv

/-- A reader that is lazy is so wherever it came from. -/
theorem ReaderLazy.kept {t : State} (h : ReaderLazy t) (s : State) : ReaderKept s t := ⟨fun _ => h.ok, fun _ => h⟩

theorem ReaderKept.refl (s : State) : ReaderKept s s := ⟨id, id⟩

theorem ReaderKept.trans {s t u : State} (h : ReaderKept s t) (h' : ReaderKept t u) : ReaderKept s u :=
  ⟨fun hs => h'.ok (h.ok hs), fun hs => h'.lazy (h.lazy hs)⟩

/-- Where BR_POS and BR_VALID stay, the invariants do. -/
theorem ReaderKept.of_eq {s t : State} (hv : t.brValid = s.brValid) (hp : t.brPos = s.brPos) : ReaderKept s t := by
  refine ⟨fun h => ?_, fun h => ?_⟩
  · rw [ReaderOk, hv, hp]; exact h
  · rw [ReaderLazy, hv, hp]; exact h

/-! ## Bits of bytes -/

theorem byteBits_length (b : Byte) : (byteBits b).length = 8 := by simp [byteBits]

theorem byteBits_drop (b : Byte) {p : Nat} (hp : p < 8) :
    (byteBits b).drop p = b.getLsbD (7 - p) :: (byteBits b).drop (p + 1) := by
  rw [List.drop_eq_getElem_cons (by rw [byteBits_length]; exact hp)]
  simp [byteBits]

theorem byteBits_drop_eight (b : Byte) : (byteBits b).drop 8 = [] := by
  rw [List.drop_eq_nil_iff, byteBits_length]

/-! ## ReadBit -/

/-- What consuming a bit of a valid byte does (40_bitstream.md R141). -/
theorem takeBit_spec {s : State} (hv : s.brValid = true) :
    ∃ b s', takeBit s = .ok b s' ∧ s.heldBits = b :: s'.heldBits ∧ OnlyReaderMoved s s' ∧ s'.src = s.src ∧
      ReaderLazy s' ∧ s'.bitBudget + 1 = s.bitBudget := by
  have hlt : s.brPos.toNat < 8 := s.brPos.isLt
  by_cases h7 : s.brPos = 7
  · refine ⟨_, { s with brPos := 0, brValid := false }, by rw [takeBit, if_pos h7], ?_, rfl, rfl, by simp [ReaderLazy], ?_⟩
    · rw [State.heldBits, if_pos hv, byteBits_drop _ hlt]
      simp [State.heldBits, h7, byteBits_drop_eight]
    · simp [State.bitBudget, hv, h7]; omega
  · have hne : s.brPos.toNat ≠ 7 := fun h => h7 (BitVec.eq_of_toNat_eq (by simpa using h))
    have hadd : (s.brPos.toNat + 1) % 8 = s.brPos.toNat + 1 := by omega
    refine ⟨_, { s with brPos := s.brPos + 1 }, if_neg h7, ?_, rfl, rfl, ?_, ?_⟩
    · rw [State.heldBits, if_pos hv, byteBits_drop _ hlt]
      simp [State.heldBits, hv, hadd]
    · refine ⟨fun _ h0 => ?_, fun _ => hv⟩
      have := congrArg BitVec.toNat h0
      simp [hadd] at this
    · simp [State.bitBudget, hv, hadd]; omega

theorem pendingBits_of_invalid {s : State} (hv : s.brValid = false) : s.pendingBits = answerBits s.src := by
  simp [State.pendingBits, State.heldBits, hv]

/-- ReadBit with a bit to read: it gives that bit and moves only the reader (40_bitstream.md R141, R143). -/
theorem readBit_cons {s : State} {b : Bool} {rest : List Bool} (h : s.pendingBits = b :: rest) :
    ∃ s', readBit s = .ok b s' ∧ s'.pendingBits = rest ∧ OnlyReaderMoved s s' ∧ ReaderLazy s' ∧
      s'.bitBudget + 1 = s.bitBudget := by
  by_cases hv : s.brValid = true
  · obtain ⟨c, s', he, hb, hm, hs, hok, hbud⟩ := takeBit_spec hv
    have h' : c :: (s'.heldBits ++ answerBits s'.src) = b :: rest := by
      rw [← h, State.pendingBits, hb, hs]; rfl
    obtain ⟨rfl, hrest⟩ := List.cons.inj h'
    exact ⟨s', by rw [readBit, if_pos hv, he], hrest, hm, hok, hbud⟩
  · have hv' : s.brValid = false := by simpa using hv
    rw [pendingBits_of_invalid hv'] at h
    cases hsrc : s.src with
    | nil => simp [hsrc, answerBits] at h
    | cons a more =>
      cases a with
      | eof => simp [hsrc, answerBits] at h
      | byte x =>
        obtain ⟨c, s', he, hb, hm, hs, hok, hbud⟩ :=
          takeBit_spec (s := { s with src := more, brByte := x, brPos := 0, brValid := true }) rfl
        have hheld : State.heldBits { s with src := more, brByte := x, brPos := 0, brValid := true } = byteBits x := by
          simp [State.heldBits]
        rw [hheld] at hb
        have h' : c :: (s'.heldBits ++ answerBits s'.src) = b :: rest := by
          rw [← h, hsrc, answerBits, hb, hs]; rfl
        obtain ⟨rfl, hrest⟩ := List.cons.inj h'
        refine ⟨s', ?_, hrest, OnlyReaderMoved.trans (t := { s with src := more, brByte := x, brPos := 0, brValid := true }) rfl hm, hok, ?_⟩
        · rw [readBit, if_neg hv, pull, hsrc]
          exact he
        · rw [hbud]
          simp [State.bitBudget, hv', hsrc]; omega

/-- The state ReadBit leaves at end of input: the answer that said so is used up, nothing else moves (40_bitstream.md R148). -/
theorem readBit_nil {s : State} (h : s.pendingBits = []) :
    s.brValid = false ∧ readBit s = .eos { s with src := s.src.tail } := by
  have hv : s.brValid = false := by
    cases hv : s.brValid with
    | false => rfl
    | true =>
      obtain ⟨b, s', _, hb, _⟩ := takeBit_spec hv
      simp [State.pendingBits, hb] at h
  refine ⟨hv, ?_⟩
  rw [pendingBits_of_invalid hv] at h
  cases hsrc : s.src with
  | nil => simp [readBit, hv, pull, hsrc, Run.bind]; cases s; simp_all
  | cons a more =>
    cases a with
    | eof => simp [readBit, hv, pull, hsrc, Run.bind]
    | byte x =>
      rw [hsrc, answerBits] at h
      have := congrArg List.length h
      simp [byteBits_length] at this

/-- The two outcomes of ReadBit. -/
theorem readBit_cases (s : State) :
    (∃ b rest s', s.pendingBits = b :: rest ∧ readBit s = .ok b s' ∧ s'.pendingBits = rest ∧ OnlyReaderMoved s s' ∧
      ReaderLazy s' ∧ s'.bitBudget + 1 = s.bitBudget) ∨
    (s.pendingBits = [] ∧ s.brValid = false ∧ readBit s = .eos { s with src := s.src.tail }) := by
  cases h : s.pendingBits with
  | nil => exact .inr ⟨rfl, readBit_nil h⟩
  | cons b rest =>
    obtain ⟨s', h1, h2, h3, h4, h5⟩ := readBit_cons h
    exact .inl ⟨b, rest, s', rfl, h1, h2, h3, h4, h5⟩

/-- The bits that can be read are no more than the budget. -/
theorem pendingBits_length_le (s : State) : s.pendingBits.length ≤ s.bitBudget := by
  have hans : ∀ l : List SrcAnswer, (answerBits l).length ≤ 8 * l.length := by
    intro l
    induction l with
    | nil => simp [answerBits]
    | cons a l ih => cases a <;> simp [answerBits, byteBits_length]; omega
  have := hans s.src
  rw [State.pendingBits, List.length_append, State.bitBudget, State.heldBits]
  cases s.brValid <;> simp [byteBits_length] <;> omega

/-! ## ReadBits -/

/-- A value of 16 bits with `l` shifted in, the first bit first. -/
def shiftIn (v : Half) (l : List Bool) : Half :=
  l.foldl (fun v b => (v <<< 1) ||| (BitVec.ofBool b).setWidth 16) v

/-- ReadBits with enough bits: the value shifted in, the bits gone (40_bitstream.md R142). -/
theorem readBitsInto_ok (n : Nat) (v : Half) (s : State) (h : n ≤ s.pendingBits.length) :
    ∃ s', readBitsInto n v s = .ok (shiftIn v (s.pendingBits.take n)) s' ∧ s'.pendingBits = s.pendingBits.drop n ∧
      OnlyReaderMoved s s' ∧ (n ≠ 0 ∨ ReaderLazy s → ReaderLazy s') := by
  induction n generalizing v s with
  | zero => exact ⟨s, rfl, rfl, rfl, fun h => h.resolve_left (fun h => h rfl)⟩
  | succ k ih =>
    obtain ⟨b, rest, s1, hp, he, hp1, hm, hok, -⟩ | ⟨hp, -⟩ := readBit_cases s
    · rw [hp] at h
      obtain ⟨s', h1, h2, h3, h4⟩ := ih ((v <<< 1) ||| (BitVec.ofBool b).setWidth 16) s1 (by rw [hp1]; simpa using h)
      refine ⟨s', ?_, ?_, hm.trans h3, fun _ => h4 (.inr hok)⟩
      · rw [readBitsInto, he]
        simp only [h1, hp1, hp, List.take_succ_cons, shiftIn, List.foldl_cons]
      · rw [h2, hp1, hp]; rfl
    · simp [hp] at h

/-- ReadBits with too few bits: end of input, all the bits gone (40_bitstream.md R145, R148). -/
theorem readBitsInto_eos (n : Nat) (v : Half) (s : State) (h : s.pendingBits.length < n) (hr : ReaderOk s) :
    ∃ s', readBitsInto n v s = .eos s' ∧ s'.brValid = false ∧ s'.brPos = 0 ∧ OnlyReaderMoved s s' := by
  induction n generalizing v s with
  | zero => simp at h
  | succ k ih =>
    obtain ⟨b, rest, s1, hp, he, hp1, hm, hok, -⟩ | ⟨hp, hv, he⟩ := readBit_cases s
    · obtain ⟨s', h1, h2, h3, h4⟩ := ih ((v <<< 1) ||| (BitVec.ofBool b).setWidth 16) s1
        (by rw [hp1]; rw [hp] at h; simpa using h) hok.ok
      exact ⟨s', by rw [readBitsInto, he]; exact h1, h2, h3, hm.trans h4⟩
    · exact ⟨{ s with src := s.src.tail }, by rw [readBitsInto, he], hv, hr hv, rfl⟩

/-- Shifting a bit in is doubling and adding, in 16 bits. -/
theorem shiftIn_toNat (l : List Bool) (v : Half) :
    (shiftIn v l).toNat = l.foldl (fun n b => 2 * n + b.toNat) v.toNat % 2 ^ 16 := by
  induction l generalizing v with
  | nil => simp [shiftIn, Nat.mod_eq_of_lt v.isLt]
  | cons b l ih =>
    have hstep : ((v <<< 1) ||| (BitVec.ofBool b).setWidth 16 : Half) = BitVec.ofNat 16 (2 * v.toNat + b.toNat) := by
      have hor : ((v <<< 1) ||| (BitVec.ofBool b).setWidth 16 : Half) = (v <<< 1) + (BitVec.ofBool b).setWidth 16 := by
        refine (BitVec.add_eq_or_of_and_eq_zero _ _ ?_).symm
        ext i hi
        by_cases h0 : i = 0
        · subst h0; simp
        · cases b <;> simp [h0]
      rw [hor]
      apply BitVec.eq_of_toNat_eq
      cases b <;> simp [BitVec.toNat_add, BitVec.toNat_shiftLeft, Nat.shiftLeft_eq] <;> omega
    have hcong : ∀ (l : List Bool) (a c : Nat), a % 65536 = c % 65536 →
        l.foldl (fun n b => 2 * n + b.toNat) a % 65536 = l.foldl (fun n b => 2 * n + b.toNat) c % 65536 := by
      intro l
      induction l with
      | nil => intro a c h; simpa using h
      | cons x l ihl => intro a c h; rw [List.foldl_cons, List.foldl_cons]; exact ihl _ _ (by omega)
    have hcons : shiftIn v (b :: l) = shiftIn ((v <<< 1) ||| (BitVec.ofBool b).setWidth 16) l := rfl
    rw [hcons, ih, hstep, List.foldl_cons]
    exact hcong l _ _ (by simp)

/-- The value of RDBITS is the value of its bits (40_bitstream.md R142). -/
theorem shiftIn_zero (l : List Bool) : shiftIn 0 l = BitVec.ofNat 16 (bitsValue l) := by
  apply BitVec.eq_of_toNat_eq
  rw [shiftIn_toNat]
  simp [bitsValue]

end Sys2Proof.Machine
end

