-- ==== Sys2Proof/Laws/Flags.lean ====
section
/-! SUPPORT. STAT: what setting a bit and replacing PHASE do to each bit and each field of it. -/

namespace Sys2Proof.Machine

theorem StatBit.pos_lt (b : StatBit) : b.pos < 6 := by cases b <;> decide

theorem StatBit.pos_inj {b c : StatBit} (h : b.pos = c.pos) : b = c := by
  cases b <;> cases c <;> first | rfl | (exact absurd h (by decide))

theorem getLsbD_statSet (b : StatBit) (v : Half) (i : Nat) :
    (statSet b v).getLsbD i = (v.getLsbD i || decide (i = b.pos)) := by
  have hb := b.pos_lt
  simp only [statSet, BitVec.getLsbD_or, BitVec.getLsbD_shiftLeft]
  by_cases h : i = b.pos
  · subst h
    simp [show b.pos < 16 by omega]
  · rcases Nat.lt_or_ge i b.pos with hlt | hge
    · simp [h, hlt]
    · have : i - b.pos ≠ 0 := by omega
      simp [h, this, BitVec.getLsbD_one]

@[simp] theorem statTest_statSet (b c : StatBit) (v : Half) :
    statTest c (statSet b v) = (statTest c v || decide (c = b)) := by
  rw [statTest, getLsbD_statSet, statTest]
  congr 1
  exact decide_eq_decide.mpr ⟨StatBit.pos_inj, fun h => h ▸ rfl⟩

@[simp] theorem statTest_statSetIf (e : Bool) (b c : StatBit) (v : Half) :
    statTest c (statSetIf e b v) = (statTest c v || (e && decide (c = b))) := by
  cases e <;> simp [statSetIf]

theorem extract_statSet (b : StatBit) (v : Half) {lo len : Nat} (h : 6 ≤ lo) :
    (statSet b v).extractLsb' lo len = v.extractLsb' lo len := by
  have hb := b.pos_lt
  ext i hi
  have : lo + i ≠ b.pos := by omega
  simp [BitVec.getElem_extractLsb', getLsbD_statSet, this]

theorem extract_statSetIf (e : Bool) (b : StatBit) (v : Half) {lo len : Nat} (h : 6 ≤ lo) :
    (statSetIf e b v).extractLsb' lo len = v.extractLsb' lo len := by
  cases e
  · rfl
  · exact extract_statSet b v h

theorem getLsbD_statPhase (p : Phase) (v : Half) (i : Nat) :
    (statPhase p v).getLsbD i =
      if 8 ≤ i ∧ i < 11 then p.code.getLsbD (i - 8) else v.getLsbD i := by
  by_cases hi : i < 16
  · rw [statPhase]
    have hmask : ∀ j < 16, (0xF8FF#16).getLsbD j = !(decide (8 ≤ j) && decide (j < 11)) := by decide
    simp only [BitVec.getLsbD_or, BitVec.getLsbD_and, hmask i hi, BitVec.getLsbD_shiftLeft, BitVec.getLsbD_setWidth]
    by_cases h8 : 8 ≤ i
    · by_cases h11 : i < 11
      · simp [h8, h11, hi, show i - 8 < 16 by omega, show ¬ i < 8 by omega]
      · have : p.code.getLsbD (i - 8) = false := BitVec.getLsbD_of_ge _ _ (by omega)
        simp [h8, h11, this]
    · simp [h8, show i < 8 by omega]
  · rw [BitVec.getLsbD_of_ge _ _ (by omega), if_neg (by omega), BitVec.getLsbD_of_ge _ _ (by omega)]

@[simp] theorem statTest_statPhase (p : Phase) (b : StatBit) (v : Half) :
    statTest b (statPhase p v) = statTest b v := by
  have hb := b.pos_lt
  rw [statTest, getLsbD_statPhase, if_neg (by omega), statTest]

theorem extract_statPhase_phase (p : Phase) (v : Half) : (statPhase p v).extractLsb' 8 3 = p.code := by
  ext i hi
  simp [BitVec.getElem_extractLsb', getLsbD_statPhase, show 8 + i < 11 by omega, BitVec.getLsbD_eq_getElem hi]

theorem extract_statPhase_other (p : Phase) (v : Half) {lo len : Nat} (h : lo + len ≤ 8 ∨ 11 ≤ lo) :
    (statPhase p v).extractLsb' lo len = v.extractLsb' lo len := by
  ext i hi
  simp [BitVec.getElem_extractLsb', getLsbD_statPhase, show ¬ (8 ≤ lo + i ∧ lo + i < 11) by omega]

end Sys2Proof.Machine
end

