-- ==== Sys2Proof/Laws/Memory.lean ====
section
/-! SUPPORT. The RAMs: reads after writes, the canonical form, and equality of RAMs that read alike. -/

namespace Sys2Proof.Machine.Memory

variable {w : Nat} {d : BitVec w}

@[simp] theorem read_nil (a : Nat) : read d [] a = d := rfl

theorem read_cons (k : Nat) (v : BitVec w) (m : Memory w) (a : Nat) :
    read d ((k, v) :: m) a = if k = a then v else read d m a := rfl

theorem read_erase_same (m : Memory w) (a : Nat) : read d (erase m a) a = d := by
  induction m with
  | nil => rfl
  | cons e m ih =>
    obtain ⟨k, v⟩ := e
    by_cases h : k = a <;> simp [erase, read_cons, h, ih]

theorem read_erase_other (m : Memory w) {a b : Nat} (hab : a ≠ b) : read d (erase m a) b = read d m b := by
  induction m with
  | nil => rfl
  | cons e m ih =>
    obtain ⟨k, v⟩ := e
    by_cases h : k = a
    · simp [erase, read_cons, h, hab, ih]
    · simp [erase, read_cons, h, ih]

theorem read_place_same (m : Memory w) (a : Nat) (v : BitVec w) : read d (place (erase m a) a v) a = v := by
  induction m with
  | nil => simp [erase, place, read_cons]
  | cons e m ih =>
    obtain ⟨k, u⟩ := e
    by_cases h : k = a
    · simp [erase, h, ih]
    · by_cases hk : a < k <;> simp [erase, place, h, hk, read_cons, ih]

theorem read_place_other (m : Memory w) {a b : Nat} (v : BitVec w) (hab : a ≠ b) :
    read d (place m a v) b = read d m b := by
  induction m with
  | nil => simp [place, read_cons, hab]
  | cons e m ih =>
    obtain ⟨k, u⟩ := e
    by_cases hk : a < k <;> simp [place, hk, read_cons, hab, ih]

/-- A read gives the last value written at its index and is not touched by a write elsewhere. -/
theorem read_write (m : Memory w) (a b : Nat) (v : BitVec w) :
    read d (write d m a v) b = if a = b then v else read d m b := by
  by_cases hab : a = b
  · subst hab
    by_cases hv : v = d
    · simp [write, hv, read_erase_same]
    · simp [write, hv, read_place_same]
  · by_cases hv : v = d
    · simp [write, hv, hab, read_erase_other m hab]
    · simp [write, hv, hab, read_place_other _ v hab, read_erase_other m hab]

theorem wfFrom_mono {size lo lo' : Nat} (m : Memory w) (hlo : lo' ≤ lo) (h : wfFrom d size lo m = true) :
    wfFrom d size lo' m = true := by
  cases m with
  | nil => rfl
  | cons e m =>
    obtain ⟨k, v⟩ := e
    simp only [wfFrom, Bool.and_eq_true, decide_eq_true_eq] at h ⊢
    exact ⟨⟨⟨by omega, h.1.1.2⟩, h.1.2⟩, h.2⟩

theorem wfFrom_erase {size : Nat} (m : Memory w) (a : Nat) :
    ∀ {lo : Nat}, wfFrom d size lo m = true → wfFrom d size lo (erase m a) = true := by
  induction m with
  | nil => intro lo _; rfl
  | cons e m ih =>
    intro lo h
    obtain ⟨k, v⟩ := e
    simp only [wfFrom, Bool.and_eq_true, decide_eq_true_eq] at h
    by_cases hk : k = a
    · simp only [erase, hk, if_true]
      exact wfFrom_mono _ (by omega) (ih (lo := k + 1) h.2)
    · simp only [erase, hk, if_false, wfFrom, Bool.and_eq_true, decide_eq_true_eq]
      exact ⟨h.1, ih h.2⟩

theorem wfFrom_place {size : Nat} (m : Memory w) {a : Nat} {v : BitVec w} (ha : a < size) (hv : v ≠ d) :
    ∀ {lo : Nat}, lo ≤ a → wfFrom d size lo m = true → wfFrom d size lo (place (erase m a) a v) = true := by
  induction m with
  | nil => intro lo hlo _; simp [erase, place, wfFrom, hlo, ha, hv]
  | cons e m ih =>
    intro lo hlo h
    obtain ⟨k, u⟩ := e
    have h' := h
    simp only [wfFrom, Bool.and_eq_true, decide_eq_true_eq] at h
    by_cases hk : k = a
    · simp only [erase, hk, if_true]
      exact ih hlo (wfFrom_mono _ (by omega) h.2)
    · by_cases hak : a < k
      · simp only [erase, hk, if_false, place, hak, if_true, wfFrom, Bool.and_eq_true, decide_eq_true_eq]
        exact ⟨⟨⟨hlo, ha⟩, hv⟩, ⟨⟨by omega, h.1.1.2⟩, h.1.2⟩, wfFrom_erase m a h.2⟩
      · simp only [erase, hk, if_false, place, hak, wfFrom, Bool.and_eq_true, decide_eq_true_eq]
        exact ⟨h.1, ih (by omega) h.2⟩

/-- A write below the size keeps the canonical form. -/
theorem write_wf {size : Nat} {m : Memory w} {a : Nat} (v : BitVec w) (ha : a < size) (h : wf d size m = true) :
    wf d size (write d m a v) = true := by
  by_cases hv : v = d
  · simpa [wf, write, hv] using wfFrom_erase m a h
  · simpa [wf, write, hv] using wfFrom_place m ha hv (Nat.zero_le a) h

@[simp] theorem wf_nil (size : Nat) : wf d size [] = true := rfl

theorem read_below {size lo : Nat} (m : Memory w) (h : wfFrom d size lo m = true) {a : Nat} (ha : a < lo) :
    read d m a = d := by
  induction m generalizing lo with
  | nil => rfl
  | cons e m ih =>
    obtain ⟨k, v⟩ := e
    simp only [wfFrom, Bool.and_eq_true, decide_eq_true_eq] at h
    rw [read_cons, if_neg (by omega)]
    exact ih h.2 (by omega)

/-- An index at or above the size reads as the reset content. -/
theorem read_of_wf {size : Nat} {m : Memory w} (h : wf d size m = true) {a : Nat} (ha : size ≤ a) : read d m a = d := by
  suffices ∀ lo, wfFrom d size lo m = true → read d m a = d from this 0 h
  clear h
  induction m with
  | nil => intros; rfl
  | cons e m ih =>
    obtain ⟨k, v⟩ := e
    intro lo h
    simp only [wfFrom, Bool.and_eq_true, decide_eq_true_eq] at h
    rw [read_cons, if_neg (by omega)]
    exact ih _ h.2

theorem ext_from {size : Nat} : ∀ {lo : Nat} (m m' : Memory w), wfFrom d size lo m = true → wfFrom d size lo m' = true →
    (∀ a, read d m a = read d m' a) → m = m' := by
  intro lo m
  induction m generalizing lo with
  | nil =>
    intro m' _ h' hr
    cases m' with
    | nil => rfl
    | cons e m' =>
      obtain ⟨k, v⟩ := e
      simp only [wfFrom, Bool.and_eq_true, decide_eq_true_eq] at h'
      have := hr k
      simp [read_cons] at this
      exact absurd this.symm h'.1.2
  | cons e m ih =>
    intro m' h h' hr
    obtain ⟨k, v⟩ := e
    have hm := h
    simp only [wfFrom, Bool.and_eq_true, decide_eq_true_eq] at h
    cases m' with
    | nil =>
      have := hr k
      simp [read_cons] at this
      exact absurd this h.1.2
    | cons e' m' =>
      obtain ⟨k', v'⟩ := e'
      have hm' := h'
      simp only [wfFrom, Bool.and_eq_true, decide_eq_true_eq] at h'
      have hk : k = k' := by
        rcases Nat.lt_trichotomy k k' with hlt | heq | hgt
        · have := hr k
          rw [read_cons, if_pos rfl, read_cons, if_neg (by omega), read_below m' h'.2 (by omega)] at this
          exact absurd this h.1.2
        · exact heq
        · have := hr k'
          rw [read_cons, if_neg (by omega), read_below m h.2 (by omega), read_cons, if_pos rfl] at this
          exact absurd this.symm h'.1.2
      subst hk
      have hv : v = v' := by simpa [read_cons] using hr k
      subst hv
      have : m = m' := by
        refine ih m' h.2 h'.2 fun a => ?_
        by_cases ha : k = a
        · subst ha
          rw [read_below m h.2 (by omega), read_below m' h'.2 (by omega)]
        · simpa [read_cons, ha] using hr a
      rw [this]

/-- Two RAMs in canonical form that read alike are the same data. -/
theorem ext_of_read {size : Nat} {m m' : Memory w} (h : wf d size m = true) (h' : wf d size m' = true)
    (hr : ∀ a, read d m a = read d m' a) : m = m' := ext_from m m' h h' hr

end Sys2Proof.Machine.Memory
end

