-- ==== Sys2Proof/Laws/Builder.lean ====
section
/-! SUPPORT. The tree builder: the invariant every part of a build keeps (41_tree_builder.md R178), what it gives for the tree
that is built, and that 255 levels are always enough (R170). -/

namespace Sys2Proof.Machine

/-! ## Slots -/

theorem isLeaf_leafSlot (x : Symbol) : isLeaf (leafSlot x) = true := by
  simp only [isLeaf, leafSlot, BitVec.getLsbD_or, Bool.or_eq_true]
  exact .inl (by decide)

theorem leafSymbol_leafSlot (x : Symbol) : leafSymbol (leafSlot x) = x := by
  ext i hi
  simp [leafSymbol, leafSlot]

@[simp] theorem isLeaf_resetSlot : isLeaf resetSlot = true := by decide

@[simp] theorem leafSymbol_resetSlot : leafSymbol resetSlot = 0 := by decide

theorem isLeaf_nodeSlot {c : Nat} (h : c < 32768) : isLeaf (nodeSlot c) = false := by
  simp only [isLeaf, nodeSlot, BitVec.getLsbD_ofNat]
  simp [Nat.testBit_lt_two_pow (show c < 2 ^ 15 from h)]

theorem firstChild_nodeSlot {c : Nat} (h : c < 32768) : firstChild (nodeSlot c) = c := by
  simp [firstChild, nodeSlot]
  omega

/-! ## The invariant of a build -/

/-- What is true between the parts of a build of a tree of capacity `cap`: the queued slots rise and lie below ALLOC, ALLOC is
within the capacity, slots queued or not allocated yet hold the reset value, and an internal slot's children are allocated
slots behind it (R178). -/
structure Build.Ok (cap : Nat) (b : Build) : Prop where
  queue_sorted : b.queue.Pairwise (· < ·)
  queue_lt : ∀ s ∈ b.queue, s < b.alloc
  queue_le : b.queue.length ≤ 32
  alloc_le : b.alloc ≤ cap
  wf : Memory.wf resetSlot cap b.tree = true
  queued : ∀ s ∈ b.queue, Memory.read resetSlot b.tree s = resetSlot
  fresh : ∀ i, b.alloc ≤ i → Memory.read resetSlot b.tree i = resetSlot
  shape : ∀ i, isLeaf (Memory.read resetSlot b.tree i) = false →
    i < firstChild (Memory.read resetSlot b.tree i) ∧ firstChild (Memory.read resetSlot b.tree i) + 1 < b.alloc

theorem Build.Ok.start {cap : Nat} (h : 1 ≤ cap) : Build.Ok cap Build.start where
  queue_sorted := by simp [Build.start]
  queue_lt := by simp [Build.start]
  queue_le := by simp [Build.start]
  alloc_le := h
  wf := rfl
  queued := by simp [Build.start]
  fresh := by simp [Build.start]
  shape := by simp [Build.start]

@[simp] theorem Build.push_tree (v : Nat) (b : Build) : (b.push v).tree = b.tree := by rw [Build.push]; split <;> rfl
@[simp] theorem Build.push_alloc (v : Nat) (b : Build) : (b.push v).alloc = b.alloc := by rw [Build.push]; split <;> rfl
@[simp] theorem Build.push_depth (v : Nat) (b : Build) : (b.push v).depth = b.depth := by rw [Build.push]; split <;> rfl

theorem Build.push_queue (v : Nat) (b : Build) :
    (b.push v).queue = if b.queue.length < 32 then b.queue ++ [v] else b.queue := by rw [Build.push]; split <;> rfl

/-- Pushing a slot above the queued ones keeps the queue rising and within its size. -/
theorem Build.push_sorted {v : Nat} {b : Build} (hs : b.queue.Pairwise (· < ·)) (hlt : ∀ s ∈ b.queue, s < v)
    (hle : b.queue.length ≤ 32) :
    (b.push v).queue.Pairwise (· < ·) ∧ (b.push v).queue.length ≤ 32 ∧
      (∀ s ∈ (b.push v).queue, s ∈ b.queue ∨ s = v) := by
  rw [Build.push_queue]
  split
  · rename_i h
    refine ⟨?_, by simp; omega, fun s hs' => by simpa using hs'⟩
    rw [List.pairwise_append]
    exact ⟨hs, List.pairwise_singleton _ _, fun a ha c hc => by rw [List.mem_singleton.mp hc]; exact hlt a ha⟩
  · exact ⟨hs, hle, fun s hs' => .inl hs'⟩

/-- One expanded slot keeps the invariant where two more slots fit (R166, R178). -/
theorem Build.Ok.expandOne {cap : Nat} {b : Build} (h : Build.Ok cap b) (hfit : b.alloc + 2 ≤ cap) (hcap : cap < 32768) :
    Build.Ok cap b.expandOne := by
  cases hq : b.queue with
  | nil => rw [Build.expandOne, hq]; exact h
  | cons s rest =>
    have hs : s < b.alloc := h.queue_lt s (by simp [hq])
    have hsort := h.queue_sorted
    rw [hq, List.pairwise_cons] at hsort
    have hrest : ∀ r ∈ rest, r < b.alloc := fun r hr => h.queue_lt r (by simp [hq, hr])
    have hlen : rest.length ≤ 32 := by have := h.queue_le; rw [hq] at this; simp at this; omega
    let b1 : Build := { b with tree := Memory.write resetSlot b.tree s (nodeSlot b.alloc), queue := rest }
    have hb1 : b1.queue = rest := rfl
    obtain ⟨p1, p2, p3⟩ := Build.push_sorted (b := b1) (v := b.alloc) hsort.2 hrest hlen
    have p3' : ∀ r ∈ (b1.push b.alloc).queue, r < b.alloc + 1 := fun r hr => by
      rcases p3 r hr with h' | h'
      · have := hrest r h'; omega
      · omega
    obtain ⟨q1, q2, q3⟩ := Build.push_sorted (b := b1.push b.alloc) (v := b.alloc + 1) p1 p3' p2
    have q3' : ∀ r ∈ ((b1.push b.alloc).push (b.alloc + 1)).queue, r ∈ rest ∨ r = b.alloc ∨ r = b.alloc + 1 := fun r hr => by
      rcases q3 r hr with h' | h'
      · exact (p3 r h').imp_right .inl
      · exact .inr (.inr h')
    have hexp : b.expandOne = { (b1.push b.alloc).push (b.alloc + 1) with alloc := b.alloc + 2 } := by
      rw [Build.expandOne, hq]
    have htree : b.expandOne.tree = Memory.write resetSlot b.tree s (nodeSlot b.alloc) := by rw [hexp]; simp [b1]
    have hqueue : b.expandOne.queue = ((b1.push b.alloc).push (b.alloc + 1)).queue := by rw [hexp]
    have halloc : b.expandOne.alloc = b.alloc + 2 := by rw [hexp]
    have hread : ∀ i, Memory.read resetSlot b.expandOne.tree i =
        if s = i then nodeSlot b.alloc else Memory.read resetSlot b.tree i := fun i => by
      rw [htree, Memory.read_write]
    refine ⟨by rw [hqueue]; exact q1, ?_, by rw [hqueue]; exact q2, by omega, ?_, ?_, ?_, ?_⟩
    · rw [hqueue, halloc]
      intro r hr
      rcases q3' r hr with h' | h' | h'
      · have := hrest r h'; omega
      · omega
      · omega
    · rw [htree]; exact Memory.write_wf _ (by omega) h.wf
    · rw [hqueue]
      intro r hr
      rw [hread]
      rcases q3' r hr with h' | h' | h'
      · rw [if_neg (by have := hsort.1 r h'; omega)]
        exact h.queued r (by simp [hq, h'])
      · rw [if_neg (by omega)]; exact h.fresh r (by omega)
      · rw [if_neg (by omega)]; exact h.fresh r (by omega)
    · intro i hi
      rw [halloc] at hi
      rw [hread, if_neg (by omega)]
      exact h.fresh i (by omega)
    · intro i hi
      rw [hread] at hi ⊢
      rw [halloc]
      by_cases hsi : s = i
      · subst hsi
        rw [if_pos rfl, firstChild_nodeSlot (by omega)]
        omega
      · rw [if_neg hsi] at hi ⊢
        have := h.shape i hi
        omega

theorem Build.expandOne_alloc_le (b : Build) : b.expandOne.alloc ≤ b.alloc + 2 := by
  rw [Build.expandOne]
  split <;> simp

@[simp] theorem Build.expandOne_depth (b : Build) : b.expandOne.depth = b.depth := by
  rw [Build.expandOne]
  split <;> simp

@[simp] theorem Build.expandMany_depth (q : Nat) (b : Build) : (b.expandMany q).depth = b.depth := by
  induction q generalizing b with
  | zero => rfl
  | succ k ih => rw [Build.expandMany, ih, Build.expandOne_depth]

theorem Build.Ok.expandMany {cap : Nat} (hcap : cap < 32768) (q : Nat) {b : Build} (h : Build.Ok cap b)
    (hfit : b.alloc + 2 * q ≤ cap) : Build.Ok cap (b.expandMany q) := by
  induction q generalizing b with
  | zero => exact h
  | succ k ih =>
    have := b.expandOne_alloc_le
    exact ih (h.expandOne (by omega) hcap) (by omega)

/-- The expand step keeps the invariant, whether it runs or is skipped (R165). -/
theorem Build.Ok.expandLevel {cap : Nat} (hcap : cap < 32768) {b : Build} (h : Build.Ok cap b) :
    Build.Ok cap (b.expandLevel cap) := by
  rw [Build.expandLevel]
  split
  · exact ⟨h.1, h.2, h.3, h.4, h.5, h.6, h.7, h.8⟩
  · exact h.expandMany hcap _ (by omega)

@[simp] theorem Build.expandLevel_depth (cap : Nat) (b : Build) : (b.expandLevel cap).depth = b.depth := by
  rw [Build.expandLevel]
  split <;> simp

theorem Build.Ok.placeLeaf {cap : Nat} (i : Nat) {b : Build} (h : Build.Ok cap b) : Build.Ok cap (b.placeLeaf i) := by
  cases hq : b.queue with
  | nil =>
    have hp : b.placeLeaf i = { b with wqempty := true } := by rw [Build.placeLeaf, hq]
    rw [hp]
    exact ⟨h.1, h.2, h.3, h.4, h.5, h.6, h.7, h.8⟩
  | cons s rest =>
    have hs : s < b.alloc := h.queue_lt s (by simp [hq])
    have hsort := h.queue_sorted
    rw [hq, List.pairwise_cons] at hsort
    have hle := h.alloc_le
    have hlen := h.queue_le
    rw [hq, List.length_cons] at hlen
    rw [Build.placeLeaf, hq]
    refine ⟨hsort.2, fun r hr => h.queue_lt r (by simp [hq, hr]), by simp only; omega, h.alloc_le,
      Memory.write_wf _ (by omega) h.wf, fun r hr => ?_, fun j hj => ?_, fun j hj => ?_⟩
    · have := hsort.1 r hr
      rw [Memory.read_write, if_neg (by omega)]
      exact h.queued r (by simp [hq, hr])
    · simp only at hj
      rw [Memory.read_write, if_neg (by omega)]
      exact h.fresh j hj
    · simp only [Memory.read_write] at hj ⊢
      by_cases hsj : s = j
      · rw [if_pos hsj, isLeaf_leafSlot] at hj; cases hj
      · rw [if_neg hsj] at hj ⊢
        exact h.shape j hj

@[simp] theorem Build.placeLeaf_depth (i : Nat) (b : Build) : (b.placeLeaf i).depth = b.depth := by
  rw [Build.placeLeaf]
  split <;> rfl

theorem Build.Ok.assign {cap : Nat} (lens : List Byte) (i : Nat) {b : Build} (h : Build.Ok cap b) :
    Build.Ok cap (b.assign lens i) := by
  induction lens generalizing i b with
  | nil => exact h
  | cons l rest ih =>
    rw [Build.assign]
    split
    · exact ih _ (h.placeLeaf i)
    · exact ih _ h

@[simp] theorem Build.assign_depth (lens : List Byte) (i : Nat) (b : Build) : (b.assign lens i).depth = b.depth := by
  induction lens generalizing i b with
  | nil => rfl
  | cons l rest ih =>
    rw [Build.assign, ih]
    split <;> simp

/-- A level counts the depth by one (R167). -/
@[simp] theorem Build.level_depth (cap : Nat) (lens : List Byte) (b : Build) : (b.level cap lens).depth = b.depth + 1 := by
  simp [Build.level]

theorem Build.Ok.level {cap : Nat} (hcap : cap < 32768) (lens : List Byte) {b : Build} (h : Build.Ok cap b) :
    Build.Ok cap (b.level cap lens) := by
  have h1 := h.expandLevel hcap
  exact Build.Ok.assign lens 0 ⟨h1.1, h1.2, h1.3, h1.4, h1.5, h1.6, h1.7, h1.8⟩

theorem Build.Ok.levels {cap : Nat} (hcap : cap < 32768) (lens : List Byte) (fuel : Nat) {b : Build} (h : Build.Ok cap b) :
    Build.Ok cap (b.levels cap lens fuel) := by
  induction fuel generalizing b with
  | zero => exact h
  | succ k ih =>
    rw [Build.levels]
    split
    · exact ih (h.level hcap lens)
    · exact h.level hcap lens

/-- Every build ends in the invariant (R178). -/
theorem buildTree_ok {cap : Nat} (h1 : 1 ≤ cap) (hcap : cap < 32768) (lens : List Byte) :
    Build.Ok cap (buildTree cap lens) := (Build.Ok.start h1).levels hcap lens 255

/-! ## Termination -/

theorem Build.more_eq_false_of_depth {lens : List Byte} {b : Build} (h : 255 ≤ b.depth) : b.more lens = false := by
  rw [Build.more, List.any_eq_false]
  intro l _
  have := l.isLt
  simp
  omega

theorem Build.levels_done (cap : Nat) (lens : List Byte) (fuel : Nat) (b : Build) (h : 255 ≤ b.depth + fuel)
    (hf : fuel ≠ 0) : (b.levels cap lens fuel).more lens = false := by
  induction fuel generalizing b with
  | zero => exact absurd rfl hf
  | succ k ih =>
    rw [Build.levels]
    split
    · rename_i hm
      by_cases hk : k = 0
      · subst hk
        rw [Build.more_eq_false_of_depth (by simp; omega)] at hm
        cases hm
      · exact ih _ (by simp; omega) hk
    · rename_i hm
      simpa using hm

/-- A build runs until no symbol is deeper than its depth: 255 levels are enough (R170). -/
theorem buildTree_done (cap : Nat) (lens : List Byte) : (buildTree cap lens).more lens = false :=
  Build.levels_done cap lens 255 Build.start (by simp [Build.start]) (by decide)

/-! ## The commands' operations -/

theorem Params.cap_bounds {p : Params} (h : p.wf = true) (t : TreeSel) : 1 ≤ p.cap t ∧ p.cap t < 32768 := by
  simp only [Params.wf, Bool.and_eq_true, decide_eq_true_eq] at h
  cases t
  · simp only [Params.cap, Params.ctCap]; omega
  · show 1 ≤ 15 ∧ 15 < 32768
    decide

theorem treeBuild_tree (t u : TreeSel) (nsym : Nat) (s : State) : (treeBuild t nsym s).tree u =
    if u = t then (buildTree (s.params.cap t) (s.codeLens nsym)).tree else s.tree u := by
  rw [← State.setTree_tree]; rfl

theorem treeSingle_tree (t u : TreeSel) (x : Symbol) (s : State) : (treeSingle t x s).tree u =
    if u = t then Memory.write resetSlot [] 0 (leafSlot x) else s.tree u := State.setTree_tree t u _ s

theorem treeReset_tree (t u : TreeSel) (s : State) : (treeReset t s).tree u = if u = t then [] else s.tree u :=
  State.setTree_tree t u _ s

/-- A build moves its tree and STAT and nothing else (R175). -/
theorem treeBuild_frame (t : TreeSel) (nsym : Nat) (s : State) :
    treeBuild t nsym s = { s.setTree t ((treeBuild t nsym s).tree t) with stat := (treeBuild t nsym s).stat } := by
  cases t <;> rfl

@[simp] theorem treeBuild_stat (t : TreeSel) (nsym : Nat) (s : State) : (treeBuild t nsym s).stat =
    buildStat (buildTree (s.params.cap t) (s.codeLens nsym)) s.stat := rfl

/-- The warnings of a build are added to STAT (10_state.md R41; 60_exceptions.md R308). -/
theorem statTest_buildStat (b : Build) (c : StatBit) (v : Half) : statTest c (buildStat b v) =
    (statTest c v || (b.wcap && decide (c = .wcap)) || (b.wqovf && decide (c = .wqovf)) ||
      (b.wqempty && decide (c = .wqempty))) := by
  simp [buildStat]

theorem extract_buildStat (b : Build) (v : Half) {lo len : Nat} (h : 6 ≤ lo) :
    (buildStat b v).extractLsb' lo len = v.extractLsb' lo len := by
  simp only [buildStat, extract_statSetIf _ _ _ h]

end Sys2Proof.Machine
end

