-- ==== Sys2Proof/Laws/Codes.lean ====
section
/-! SUPPORT. The codes a build gives (41_tree_builder.md R180): the path of each queued slot, in order, is the next code that is
not taken, and a symbol's leaf stands at the end of its own. -/

namespace Sys2Proof.Machine

/-! ## How many codes are taken -/

theorem takenCodes_eq (len : Nat → Byte) (n d k : Nat) : takenCodes len n d k = ∑ j ∈ Finset.range n,
    if len j ≠ 0 ∧ ((len j).toNat < d ∨ ((len j).toNat = d ∧ j < k)) then 2 ^ (d - (len j).toNat) else 0 := by
  have h : ∀ (f : Nat → Nat) (m : Nat), ((List.range m).map f).sum = ∑ j ∈ Finset.range m, f j := by
    intro f m
    induction m with
    | zero => rfl
    | succ m ih => simp [List.range_succ, Finset.sum_range_succ, ih]
  exact h _ n

/-- At a depth before the first, no code is taken. -/
theorem takenCodes_zero (len : Nat → Byte) (n k : Nat) : takenCodes len n 0 k = 0 := by
  rw [takenCodes_eq]
  refine Finset.sum_eq_zero fun j _ => if_neg ?_
  rintro ⟨h1, h | ⟨h, -⟩⟩
  · omega
  · exact h1 (BitVec.eq_of_toNat_eq h)

/-- A symbol of the depth takes one code, another takes none. -/
theorem takenCodes_succ (len : Nat → Byte) {n d k : Nat} (hd : d ≠ 0) (hk : k < n) :
    takenCodes len n d (k + 1) = takenCodes len n d k + if (len k).toNat = d then 1 else 0 := by
  rw [takenCodes_eq, takenCodes_eq,
    show (if (len k).toNat = d then 1 else 0) = ∑ j ∈ Finset.range n, if j = k then (if (len k).toNat = d then 1 else 0) else 0 by
      rw [Finset.sum_ite_eq' (Finset.range n) k]; simp [hk],
    ← Finset.sum_add_distrib]
  refine Finset.sum_congr rfl fun j _ => ?_
  by_cases hjk : j = k
  · subst hjk
    by_cases hl : (len j).toNat = d
    · have h0 : len j ≠ 0 := fun h => hd (by rw [← hl, h]; rfl)
      rw [if_pos ⟨h0, .inr ⟨hl, Nat.lt_succ_self j⟩⟩, if_neg (by omega), if_pos rfl, if_pos hl, hl, Nat.sub_self, Nat.pow_zero]
    · simp [hl]
  · have hlt : j < k + 1 ↔ j < k := by omega
    simp [hjk, hlt]

/-- A level has twice the codes of the one before, and so many are taken of them. -/
theorem takenCodes_level (len : Nat → Byte) (n d : Nat) : takenCodes len n (d + 1) 0 = 2 * takenCodes len n d n := by
  rw [takenCodes_eq, takenCodes_eq, Finset.mul_sum]
  refine Finset.sum_congr rfl fun j hj => ?_
  have hjn : j < n := Finset.mem_range.mp hj
  by_cases h0 : len j = 0
  · simp [h0]
  · by_cases hl : (len j).toNat ≤ d
    · have h1 : (len j).toNat < d + 1 := by omega
      have h2 : (len j).toNat < d ∨ (len j).toNat = d ∧ j < n := by omega
      rw [if_pos ⟨h0, .inl h1⟩, if_pos ⟨h0, h2⟩, Nat.succ_sub hl, Nat.pow_succ, Nat.mul_comm]
    · rw [if_neg (by rintro ⟨-, h | ⟨h, h'⟩⟩ <;> omega), if_neg (by rintro ⟨-, h | ⟨h, h'⟩⟩ <;> omega), Nat.mul_zero]

/-- Codes of one length rise with the symbol (R180). -/
theorem takenCodes_lt_of_lt (len : Nat → Byte) {n d i j : Nat} (hd : d ≠ 0) (hij : i < j) (hj : j ≤ n)
    (hi : (len i).toNat = d) : takenCodes len n d i < takenCodes len n d j := by
  have hmono : takenCodes len n d (i + 1) ≤ takenCodes len n d j := by
    rw [takenCodes_eq, takenCodes_eq]
    refine Finset.sum_le_sum fun k _ => ?_
    split
    · rename_i h
      rw [if_pos ⟨h.1, h.2.imp_right fun h => ⟨h.1, by omega⟩⟩]
    · exact Nat.zero_le _
  have := takenCodes_succ len (n := n) (k := i) hd (by omega)
  rw [if_pos hi] at this
  omega

/-- The codes of a depth lie behind everything that starts with a shorter code (R180). -/
theorem takenCodes_shorter (len : Nat → Byte) {n d e i j : Nat} (hd : d ≠ 0) (hde : d < e) (hin : i < n)
    (hi : (len i).toNat = d) : 2 ^ (e - d) * (takenCodes len n d i + 1) ≤ takenCodes len n e j := by
  have hs := takenCodes_succ len (n := n) (k := i) hd hin
  rw [if_pos hi] at hs
  rw [← hs, takenCodes_eq, takenCodes_eq, Finset.mul_sum]
  refine Finset.sum_le_sum fun k _ => ?_
  split
  · rename_i h
    have hk : (len k).toNat ≤ d := by omega
    rw [if_pos ⟨h.1, .inl (by omega)⟩, ← Nat.pow_add]
    exact Nat.pow_le_pow_right (by decide) (by omega)
  · simp

/-! ## Values of codes -/

theorem bitsValue_append (l : List Bool) (b : Bool) : bitsValue (l ++ [b]) = 2 * bitsValue l + b.toNat := by
  simp [bitsValue]

theorem bitsValue_append_list (l m : List Bool) : bitsValue (l ++ m) = 2 ^ m.length * bitsValue l + bitsValue m := by
  induction m using List.reverseRecOn with
  | nil => simp [bitsValue]
  | append_singleton m b ih =>
    rw [← List.append_assoc, bitsValue_append, ih, bitsValue_append, List.length_append, Nat.pow_add]
    simp only [List.length_cons, List.length_nil]
    ring

theorem bitsValue_lt (l : List Bool) : bitsValue l < 2 ^ l.length := by
  induction l using List.reverseRecOn with
  | nil => decide
  | append_singleton l b ih =>
    rw [bitsValue_append, List.length_append, Nat.pow_add]
    have := Bool.toNat_le b
    simp only [List.length_cons, List.length_nil]
    omega

/-! ## Paths -/

/-- The slot a walk from slot `a` of the RAM `m` has reached after the bits, if it has met no leaf before. -/
def pathEnd (m : Memory 16) (a : Nat) : List Bool → Option Nat
  | [] => some a
  | b :: l => if isLeaf (Memory.read resetSlot m a) then none else pathEnd m (childSlot (Memory.read resetSlot m a) b) l

theorem pathEnd_append {m : Memory 16} {a e : Nat} {l : List Bool} {b : Bool} (h : pathEnd m a l = some e)
    (hl : isLeaf (Memory.read resetSlot m e) = false) :
    pathEnd m a (l ++ [b]) = some (childSlot (Memory.read resetSlot m e) b) := by
  induction l generalizing a with
  | nil => cases h; simp [pathEnd, hl]
  | cons c l ih =>
    rw [pathEnd] at h
    split at h
    · cases h
    · rw [List.cons_append, pathEnd, if_neg ‹_›]; exact ih h

/-- Writing a slot that was a leaf leaves the paths there were. -/
theorem pathEnd_write {m : Memory 16} {a e s : Nat} {l : List Bool} {v : Slot}
    (hs : isLeaf (Memory.read resetSlot m s) = true) (h : pathEnd m a l = some e) :
    pathEnd (Memory.write resetSlot m s v) a l = some e := by
  induction l generalizing a with
  | nil => exact h
  | cons c l ih =>
    rw [pathEnd] at h
    split at h
    · cases h
    · rename_i hn
      have hne : s ≠ a := by rintro rfl; exact hn hs
      rw [pathEnd, Memory.read_write, if_neg hne, if_neg hn]
      exact ih h

/-- A path that ends in a leaf is a walk that gives the leaf's symbol (42_tree_decoder.md R201). -/
theorem walkBits_of_pathEnd {m : Memory 16} {cap : Nat} {f : Nat → Slot}
    (hf : ∀ i, i < cap → f i = Memory.read resetSlot m i)
    (hs : ∀ i, isLeaf (Memory.read resetSlot m i) = false → firstChild (Memory.read resetSlot m i) + 1 < cap)
    {l : List Bool} {a e : Nat} (ha : a < cap) (h : pathEnd m a l = some e)
    (hl : isLeaf (Memory.read resetSlot m e) = true) :
    walkBits f (f a) l = some (leafSymbol (Memory.read resetSlot m e), []) := by
  induction l generalizing a with
  | nil => cases h; rw [walkBits, hf _ ha, if_pos hl]
  | cons b l ih =>
    rw [pathEnd] at h
    split at h
    · cases h
    · rename_i hn
      rw [walkBits, hf _ ha, if_neg hn]
      have := hs a (by simpa using hn)
      exact ih (by cases b <;> simp [childSlot] <;> omega) h

/-- Slot `s` of a build stands at the end of the `d` bits of value `v`. -/
def Build.Reach (b : Build) (d v s : Nat) : Prop :=
  ∃ bits : List Bool, bits.length = d ∧ bitsValue bits = v ∧ pathEnd b.tree 0 bits = some s

/-- Every symbol of `P` has its leaf at the end of its code, and nothing touches that slot any more. -/
def Build.Placed (lens : List Byte) (P : Nat → Prop) (b : Build) : Prop :=
  ∀ i, P i → ∃ s, b.Reach (lens.getD i 0).toNat (takenCodes (lens.getD · 0) lens.length (lens.getD i 0).toNat i) s ∧
    Memory.read resetSlot b.tree s = leafSlot (BitVec.ofNat 15 i) ∧ s ∉ b.queue ∧ s < b.alloc

/-- The queued slots, in order, stand at the end of the codes of `d` bits from `first` on. -/
def Build.Queued (b : Build) (d first : Nat) : Prop :=
  ∀ m (h : m < b.queue.length), b.Reach d (first + m) b.queue[m]

/-- No warning was met. -/
def Build.Clean (b : Build) : Prop := b.wcap = false ∧ b.wqovf = false ∧ b.wqempty = false

/-! ## Warnings stay -/

theorem Build.push_flags (v : Nat) (b : Build) : (b.push v).wcap = b.wcap ∧ (b.push v).wqempty = b.wqempty ∧
    (b.wqovf = true → (b.push v).wqovf = true) ∧ ((b.push v).wqovf = false → (b.push v).queue = b.queue ++ [v]) := by
  rw [Build.push]; split <;> simp

theorem Build.expandOne_flags (b : Build) : b.expandOne.wcap = b.wcap ∧ b.expandOne.wqempty = b.wqempty ∧
    (b.wqovf = true → b.expandOne.wqovf = true) := by
  rw [Build.expandOne]
  split
  · simp
  · exact ⟨by simp [push_flags], by simp [push_flags], fun h => (push_flags _ _).2.2.1 ((push_flags _ _).2.2.1 h)⟩

theorem Build.expandMany_flags (k : Nat) (b : Build) : (b.expandMany k).wcap = b.wcap ∧
    (b.expandMany k).wqempty = b.wqempty ∧ (b.wqovf = true → (b.expandMany k).wqovf = true) := by
  induction k generalizing b with
  | zero => simp [Build.expandMany]
  | succ k ih =>
    have h1 := ih b.expandOne
    have h2 := b.expandOne_flags
    exact ⟨h1.1.trans h2.1, h1.2.1.trans h2.2.1, fun h => h1.2.2 (h2.2.2 h)⟩

theorem Build.placeLeaf_flags (i : Nat) (b : Build) : (b.placeLeaf i).wcap = b.wcap ∧ (b.placeLeaf i).wqovf = b.wqovf ∧
    (b.wqempty = true → (b.placeLeaf i).wqempty = true) := by
  rw [Build.placeLeaf]; split <;> simp

theorem Build.assign_flags (l : List Byte) (i : Nat) (b : Build) : (b.assign l i).wcap = b.wcap ∧
    (b.assign l i).wqovf = b.wqovf ∧ (b.wqempty = true → (b.assign l i).wqempty = true) := by
  induction l generalizing i b with
  | nil => simp [Build.assign]
  | cons x l ih =>
    rw [Build.assign]
    have h1 := ih (i + 1) (if x.toNat = b.depth then b.placeLeaf i else b)
    refine ⟨h1.1.trans ?_, h1.2.1.trans ?_, fun h => h1.2.2 ?_⟩
    · split; exact (placeLeaf_flags i b).1; rfl
    · split; exact (placeLeaf_flags i b).2.1; rfl
    · split; exact (placeLeaf_flags i b).2.2 h; exact h

/-! ## The expand step -/

/-- The head of the queue goes, its two children come last, one bit longer (R166). -/
theorem Build.expandOne_reach {cap : Nat} {lens : List Byte} {P : Nat → Prop} {b : Build} {s d v : Nat} {rest : List Nat}
    (hok : Build.Ok cap b) (hcap : cap < 32768) (hfit : b.alloc + 2 ≤ cap) (hq : b.queue = s :: rest)
    (hs : b.Reach d v s) (hp : b.Placed lens P) (hf : b.expandOne.wqovf = false) :
    b.expandOne.queue = rest ++ [b.alloc, b.alloc + 1] ∧ (∀ e w x, b.Reach e w x → b.expandOne.Reach e w x) ∧
      b.expandOne.Reach (d + 1) (2 * v) b.alloc ∧ b.expandOne.Reach (d + 1) (2 * v + 1) (b.alloc + 1) ∧
      b.expandOne.Placed lens P := by
  have hsl : isLeaf (Memory.read resetSlot b.tree s) = true := by rw [hok.queued s (by simp [hq])]; decide
  have htree : b.expandOne.tree = Memory.write resetSlot b.tree s (nodeSlot b.alloc) := by rw [Build.expandOne, hq]; simp
  have halloc : b.expandOne.alloc = b.alloc + 2 := by rw [Build.expandOne, hq]
  have hqueue : b.expandOne.queue = rest ++ [b.alloc, b.alloc + 1] := by
    rw [Build.expandOne, hq] at hf ⊢
    simp only at hf ⊢
    have h1 : (Build.push b.alloc { b with tree := Memory.write resetSlot b.tree s (nodeSlot b.alloc), queue := rest }).wqovf =
        false := by
      by_contra h
      rw [(push_flags _ _).2.2.1 (by simpa using h)] at hf; cases hf
    rw [(push_flags _ _).2.2.2 hf, (push_flags _ _).2.2.2 h1]; simp
  have hreach : ∀ e w x, b.Reach e w x → b.expandOne.Reach e w x := by
    rintro e w x ⟨bits, h1, h2, h3⟩
    exact ⟨bits, h1, h2, by rw [htree]; exact pathEnd_write hsl h3⟩
  have hnode : Memory.read resetSlot b.expandOne.tree s = nodeSlot b.alloc := by rw [htree, Memory.read_write, if_pos rfl]
  have hna : b.alloc < 32768 := by omega
  have hchild : ∀ c : Bool, b.expandOne.Reach (d + 1) (2 * v + c.toNat) (b.alloc + c.toNat) := by
    intro c
    obtain ⟨bits, h1, h2, h3⟩ := hreach _ _ _ hs
    refine ⟨bits ++ [c], by simp [h1], by rw [bitsValue_append, h2], ?_⟩
    rw [pathEnd_append h3 (by rw [hnode]; exact isLeaf_nodeSlot hna), hnode, childSlot, firstChild_nodeSlot hna]
  refine ⟨hqueue, hreach, hchild false, hchild true, fun i hi => ?_⟩
  obtain ⟨x, h1, h2, h3, h4⟩ := hp i hi
  have hxs : s ≠ x := by rintro rfl; exact h3 (by simp [hq])
  refine ⟨x, hreach _ _ _ h1, by rw [htree, Memory.read_write, if_neg hxs]; exact h2, ?_, by omega⟩
  rw [hqueue]
  simp only [List.mem_append, List.mem_cons, List.not_mem_nil, or_false]
  rintro (h | h | h)
  · exact h3 (by simp [hq, h])
  · omega
  · omega

/-- The expand step in the middle: the first `k` queued slots have codes of `d` bits from `v` on, the ones behind them codes of
`d + 1` bits from `w` on, and those of the first come next. -/
theorem Build.expandMany_reach {cap d w : Nat} {lens : List Byte} {P : Nat → Prop} (hcap : cap < 32768) (k : Nat) :
    ∀ (v : Nat) (b : Build), Build.Ok cap b → b.alloc + 2 * k ≤ cap → k ≤ b.queue.length → 2 * v + k = w + b.queue.length →
      (∀ m (h : m < b.queue.length), m < k → b.Reach d (v + m) b.queue[m]) →
      (∀ m (h : m < b.queue.length), k ≤ m → b.Reach (d + 1) (w + (m - k)) b.queue[m]) →
      b.Placed lens P → (b.expandMany k).wqovf = false →
      (b.expandMany k).Queued (d + 1) w ∧ (b.expandMany k).Placed lens P := by
  induction k with
  | zero => intro v b _ _ _ _ _ h2 h3 _; exact ⟨fun m h => h2 m h (Nat.zero_le _), h3⟩
  | succ k ih =>
    intro v b hok hfit hk hvw h1 h2 h3 hf
    have hf1 : b.expandOne.wqovf = false := by
      by_contra h
      rw [Build.expandMany, (expandMany_flags k b.expandOne).2.2 (by simpa using h)] at hf; cases hf
    cases hq : b.queue with
    | nil => rw [hq] at hk; simp at hk
    | cons s rest =>
      have hlen : b.queue.length = rest.length + 1 := by rw [hq]; rfl
      have hget : ∀ m (h : m < rest.length), b.queue[m + 1]'(by omega) = rest[m] := fun m h => by simp [hq]
      have hs : b.Reach d v s := by
        have := h1 0 (by omega) (by omega)
        simpa [hq] using this
      obtain ⟨g1, g2, g3, g4, g5⟩ := expandOne_reach hok hcap (by omega) hq hs h3 hf1
      have halloc : b.expandOne.alloc = b.alloc + 2 := by rw [Build.expandOne, hq]
      have hlen1 : b.expandOne.queue.length = rest.length + 2 := by rw [g1]; simp
      refine ih (v + 1) b.expandOne (hok.expandOne (by omega) hcap) (by omega) (by omega) (by omega) ?_ ?_ g5 hf
      · intro m hm hmk
        have hmr : m < rest.length := by omega
        have h : b.expandOne.queue[m] = rest[m] := by simp [g1, List.getElem_append_left hmr]
        rw [h, ← hget m hmr, show v + 1 + m = v + (m + 1) by omega]
        exact g2 _ _ _ (h1 (m + 1) (by omega) (by omega))
      · intro m hm hmk
        by_cases hmr : m < rest.length
        · have h : b.expandOne.queue[m] = rest[m] := by simp [g1, List.getElem_append_left hmr]
          rw [h, ← hget m hmr, show m - k = m + 1 - (k + 1) by omega]
          exact g2 _ _ _ (h2 (m + 1) (by omega) (by omega))
        · by_cases hm0 : m = rest.length
          · subst hm0
            have h : b.expandOne.queue[rest.length] = b.alloc := by simp [g1]
            rw [h, show w + (rest.length - k) = 2 * v by omega]
            exact g3
          · have hm1 : m = rest.length + 1 := by omega
            subst hm1
            have h : b.expandOne.queue[rest.length + 1] = b.alloc + 1 := by simp [g1]
            rw [h, show w + (rest.length + 1 - k) = 2 * v + 1 by omega]
            exact g4

/-! ## The leaf assignment -/

/-- A placed symbol takes the first code that is not taken (R168). -/
theorem Build.placeLeaf_reach {cap first : Nat} {lens : List Byte} {P : Nat → Prop} {b : Build} {i : Nat} (hok : Build.Ok cap b)
    (hq : b.Queued b.depth first) (hp : b.Placed lens P) (hi : (lens.getD i 0).toNat = b.depth)
    (hfirst : first = takenCodes (lens.getD · 0) lens.length b.depth i) (hf : (b.placeLeaf i).wqempty = false) :
    (b.placeLeaf i).Queued b.depth (first + 1) ∧ (b.placeLeaf i).Placed lens (fun j => P j ∨ j = i) := by
  cases hqq : b.queue with
  | nil => rw [Build.placeLeaf, hqq] at hf; cases hf
  | cons s rest =>
    have hb : b.placeLeaf i =
        { b with tree := Memory.write resetSlot b.tree s (leafSlot (BitVec.ofNat 15 i)), queue := rest } := by
      rw [Build.placeLeaf, hqq]
    have hsl : isLeaf (Memory.read resetSlot b.tree s) = true := by rw [hok.queued s (by simp [hqq])]; decide
    have hreach : ∀ e w x, b.Reach e w x → (b.placeLeaf i).Reach e w x := by
      rintro e w x ⟨bits, h1, h2, h3⟩
      exact ⟨bits, h1, h2, by rw [hb]; exact pathEnd_write hsl h3⟩
    have hsrt := hok.queue_sorted
    rw [hqq, List.pairwise_cons] at hsrt
    have hlen : b.queue.length = rest.length + 1 := by rw [hqq]; rfl
    refine ⟨fun m hm => ?_, fun j hj => ?_⟩
    · have hq' : (b.placeLeaf i).queue = rest := by rw [hb]
      have hm' : m < rest.length := by rw [← hq']; exact hm
      have h := hq (m + 1) (by omega)
      rw [show b.queue[m + 1]'(by omega) = rest[m] by simp [hqq], show first + (m + 1) = first + 1 + m by omega] at h
      have hg : (b.placeLeaf i).queue[m] = rest[m] := by simp [hq']
      rw [hg]
      exact hreach _ _ _ h
    · by_cases hji : j = i
      · subst hji
        have h := hq 0 (by omega)
        rw [show b.queue[0]'(by omega) = s by simp [hqq], Nat.add_zero, hfirst] at h
        refine ⟨s, by rw [hi]; exact hreach _ _ _ h, by rw [hb, Memory.read_write, if_pos rfl], ?_, ?_⟩
        · rw [hb]; exact fun h => absurd (hsrt.1 s h) (by omega)
        · rw [hb]; exact hok.queue_lt s (by simp [hqq])
      · obtain ⟨x, h1, h2, h3, h4⟩ := hp j (hj.resolve_right hji)
        have hxs : s ≠ x := by rintro rfl; exact h3 (by simp [hqq])
        refine ⟨x, hreach _ _ _ h1, by rw [hb, Memory.read_write, if_neg hxs]; exact h2, ?_, by rw [hb]; exact h4⟩
        rw [hb]; exact fun h => h3 (by rw [hqq]; exact List.mem_cons_of_mem _ h)

/-- The scan of a level from symbol `k` on (R168). -/
theorem Build.assign_reach {cap : Nat} {lens : List Byte} (l : List Byte) : ∀ (k : Nat) (P : Nat → Prop) (b : Build),
    Build.Ok cap b → b.depth ≠ 0 → k + l.length = lens.length →
    b.Queued b.depth (takenCodes (lens.getD · 0) lens.length b.depth k) → b.Placed lens P →
    (∀ j, j < l.length → lens.getD (k + j) 0 = l.getD j 0) → (b.assign l k).wqempty = false →
    (b.assign l k).Queued b.depth (takenCodes (lens.getD · 0) lens.length b.depth lens.length) ∧
      (b.assign l k).Placed lens (fun j => P j ∨ (k ≤ j ∧ j < lens.length ∧ (lens.getD j 0).toNat = b.depth)) := by
  induction l with
  | nil =>
    intro k P b _ _ hk hq hp _ _
    simp only [List.length_nil, Nat.add_zero] at hk
    subst hk
    exact ⟨hq, fun j hj => hp j (hj.resolve_right fun h => by omega)⟩
  | cons x l ih =>
    intro k P b hok hd hk hq hp hl hf
    rw [List.length_cons] at hk
    have hx : lens.getD k 0 = x := by simpa using hl 0 (by simp)
    have hl' : ∀ j, j < l.length → lens.getD (k + 1 + j) 0 = l.getD j 0 := fun j hj => by
      have := hl (j + 1) (by simp; omega)
      rw [show k + 1 + j = k + (j + 1) by omega]; simpa using this
    have htk := takenCodes_succ (lens.getD · 0) (n := lens.length) (k := k) hd (by omega)
    simp only [hx] at htk
    rw [Build.assign] at hf ⊢
    by_cases hxd : x.toNat = b.depth
    · rw [if_pos hxd] at hf ⊢ htk
      have hf1 : (b.placeLeaf k).wqempty = false := by
        by_contra h
        rw [(assign_flags l (k + 1) _).2.2 (by simpa using h)] at hf; cases hf
      obtain ⟨g1, g2⟩ := placeLeaf_reach hok hq hp (by rw [hx]; exact hxd) rfl hf1
      obtain ⟨g3, g4⟩ := ih (k + 1) _ (b.placeLeaf k) (hok.placeLeaf k) (by rw [placeLeaf_depth]; exact hd) (by omega)
        (by rw [placeLeaf_depth, htk]; exact g1) g2 hl' hf
      rw [placeLeaf_depth] at g3 g4
      refine ⟨g3, fun j hj => g4 j ?_⟩
      rcases hj with h | ⟨h1, h2, h3⟩
      · exact .inl (.inl h)
      · by_cases hjk : j = k
        · exact .inl (.inr hjk)
        · exact .inr ⟨by omega, h2, h3⟩
    · rw [if_neg hxd] at hf ⊢ htk
      obtain ⟨g3, g4⟩ := ih (k + 1) P b hok hd (by omega) (by rw [htk]; exact hq) hp hl' hf
      refine ⟨g3, fun j hj => g4 j ?_⟩
      rcases hj with h | ⟨h1, h2, h3⟩
      · exact .inl h
      · by_cases hjk : j = k
        · subst hjk; rw [hx] at h3; exact absurd h3 hxd
        · exact .inr ⟨by omega, h2, h3⟩

/-! ## Levels -/

/-- What holds between the levels of a build without a warning: the queued slots have the codes that are not taken, in order, and
every used symbol that is no deeper than the depth has its leaf at the end of its own code. -/
structure Build.Codes (lens : List Byte) (b : Build) : Prop where
  queued : b.Queued b.depth (takenCodes (lens.getD · 0) lens.length b.depth lens.length)
  placed : b.Placed lens fun j => 1 ≤ (lens.getD j 0).toNat ∧ (lens.getD j 0).toNat ≤ b.depth

theorem Build.Codes.start (lens : List Byte) : Build.start.Codes lens where
  queued := by
    intro m hm
    have h0 : m = 0 := by simp only [Build.start, List.length_cons, List.length_nil] at hm; omega
    subst h0
    exact ⟨[], rfl, by rw [show Build.start.depth = 0 from rfl, takenCodes_zero]; rfl, rfl⟩
  placed := fun j hj => by have : Build.start.depth = 0 := rfl; omega

/-- A warning of a level was met by then. -/
theorem Build.Clean.of_level {cap : Nat} {lens : List Byte} {b : Build} (h : (b.level cap lens).Clean) : b.Clean := by
  obtain ⟨c1, c2, c3⟩ := h
  rw [Build.level] at c1 c2 c3
  simp only [(assign_flags _ _ _).1, (assign_flags _ _ _).2.1] at c1 c2
  have h3 : (b.expandLevel cap).wqempty = false := by
    by_contra h
    rw [(assign_flags lens 0 { b.expandLevel cap with depth := (b.expandLevel cap).depth + 1 }).2.2 (by simpa using h)] at c3
    cases c3
  rw [Build.expandLevel] at c1 c2 h3
  split at c1
  · cases c1
  · rw [if_neg ‹_›] at c2 h3
    have hm := expandMany_flags b.queue.length b
    refine ⟨hm.1 ▸ c1, ?_, hm.2.1 ▸ h3⟩
    by_contra h
    rw [hm.2.2 (by simpa using h)] at c2; cases c2

theorem Build.Clean.of_levels {cap : Nat} {lens : List Byte} (fuel : Nat) {b : Build}
    (h : (b.levels cap lens fuel).Clean) : b.Clean := by
  induction fuel generalizing b with
  | zero => exact h
  | succ k ih =>
    rw [Build.levels] at h
    split at h
    · exact (ih h).of_level
    · exact h.of_level

/-- A level without a warning keeps the codes (R166, R168). -/
theorem Build.Codes.level {cap : Nat} {lens : List Byte} (hcap : cap < 32768) {b : Build} (h : b.Codes lens)
    (hok : Build.Ok cap b) (hc : (b.level cap lens).Clean) : (b.level cap lens).Codes lens := by
  obtain ⟨c1, c2, c3⟩ := hc
  have hdep : (b.level cap lens).depth = b.depth + 1 := b.level_depth cap lens
  rw [Build.level] at c1 c2 c3
  simp only [(assign_flags _ _ _).1, (assign_flags _ _ _).2.1] at c1 c2
  have hexp : b.alloc + 2 * b.queue.length ≤ cap := by
    by_contra h
    rw [Build.expandLevel, if_pos (by omega)] at c1; cases c1
  have hel : b.expandLevel cap = b.expandMany b.queue.length := by rw [Build.expandLevel, if_neg (by omega)]
  have hokE := hok.expandLevel hcap
  rw [hel] at hokE c2 c3
  obtain ⟨g1, g2⟩ := expandMany_reach (d := b.depth) (w := takenCodes (lens.getD · 0) lens.length (b.depth + 1) 0) hcap
    b.queue.length _ b hok hexp le_rfl (by rw [takenCodes_level]) (fun m hm _ => h.queued m hm) (fun m hm hm' => by omega)
    h.placed c2
  obtain ⟨g3, g4⟩ := assign_reach (cap := cap) (lens := lens) lens 0
    (fun j => 1 ≤ (lens.getD j 0).toNat ∧ (lens.getD j 0).toNat ≤ b.depth)
    { b.expandMany b.queue.length with depth := (b.expandMany b.queue.length).depth + 1 }
    ⟨hokE.1, hokE.2, hokE.3, hokE.4, hokE.5, hokE.6, hokE.7, hokE.8⟩ (Nat.succ_ne_zero _) (by omega)
    (by simp only [expandMany_depth]; exact g1) g2 (by simp) c3
  simp only [expandMany_depth] at g3 g4
  have hl : b.level cap lens = Build.assign lens 0
      { b.expandMany b.queue.length with depth := (b.expandMany b.queue.length).depth + 1 } := by rw [Build.level, hel]
  refine ⟨by rw [hdep, hl]; simpa only [expandMany_depth] using g3, ?_⟩
  rw [hdep, hl]
  simp only [expandMany_depth]
  refine fun j hj => g4 j ?_
  by_cases hjd : (lens.getD j 0).toNat ≤ b.depth
  · exact .inl ⟨hj.1, hjd⟩
  · refine .inr ⟨Nat.zero_le _, ?_, by omega⟩
    by_contra hge
    have h0 : lens.getD j 0 = 0 := List.getD_eq_default _ _ (by omega)
    have hj1 : 1 ≤ (lens.getD j 0).toNat := hj.1
    rw [h0] at hj1
    cases hj1

theorem Build.Codes.levels {cap : Nat} {lens : List Byte} (hcap : cap < 32768) (fuel : Nat) {b : Build} (h : b.Codes lens)
    (hok : Build.Ok cap b) (hc : (b.levels cap lens fuel).Clean) : (b.levels cap lens fuel).Codes lens := by
  induction fuel generalizing b with
  | zero => exact h
  | succ k ih =>
    rw [Build.levels] at hc ⊢
    by_cases hm : (b.level cap lens).more lens = true
    · simp only [hm, if_true] at hc ⊢
      exact ih (h.level hcap hok (hc.of_levels k)) (hok.level hcap lens) hc
    · simp only [hm] at hc ⊢
      exact h.level hcap hok hc

/-- Every build that meets no warning gives the codes of R180. -/
theorem buildTree_codes {cap : Nat} (h1 : 1 ≤ cap) (hcap : cap < 32768) {lens : List Byte} (hc : (buildTree cap lens).Clean) :
    (buildTree cap lens).Codes lens := (Build.Codes.start lens).levels hcap 255 (.start h1) hc

end Sys2Proof.Machine
end

