-- ==== Sys2Proof/Laws/Reads.lean ====
section
/-! SUPPORT. Everything that reads bits, against its counterpart on the list of the bits that can still be read: the walk of a
tree, the parameter functions TREE_HEADER and PM2_TOKEN. -/

namespace Sys2Proof.Machine

/-- The run `r`, started in `s`, does what `o` says on the list of bits: it gives the same value and leaves the same bits, or
meets end of input where the bits end first; and only the reader moves. -/
def AgreesWith {α : Type} (r : Run α) (s : State) (o : Option (α × List Bool)) : Prop :=
  match o with
  | some (a, rest) =>
    ∃ s', r = .ok a s' ∧ s'.pendingBits = rest ∧ OnlyReaderMoved s s' ∧ (ReaderKept s s')
  | none => ∃ s', r = .eos s' ∧ OnlyReaderMoved s s' ∧ (ReaderKept s s') ∧ s'.brValid = false

theorem AgreesWith.ok {α : Type} (a : α) (s : State) : AgreesWith (.ok a s) s (some (a, s.pendingBits)) :=
  ⟨s, rfl, rfl, rfl, .refl s⟩

/-- A run that goes on after a part that only moved the reader. -/
theorem AgreesWith.after {α : Type} {r : Run α} {s s1 : State} {o : Option (α × List Bool)} (h : AgreesWith r s1 o)
    (hm : OnlyReaderMoved s s1) (hr : ReaderKept s s1) : AgreesWith r s o := by
  cases o with
  | none =>
    obtain ⟨s', h1, h2, h3, h4⟩ := h
    exact ⟨s', h1, hm.trans h2, hr.trans h3, h4⟩
  | some p =>
    obtain ⟨s', h1, h2, h3, h4⟩ := h
    exact ⟨s', h1, h2, hm.trans h3, hr.trans h4⟩

/-- ReadBit as the first bit of the list. -/
theorem readBit_agrees (s : State) :
    AgreesWith (readBit s) s (match s.pendingBits with | [] => none | b :: rest => some (b, rest)) := by
  obtain ⟨b, rest, s', hp, he, hp', hm, hok, -⟩ | ⟨hp, hv, he⟩ := readBit_cases s
  · rw [hp]; exact ⟨s', he, hp', hm, hok.kept s⟩
  · rw [hp]; exact ⟨{ s with src := s.src.tail }, he, rfl, .of_eq rfl rfl, hv⟩

/-- The walk with fuel for every bit is the walk on the list of bits (42_tree_decoder.md R201). -/
theorem walk_agrees (t : TreeSel) (fuel : Nat) (v : Slot) (s : State) (hf : s.bitBudget < fuel) :
    AgreesWith (walk t fuel v s) s (walkBits (s.slot t) v s.pendingBits) := by
  induction fuel generalizing v s with
  | zero => omega
  | succ k ih =>
    by_cases hl : isLeaf v = true
    · have : walkBits (s.slot t) v s.pendingBits = some (leafSymbol v, s.pendingBits) := by
        cases s.pendingBits <;> simp [walkBits, hl]
      rw [this, walk, if_pos hl]
      exact .ok _ s
    · rw [walk, if_neg hl]
      obtain ⟨b, rest, s1, hp, he, hp1, hm, hok, hbud⟩ | ⟨hp, hv, he⟩ := readBit_cases s
      · have hw : walkBits (s.slot t) v s.pendingBits = walkBits (s1.slot t) (s1.slot t (childSlot v b)) s1.pendingBits := by
          rw [hp, hp1, hm.slot_eq, walkBits, if_neg hl]
        rw [he, hw]
        exact (ih _ s1 (by omega)).after hm (hok.kept s)
      · rw [he, hp, walkBits, if_neg hl]
        exact ⟨{ s with src := s.src.tail }, rfl, rfl, .of_eq rfl rfl, hv⟩

/-- A walk that reads a bit pulls no byte beyond the one that holds its last (40_bitstream.md R143). -/
theorem walk_lazy {t : TreeSel} {fuel : Nat} {v : Slot} {s s' : State} {x : Symbol} (h : walk t fuel v s = .ok x s') :
    s' = s ∨ ReaderLazy s' := by
  induction fuel generalizing v s with
  | zero =>
    rw [walk] at h
    by_cases hl : isLeaf v = true
    · rw [if_pos hl] at h; cases h; exact .inl rfl
    · rw [if_neg hl] at h; cases h
  | succ k ih =>
    rw [walk] at h
    by_cases hl : isLeaf v = true
    · rw [if_pos hl] at h; cases h; exact .inl rfl
    · rw [if_neg hl] at h
      obtain ⟨b, rest, s1, -, he, -, -, hok, -⟩ | ⟨-, -, he⟩ := readBit_cases s
      · rw [he] at h
        exact .inr ((ih h).elim (fun h => h ▸ hok) id)
      · rw [he] at h; cases h

/-- `DecodeSym(t)` is the walk from the root on the list of bits. -/
theorem decodeSym_agrees (t : TreeSel) (s : State) :
    AgreesWith (decodeSym t s) s (s.symbolBits t s.pendingBits) := walk_agrees t _ _ s (Nat.lt_succ_self _)

/-- A bit-reading program on the stream is the program on the list of bits (00_scope.md R12). -/
theorem runBits_agrees {α : Type} (p : BitProg α) (s : State) : AgreesWith (runBits p s) s (progBits p s.pendingBits) := by
  induction p generalizing s with
  | ret a => rw [runBits, progBits]; exact .ok a s
  | bit k ih =>
    rw [runBits]
    obtain ⟨b, rest, s1, hp, he, hp1, hm, hok, -⟩ | ⟨hp, hv, he⟩ := readBit_cases s
    · rw [he, hp, progBits, ← hp1]
      exact (ih b s1).after hm (hok.kept s)
    · rw [he, hp, progBits]
      exact ⟨{ s with src := s.src.tail }, rfl, rfl, .of_eq rfl rfl, hv⟩

theorem symbolBits_of_moved {s s1 : State} (hm : OnlyReaderMoved s s1) (t : TreeSel) : s1.symbolBits t = s.symbolBits t := by
  funext bits; rw [State.symbolBits, State.symbolBits, hm.slot_eq]

theorem tokenBits_of_moved {α : Type} {s s1 : State} (hm : OnlyReaderMoved s s1) (p : TokProg α) (bits : List Bool) :
    s1.tokenBits p bits = s.tokenBits p bits := by
  induction p generalizing bits with
  | ret a => rfl
  | bit k ih => cases bits <;> simp [State.tokenBits, ih]
  | offset k ih => simp only [State.tokenBits, symbolBits_of_moved hm, ih]

/-- A token program on the stream is the program on the list of bits (00_scope.md R13). -/
theorem runToken_agrees {α : Type} (p : TokProg α) (s : State) :
    AgreesWith (runToken p s) s (s.tokenBits p s.pendingBits) := by
  induction p generalizing s with
  | ret a => exact .ok a s
  | bit k ih =>
    rw [runToken]
    obtain ⟨b, rest, s1, hp, he, hp1, hm, hok, -⟩ | ⟨hp, hv, he⟩ := readBit_cases s
    · rw [he, hp, State.tokenBits, ← hp1, ← tokenBits_of_moved hm]
      exact (ih b s1).after hm (hok.kept s)
    · rw [he, hp, State.tokenBits]
      exact ⟨{ s with src := s.src.tail }, rfl, rfl, .of_eq rfl rfl, hv⟩
  | offset k ih =>
    rw [runToken, State.tokenBits]
    have hd := decodeSym_agrees .ot s
    cases hsym : s.symbolBits .ot s.pendingBits with
    | none =>
      rw [hsym] at hd
      obtain ⟨s', h1, h2, h3, h4⟩ := hd
      rw [h1]
      exact ⟨s', rfl, h2, h3, h4⟩
    | some p =>
      obtain ⟨x, rest⟩ := p
      rw [hsym] at hd
      obtain ⟨s', h1, h2, h3, h4⟩ := hd
      rw [h1]
      have := ih x s'
      rw [h2, tokenBits_of_moved h3] at this
      exact this.after h3 h4

/-- What every read has in common: whatever it answers, only the reader has moved. -/
theorem AgreesWith.moved {α : Type} {r : Run α} {s : State} {o : Option (α × List Bool)} (h : AgreesWith r s o) :
    (∃ a s', r = .ok a s' ∧ o = some (a, s'.pendingBits) ∧ OnlyReaderMoved s s' ∧ (ReaderKept s s')) ∨
    (∃ s', r = .eos s' ∧ o = none ∧ OnlyReaderMoved s s' ∧ (ReaderKept s s') ∧ s'.brValid = false) := by
  cases o with
  | none =>
    obtain ⟨s', h1, h2, h3, h4⟩ := h
    exact .inr ⟨s', h1, rfl, h2, h3, h4⟩
  | some p =>
    obtain ⟨a, rest⟩ := p
    obtain ⟨s', h1, h2, h3, h4⟩ := h
    exact .inl ⟨a, s', h1, by rw [h2], h3, h4⟩

end Sys2Proof.Machine
end

