-- ==== Sys2Proof/Laws/Ring.lean ====
section
/-! SUPPORT. The history ring and emission: reads after a push, the index arithmetic, what an emission and a copy move. -/

namespace Sys2Proof.Machine

/-! ## Indices -/

theorem ringIndex_lt (wp : BitVec 13) (k : BitVec 16) : ringIndex wp k < 8192 := by
  have h1 := Int.emod_nonneg ((wp.toNat : Int) - (k.toNat : Int)) (show (8192 : Int) ≠ 0 by decide)
  have h2 := Int.emod_lt_of_pos ((wp.toNat : Int) - (k.toNat : Int)) (show (0 : Int) < 8192 by decide)
  simp only [ringIndex, Config.ringSize]
  omega

/-- The index is the slot from which `k` places lead to the cursor (43_ring_buffer.md R222). -/
theorem ringIndex_spec (wp : BitVec 13) (k : BitVec 16) : (ringIndex wp k + k.toNat) % 8192 = wp.toNat := by
  have h1 := Int.emod_nonneg ((wp.toNat : Int) - (k.toNat : Int)) (show (8192 : Int) ≠ 0 by decide)
  have := wp.isLt
  simp only [ringIndex, Config.ringSize]
  omega

/-- The index is determined by that (43_ring_buffer.md R222, R225). -/
theorem ringIndex_unique {wp : BitVec 13} {k : BitVec 16} {i : Nat} (hi : i < 8192)
    (h : (i + k.toNat) % 8192 = wp.toNat) : ringIndex wp k = i := by
  have := ringIndex_spec wp k
  have := ringIndex_lt wp k
  omega

theorem cursor_succ (wp : BitVec 13) : (wp + 1).toNat = (wp.toNat + 1) % 8192 := by
  simp [BitVec.toNat_add]

/-! ## Pushes -/

/-- A push writes at the cursor and nowhere else (43_ring_buffer.md R221). -/
theorem ringAt_push (b : Byte) (s : State) (i : Nat) :
    (ringPush b s).ringAt i = if i = s.rbWp.toNat then b else s.ringAt i := by
  rw [State.ringAt, ringPush_ring, ringPush_params, Memory.read_write, State.ringAt]
  exact if_congr eq_comm rfl rfl

theorem ringRead_eq {s : State} {k : BitVec 16} {i : Nat} (hi : i < 8192) (h : (i + k.toNat) % 8192 = s.rbWp.toNat) :
    ringRead k s = s.ringAt i := by rw [ringRead, ringIndex_unique hi h]

/-- Distances that agree modulo RING_SIZE read the same byte (43_ring_buffer.md R225). -/
theorem ringRead_mod (k k' : BitVec 16) (s : State) (h : k.toNat % 8192 = k'.toNat % 8192) :
    ringRead k s = ringRead k' s := by
  have := ringIndex_spec s.rbWp k'
  exact ringRead_eq (ringIndex_lt _ _) (by omega)

/-- The byte `k` behind, after a push: the pushed byte for `k = 1`, else the byte `k − 1` behind before it
(43_ring_buffer.md R227). -/
theorem ringRead_push (b : Byte) (s : State) {k : Nat} (h1 : 1 ≤ k) (h2 : k ≤ 8192) :
    ringRead (BitVec.ofNat 16 k) (ringPush b s) = if k = 1 then b else ringRead (BitVec.ofNat 16 (k - 1)) s := by
  have hwp := s.rbWp.isLt
  have hk : (BitVec.ofNat 16 k).toNat = k := by simp; omega
  have hk' : (BitVec.ofNat 16 (k - 1)).toNat = k - 1 := by simp; omega
  have hspec := ringIndex_spec s.rbWp (BitVec.ofNat 16 (k - 1))
  have hlt := ringIndex_lt s.rbWp (BitVec.ofNat 16 (k - 1))
  rw [hk'] at hspec
  rw [ringRead_eq (s := ringPush b s) (i := ringIndex s.rbWp (BitVec.ofNat 16 (k - 1))) hlt
    (by rw [hk, ringPush_rbWp, cursor_succ]; omega), ringAt_push]
  by_cases hone : k = 1
  · subst hone
    rw [if_pos (by omega), if_pos rfl]
  · rw [if_neg (by omega), if_neg hone, ringRead]

/-! ## Emission -/

theorem OnlyEmitted.refl (s : State) : OnlyEmitted s s := rfl

theorem OnlyEmitted.params_eq {s t : State} (h : OnlyEmitted s t) : t.params = s.params := by
  rw [OnlyEmitted] at h; rw [h]
theorem OnlyEmitted.inputs_eq {s t : State} (h : OnlyEmitted s t) : t.inputs = s.inputs := by
  rw [OnlyEmitted] at h; rw [h]
theorem OnlyEmitted.src_eq {s t : State} (h : OnlyEmitted s t) : t.src = s.src := by
  rw [OnlyEmitted] at h; rw [h]
theorem OnlyEmitted.connected_eq {s t : State} (h : OnlyEmitted s t) : t.connected = s.connected := by
  rw [OnlyEmitted] at h; rw [h]
theorem OnlyEmitted.taken_eq {s t : State} (h : OnlyEmitted s t) : t.taken = s.taken := by
  rw [OnlyEmitted] at h; rw [h]
theorem OnlyEmitted.res_eq {s t : State} (h : OnlyEmitted s t) : t.res = s.res := by
  rw [OnlyEmitted] at h; rw [h]
theorem OnlyEmitted.stat_eq {s t : State} (h : OnlyEmitted s t) : t.stat = s.stat := by
  rw [OnlyEmitted] at h; rw [h]
theorem OnlyEmitted.rcPhase_eq {s t : State} (h : OnlyEmitted s t) : t.rcPhase = s.rcPhase := by
  rw [OnlyEmitted] at h; rw [h]
theorem OnlyEmitted.brByte_eq {s t : State} (h : OnlyEmitted s t) : t.brByte = s.brByte := by
  rw [OnlyEmitted] at h; rw [h]
theorem OnlyEmitted.brPos_eq {s t : State} (h : OnlyEmitted s t) : t.brPos = s.brPos := by
  rw [OnlyEmitted] at h; rw [h]
theorem OnlyEmitted.brValid_eq {s t : State} (h : OnlyEmitted s t) : t.brValid = s.brValid := by
  rw [OnlyEmitted] at h; rw [h]
theorem OnlyEmitted.ct_eq {s t : State} (h : OnlyEmitted s t) : t.ct = s.ct := by
  rw [OnlyEmitted] at h; rw [h]
theorem OnlyEmitted.ot_eq {s t : State} (h : OnlyEmitted s t) : t.ot = s.ot := by
  rw [OnlyEmitted] at h; rw [h]
theorem OnlyEmitted.clt_eq {s t : State} (h : OnlyEmitted s t) : t.clt = s.clt := by
  rw [OnlyEmitted] at h; rw [h]
theorem OnlyEmitted.freeCtr_eq {s t : State} (h : OnlyEmitted s t) : t.freeCtr = s.freeCtr := by
  rw [OnlyEmitted] at h; rw [h]

theorem OnlyEmitted.trans {s t u : State} (h : OnlyEmitted s t) (h' : OnlyEmitted t u) : OnlyEmitted s u := by
  unfold OnlyEmitted at *
  rw [h'.trans (congrArg (fun x : State => { x with out := u.out, ring := u.ring, rbWp := u.rbWp, rcCount := u.rcCount }) h)]

@[simp] theorem emit_out (b : Byte) (s : State) : (emit b s).out = s.out ++ [b] := rfl
@[simp] theorem emit_ring (b : Byte) (s : State) : (emit b s).ring = (ringPush b s).ring := rfl
@[simp] theorem emit_rbWp (b : Byte) (s : State) : (emit b s).rbWp = s.rbWp + 1 := rfl
@[simp] theorem emit_rcCount (b : Byte) (s : State) : (emit b s).rcCount = countDown s.rcCount := rfl

theorem emit_onlyEmitted (b : Byte) (s : State) : OnlyEmitted s (emit b s) := rfl

theorem emitCopy_onlyEmitted (n : Nat) (d : BitVec 16) (s : State) : OnlyEmitted s (emitCopy n d s) := by
  induction n generalizing s with
  | zero => rfl
  | succ k ih => exact (emit_onlyEmitted _ s).trans (ih _)

theorem ringRead_emit (b : Byte) (k : BitVec 16) (s : State) : ringRead k (emit b s) = ringRead k (ringPush b s) := rfl

theorem ringAt_emit (b : Byte) (s : State) (i : Nat) :
    (emit b s).ringAt i = if i = s.rbWp.toNat then b else s.ringAt i := ringAt_push b s i

/-- The countdown goes down by one and stays at −2^31 (44_variant_rebuild.md R241). -/
theorem countDown_toInt (c : BitVec 32) : (countDown c).toInt = max (c.toInt - 1) (-2147483648) := by
  have h1 := BitVec.toInt_lt (x := c)
  have h2 := BitVec.le_toInt (x := c)
  unfold countDown
  split
  · rename_i h
    rw [BitVec.toInt_sub]
    simp only [BitVec.toInt_ofNat] at *
    norm_num [Int.bmod] at *
    omega
  · omega

/-- How many bytes a copy adds to the output (44_variant_rebuild.md R243). -/
theorem emitCopy_out_length (n : Nat) (d : BitVec 16) (s : State) :
    (emitCopy n d s).out.length = s.out.length + n := by
  induction n generalizing s with
  | zero => rfl
  | succ k ih => rw [emitCopy, ih, emit_out, List.length_append, List.length_singleton]; omega

/-- A copy only appends to the output. -/
theorem emitCopy_out_prefix (n : Nat) (d : BitVec 16) (s : State) : s.out <+: (emitCopy n d s).out := by
  induction n generalizing s with
  | zero => exact List.prefix_rfl
  | succ k ih => exact (List.prefix_append s.out _).trans (ih (emit (ringRead d s) s))

/-- What a copy takes from the countdown (44_variant_rebuild.md R241, R243). -/
theorem emitCopy_rcCount (n : Nat) (d : BitVec 16) (s : State) :
    (emitCopy n d s).rcCount.toInt = max (s.rcCount.toInt - n) (-2147483648) := by
  induction n generalizing s with
  | zero => have := BitVec.le_toInt (x := s.rcCount); simp [emitCopy]; omega
  | succ k ih => rw [emitCopy, ih, emit_rcCount, countDown_toInt]; push_cast; omega

/-- How far a copy moves the cursor (44_variant_rebuild.md R243). -/
theorem emitCopy_rbWp (n : Nat) (d : BitVec 16) (s : State) :
    (emitCopy n d s).rbWp.toNat = (s.rbWp.toNat + n) % 8192 := by
  induction n generalizing s with
  | zero => have := s.rbWp.isLt; simp [emitCopy]; omega
  | succ k ih => rw [emitCopy, ih, emit_rbWp, cursor_succ]; omega

/-! ## History -/

/-- The ring of `s` holds the pushes `ps`, oldest first, and the fill before them (43_ring_buffer.md R227). -/
def History (ps : List Byte) (s : State) : Prop := ∀ k : Nat, 1 ≤ k → k ≤ 8192 →
  ringRead (BitVec.ofNat 16 k) s = if k ≤ ps.length then ps.getD (ps.length - k) 0 else s.params.ringFill

theorem History.newSession (s : State) : History [] s.newSession := by
  intro k h1 _
  rw [if_neg (by simp; omega)]
  rfl

/-- Where neither the ring nor its cursor moves, the history stays. -/
theorem History.of_eq {ps : List Byte} {s t : State} (h : History ps s) (hp : t.params = s.params) (hr : t.ring = s.ring)
    (hw : t.rbWp = s.rbWp) : History ps t := by
  intro k h1 h2
  rw [hp, ← h k h1 h2, ringRead, ringRead, State.ringAt, State.ringAt, hp, hr, hw]

theorem History.push {ps : List Byte} {s : State} (h : History ps s) (b : Byte) : History (ps ++ [b]) (ringPush b s) := by
  intro k h1 h2
  rw [ringRead_push b s h1 h2, List.length_append, List.length_singleton, ringPush_params]
  by_cases hone : k = 1
  · subst hone
    simp
  · rw [if_neg hone, h (k - 1) (by omega) (by omega)]
    by_cases hk : k ≤ ps.length + 1
    · rw [if_pos hk, if_pos (by omega), List.getD_append _ _ _ _ (by omega)]
      congr 1
      omega
    · rw [if_neg hk, if_neg (by omega)]

/-- A copy pushes what it emits (44_variant_rebuild.md R243). -/
theorem History.emitCopy {ps : List Byte} (n : Nat) (d : BitVec 16) {s : State} (h : History ps s) :
    History (ps ++ (Machine.emitCopy n d s).out.drop s.out.length) (Machine.emitCopy n d s) := by
  induction n generalizing ps s with
  | zero => simpa [Machine.emitCopy] using h
  | succ k ih =>
    have h1 : History (ps ++ [ringRead d s]) (emit (ringRead d s) s) := (h.push _).of_eq rfl rfl rfl
    have h2 := ih h1
    obtain ⟨l, hl⟩ := emitCopy_out_prefix k d (emit (ringRead d s) s)
    rw [Machine.emitCopy]
    rw [← hl, emit_out, List.drop_left' (by simp)] at h2
    rw [← hl, emit_out, List.append_assoc, List.drop_left' rfl, ← List.append_assoc]
    exact h2

end Sys2Proof.Machine
end

