-- ==== Sys2Proof/Laws/Rebuild.lean ====
section
/-! SUPPORT. Reading a tree and the rebuild controller: what a header does to the state, everything the reads of a rebuild event
can do, the cases of RebuildIfDue and of the reads of PRODUCE. -/

namespace Sys2Proof.Machine

/-! ## A header applied -/

theorem codeLen_setCodeLen (i j : Nat) (v : Byte) (s : State) :
    (s.setCodeLen i v).codeLen j = if i = j then v else s.codeLen j := by
  rw [State.codeLen, State.setCodeLen_clt, Memory.read_write]; rfl

/-- Writing lengths moves CLT only. -/
theorem writeLens_frame (i : Nat) (l : List Byte) (s : State) : writeLens i l s = { s with clt := (writeLens i l s).clt } := by
  induction l generalizing i s with
  | nil => rfl
  | cons v l ih => rw [writeLens, ih]; rfl

/-- The entries written are the lengths, the others stay (41_tree_builder.md R177). -/
theorem writeLens_codeLen (i j : Nat) (l : List Byte) (s : State) :
    (writeLens i l s).codeLen j = if i ≤ j ∧ j < i + l.length then l.getD (j - i) 0 else s.codeLen j := by
  induction l generalizing i s with
  | nil => rw [writeLens, if_neg (by simp)]
  | cons v l ih =>
    rw [writeLens, ih, codeLen_setCodeLen]
    by_cases hij : i = j
    · subst hij
      simp
    · by_cases h : i + 1 ≤ j ∧ j < i + 1 + l.length
      · have hs : j - i = (j - (i + 1)) + 1 := by omega
        rw [if_pos h, if_pos (by simp; omega), hs]
        simp
      · rw [if_neg h, if_neg hij, if_neg (by simp; omega)]

theorem writeLens_wf (i : Nat) (l : List Byte) (s : State) {size : Nat} (hsize : i + l.length ≤ size)
    (h : Memory.wf 0 size s.clt = true) : Memory.wf 0 size (writeLens i l s).clt = true := by
  induction l generalizing i s with
  | nil => exact h
  | cons v l ih =>
    rw [List.length_cons] at hsize
    exact ih _ _ (by omega) (Memory.write_wf v (by omega) h)

/-- A header moves its tree, CLT and STAT (41_tree_builder.md R177). -/
theorem applyHeader_frame (t : TreeSel) (n : Nat) (h : Header n) (s : State) : applyHeader t n h s =
    { s with ct := (applyHeader t n h s).ct, ot := (applyHeader t n h s).ot,
             clt := (applyHeader t n h s).clt, stat := (applyHeader t n h s).stat } := by
  cases h with
  | single x => cases t <;> rfl
  | lengths l =>
    simp only [applyHeader]
    rw [treeBuild_frame, writeLens_frame]
    cases t <;> rfl

@[simp] theorem applyHeader_params (t : TreeSel) (n : Nat) (h : Header n) (s : State) :
    (applyHeader t n h s).params = s.params := by
  rw [applyHeader_frame]
@[simp] theorem applyHeader_inputs (t : TreeSel) (n : Nat) (h : Header n) (s : State) :
    (applyHeader t n h s).inputs = s.inputs := by
  rw [applyHeader_frame]
@[simp] theorem applyHeader_src (t : TreeSel) (n : Nat) (h : Header n) (s : State) :
    (applyHeader t n h s).src = s.src := by
  rw [applyHeader_frame]
@[simp] theorem applyHeader_connected (t : TreeSel) (n : Nat) (h : Header n) (s : State) :
    (applyHeader t n h s).connected = s.connected := by
  rw [applyHeader_frame]
@[simp] theorem applyHeader_out (t : TreeSel) (n : Nat) (h : Header n) (s : State) :
    (applyHeader t n h s).out = s.out := by
  rw [applyHeader_frame]
@[simp] theorem applyHeader_taken (t : TreeSel) (n : Nat) (h : Header n) (s : State) :
    (applyHeader t n h s).taken = s.taken := by
  rw [applyHeader_frame]
@[simp] theorem applyHeader_res (t : TreeSel) (n : Nat) (h : Header n) (s : State) :
    (applyHeader t n h s).res = s.res := by
  rw [applyHeader_frame]
@[simp] theorem applyHeader_rcPhase (t : TreeSel) (n : Nat) (h : Header n) (s : State) :
    (applyHeader t n h s).rcPhase = s.rcPhase := by
  rw [applyHeader_frame]
@[simp] theorem applyHeader_rcCount (t : TreeSel) (n : Nat) (h : Header n) (s : State) :
    (applyHeader t n h s).rcCount = s.rcCount := by
  rw [applyHeader_frame]
@[simp] theorem applyHeader_brByte (t : TreeSel) (n : Nat) (h : Header n) (s : State) :
    (applyHeader t n h s).brByte = s.brByte := by
  rw [applyHeader_frame]
@[simp] theorem applyHeader_brPos (t : TreeSel) (n : Nat) (h : Header n) (s : State) :
    (applyHeader t n h s).brPos = s.brPos := by
  rw [applyHeader_frame]
@[simp] theorem applyHeader_brValid (t : TreeSel) (n : Nat) (h : Header n) (s : State) :
    (applyHeader t n h s).brValid = s.brValid := by
  rw [applyHeader_frame]
@[simp] theorem applyHeader_ring (t : TreeSel) (n : Nat) (h : Header n) (s : State) :
    (applyHeader t n h s).ring = s.ring := by
  rw [applyHeader_frame]
@[simp] theorem applyHeader_rbWp (t : TreeSel) (n : Nat) (h : Header n) (s : State) :
    (applyHeader t n h s).rbWp = s.rbWp := by
  rw [applyHeader_frame]
@[simp] theorem applyHeader_freeCtr (t : TreeSel) (n : Nat) (h : Header n) (s : State) :
    (applyHeader t n h s).freeCtr = s.freeCtr := by
  rw [applyHeader_frame]

theorem applyHeader_other (t u : TreeSel) (hu : u ≠ t) (n : Nat) (h : Header n) (s : State) :
    (applyHeader t n h s).tree u = s.tree u := by
  cases h with
  | single x => rw [applyHeader, treeSingle_tree, if_neg hu]
  | lengths l =>
    rw [applyHeader, treeBuild_tree, if_neg hu, writeLens_frame]
    cases u <;> rfl

/-! ## The reads of a rebuild event -/

/-- The state a run ends in, whether it gives a value or meets end of input. -/
def Run.state {α : Type} : Run α → State
  | .ok _ s => s
  | .eos s => s

/-- Everything the reads of a rebuild event can do: move the reader, and apply headers of trees whose alphabet fits CLT. -/
inductive ReadSteps (s : State) : State → Prop where
  | refl : ReadSteps s s
  | moved {t u : State} : ReadSteps s t → OnlyReaderMoved t u → ReaderKept t u → ReadSteps s u
  | header {t : State} (tree : TreeSel) (n : Nat) (h : Header n) :
      ReadSteps s t → n ≤ t.params.cltMax → ReadSteps s (applyHeader tree n h t)

theorem ReadSteps.trans {s t u : State} (h : ReadSteps s t) (h' : ReadSteps t u) : ReadSteps s u := by
  induction h' with
  | refl => exact h
  | moved _ hm hr ih => exact ih.moved hm hr
  | header tree n hd _ hn ih => exact ih.header tree n hd hn

/-- The reads of an event keep the reader's invariants (40_bitstream.md R143, R149). -/
theorem ReadSteps.kept {s t : State} (h : ReadSteps s t) : ReaderKept s t := by
  induction h with
  | refl => exact .refl s
  | moved _ _ hr ih => exact ih.trans hr
  | header tree n hd _ _ ih => exact ih.trans (.of_eq (by simp) (by simp))

/-- What the reads of an event never touch. -/
theorem ReadSteps.frame {s t : State} (h : ReadSteps s t) : t.params = s.params ∧ t.inputs = s.inputs ∧
    t.connected = s.connected ∧ t.out = s.out ∧ t.taken = s.taken ∧ t.res = s.res ∧ t.rcPhase = s.rcPhase ∧
    t.rcCount = s.rcCount ∧ t.ring = s.ring ∧ t.rbWp = s.rbWp ∧ t.freeCtr = s.freeCtr := by
  induction h with
  | refl => simp
  | moved _ hm _ ih =>
    simp only [hm.params_eq, hm.inputs_eq, hm.connected_eq, hm.out_eq, hm.taken_eq, hm.res_eq, hm.rcPhase_eq, hm.rcCount_eq,
      hm.ring_eq, hm.rbWp_eq, hm.freeCtr_eq]
    exact ih
  | header tree n hd _ _ ih => simpa using ih

/-- Reading a tree, with the header read from the list of bits (41_tree_builder.md R177): either the header is applied where the
reading ended, or end of input came first and neither tree nor CLT is written. -/
theorem readTree_cases (t : TreeSel) (n : Nat) (s : State) :
    (∃ h s1, readTree t n s = .ok () (applyHeader t n h s1) ∧
      progBits (treeHeader s.params t n) s.pendingBits = some (h, s1.pendingBits) ∧ OnlyReaderMoved s s1 ∧
      ReaderKept s s1) ∨
    (∃ s1, readTree t n s = .eos s1 ∧ progBits (treeHeader s.params t n) s.pendingBits = none ∧ OnlyReaderMoved s s1 ∧
      ReaderKept s s1 ∧ s1.brValid = false) := by
  obtain ⟨h, s1, he, ho, hm, hr⟩ | ⟨s1, he, ho, hm, hr, hv⟩ := (runBits_agrees (treeHeader s.params t n) s).moved
  · exact .inl ⟨h, s1, by rw [readTree, he]; rfl, ho, hm, hr⟩
  · exact .inr ⟨s1, by rw [readTree, he]; rfl, ho, hm, hr, hv⟩

theorem pendingBits_applyHeader (t : TreeSel) (n : Nat) (h : Header n) (s : State) :
    (applyHeader t n h s).pendingBits = s.pendingBits := by
  simp [State.pendingBits, State.heldBits]

theorem readTree_steps (t : TreeSel) {n : Nat} {s : State} (hn : n ≤ s.params.cltMax) : ReadSteps s (readTree t n s).state := by
  obtain ⟨h, s1, he, -, hm, hr⟩ | ⟨s1, he, -, hm, hr, -⟩ := readTree_cases t n s
  · rw [he]; exact (ReadSteps.refl.moved hm hr).header t n h (by rw [hm.params_eq]; exact hn)
  · rw [he]; exact ReadSteps.refl.moved hm hr

theorem otSize_le (p : Phase) (q : Params) : otSize p ≤ q.cltMax := by
  cases p <;> simp [otSize, Params.cltMax]

theorem codeSyms_le (q : Params) : q.codeSyms ≤ q.cltMax := by simp [Params.cltMax]

theorem Run.bind_steps {α β : Type} {s : State} {r : Run α} {f : α → State → Run β} (hr : ReadSteps s r.state)
    (hf : ∀ a s1, ReadSteps s1 (f a s1).state) : ReadSteps s (r.bind f).state := by
  cases r with
  | ok a s1 => exact ReadSteps.trans hr (hf a s1)
  | eos s1 => exact hr

theorem readBit_steps (s : State) : ReadSteps s (readBit s).state := by
  obtain ⟨b, rest, s1, -, he, -, hm, hok, -⟩ | ⟨-, hv, he⟩ := readBit_cases s
  · rw [he]; exact ReadSteps.refl.moved hm (hok.kept s)
  · rw [he]; exact ReadSteps.refl.moved (u := { s with src := s.src.tail }) rfl (.of_eq rfl rfl)

/-- Whatever the phase and wherever input ends, the reads of an event do only that (44_variant_rebuild.md R246). -/
theorem rebuildReads_steps (p : Phase) (s : State) : ReadSteps s (rebuildReads p s).state := by
  have hot : ∀ p s, ReadSteps s (readOffsetTree p s).state := fun p s => readTree_steps .ot (otSize_le p _)
  have hct : ∀ s, ReadSteps s (readCodeTree s).state := fun s => readTree_steps .ct (codeSyms_le _)
  cases p with
  | unbuilt => exact Run.bind_steps (hct s) fun _ s1 => hot .unbuilt s1
  | build1 => exact hot .build1 s
  | build2 => exact hot .build2 s
  | build3 =>
    refine Run.bind_steps (readBit_steps s) fun f s1 => Run.bind_steps ?_ fun _ s2 => hot .build3 s2
    cases f
    · exact ReadSteps.refl
    · exact hct s1
  | steady =>
    refine Run.bind_steps (readBit_steps s) fun f s1 => ?_
    cases f
    · exact ReadSteps.refl
    · exact Run.bind_steps (hct s1) fun _ s2 => hot .steady s2

/-- The cases of RebuildIfDue: nothing is due, or an event runs whole, or its reads meet end of input (44_variant_rebuild.md
R246, R253). -/
theorem rebuildIfDue_cases (s : State) :
    (0 < s.rcCount.toInt ∧ rebuildIfDue s = .ok false s) ∨
    (s.rcCount.toInt ≤ 0 ∧ ∃ s1, rebuildReads s.rcPhase s = .ok () s1 ∧ ReadSteps s s1 ∧
      rebuildIfDue s = .ok true (endRebuild s.rcPhase s1)) ∨
    (s.rcCount.toInt ≤ 0 ∧ ∃ s1, rebuildReads s.rcPhase s = .eos s1 ∧ ReadSteps s s1 ∧ rebuildIfDue s = .eos s1) := by
  by_cases h : 0 < s.rcCount.toInt
  · exact .inl ⟨h, if_pos h⟩
  · have hst := rebuildReads_steps s.rcPhase s
    cases hr : rebuildReads s.rcPhase s with
    | ok a s1 =>
      rw [hr] at hst
      exact .inr (.inl ⟨by omega, s1, rfl, hst, by rw [rebuildIfDue, if_neg h, hr]; rfl⟩)
    | eos s1 =>
      rw [hr] at hst
      exact .inr (.inr ⟨by omega, s1, rfl, hst, by rw [rebuildIfDue, if_neg h, hr]; rfl⟩)

@[simp] theorem endRebuild_out (p : Phase) (s : State) : (endRebuild p s).out = s.out := rfl
@[simp] theorem endRebuild_res (p : Phase) (s : State) : (endRebuild p s).res = s.res := rfl
@[simp] theorem endRebuild_params (p : Phase) (s : State) : (endRebuild p s).params = s.params := rfl
@[simp] theorem endRebuild_rcPhase (p : Phase) (s : State) : (endRebuild p s).rcPhase = p.next := rfl
@[simp] theorem endRebuild_stat (p : Phase) (s : State) : (endRebuild p s).stat = statPhase p.next s.stat := rfl
@[simp] theorem endRebuild_tree (p : Phase) (t : TreeSel) (s : State) : (endRebuild p s).tree t = s.tree t := by
  cases t <;> rfl

/-- The countdown after an event under CARRY, where one was due (44_variant_rebuild.md R252). -/
theorem reloadCount_carry_toInt {c : BitVec 32} (p : Phase) (hc : c.toInt ≤ 0) :
    (reloadCount .carry c p.reload).toInt = c.toInt + p.reload.toInt := by
  have h2 := BitVec.le_toInt (x := c)
  have hp : 0 < p.reload.toInt ∧ p.reload.toInt ≤ 4096 := by cases p <;> decide
  rw [reloadCount, BitVec.toInt_add, Int.bmod_eq_of_le] <;> omega

/-! ## PRODUCE -/

/-- The cases of the reads of PRODUCE, part by part (44_variant_rebuild.md R255). -/
theorem produceReads_cases (s : State) :
    (∃ s1, rebuildIfDue s = .eos s1 ∧ produceReads s = .eos s1) ∨
    (∃ ran s1 s2, rebuildIfDue s = .ok ran s1 ∧ produceReads s = .eos s2 ∧ OnlyReaderMoved s1 s2 ∧
      ReaderKept s1 s2) ∨
    (∃ ran s1 x rest tok s3, rebuildIfDue s = .ok ran s1 ∧ s1.symbolBits .ct s1.pendingBits = some (x, rest) ∧
      s1.tokenBits (pm2Token s.params x) rest = some (tok, s3.pendingBits) ∧ produceReads s = .ok tok s3 ∧
      OnlyReaderMoved s1 s3 ∧ ReaderKept s1 s3) := by
  cases hr : rebuildIfDue s with
  | eos s1 => exact .inl ⟨s1, rfl, by rw [produceReads, hr]; rfl⟩
  | ok ran s1 =>
    obtain ⟨x, s2, he, ho, hm, hok⟩ | ⟨s2, he, ho, hm, hok, -⟩ := (decodeSym_agrees .ct s1).moved
    · have htok := runToken_agrees (pm2Token s.params x) s2
      obtain ⟨tok, s3, he', ho', hm', hok'⟩ | ⟨s3, he', ho', hm', hok', -⟩ := htok.moved
      · refine .inr (.inr ⟨ran, s1, x, _, tok, s3, rfl, ho, ?_, ?_, hm.trans hm', hok.trans hok'⟩)
        · rw [← tokenBits_of_moved hm]; exact ho'
        · rw [produceReads, hr]; simp only [Run.bind, he, he']
      · refine .inr (.inl ⟨ran, s1, s3, rfl, ?_, hm.trans hm', hok.trans hok'⟩)
        rw [produceReads, hr]; simp only [Run.bind, he, he']
    · refine .inr (.inl ⟨ran, s1, s2, rfl, ?_, hm, hok⟩)
      rw [produceReads, hr]; simp only [Run.bind, he]

end Sys2Proof.Machine
end

