-- ==== Sys2Proof/Laws/Frames.lean ====
section
/-! SUPPORT. What the reads of a command leave alone, whether or not they meet end of input: the frames of ReadBits, of DecodeSym and
the parameter functions, of RebuildIfDue and of the reads of PRODUCE; what a token's emission moves; what the reads of a rebuild
event do to STAT; that a read on a list of bits leaves a tail of it. -/

namespace Sys2Proof.Machine

/-! ## Only the reader moves -/

theorem AgreesWith.state_moved {α : Type} {r : Run α} {s : State} {o : Option (α × List Bool)} (h : AgreesWith r s o) :
    OnlyReaderMoved s r.state := by
  obtain ⟨a, s', rfl, -, h, -⟩ | ⟨s', rfl, -, h, -, -⟩ := h.moved <;> exact h

theorem readBitsInto_moved (n : Nat) (v : Half) (s : State) : OnlyReaderMoved s (readBitsInto n v s).state := by
  induction n generalizing v s with
  | zero => rfl
  | succ k ih =>
    rw [readBitsInto]
    obtain ⟨b, rest, s', -, he, -, hm, -, -⟩ | ⟨-, -, he⟩ := readBit_cases s
    · rw [he]; exact hm.trans (ih _ _)
    · rw [he]; rfl

/-! ## The reader's invariants are kept -/

theorem AgreesWith.state_kept {α : Type} {r : Run α} {s : State} {o : Option (α × List Bool)} (h : AgreesWith r s o) :
    ReaderKept s r.state := by
  obtain ⟨a, s', rfl, -, -, h⟩ | ⟨s', rfl, -, -, h, -⟩ := h.moved <;> exact h

theorem readBitsInto_kept (n : Nat) (v : Half) (s : State) : ReaderKept s (readBitsInto n v s).state := by
  induction n generalizing v s with
  | zero => exact .refl s
  | succ k ih =>
    rw [readBitsInto]
    obtain ⟨b, rest, s', -, he, -, -, hok, -⟩ | ⟨-, -, he⟩ := readBit_cases s
    · rw [he]; exact (hok.kept s).trans (ih _ _)
    · rw [he]; exact .of_eq rfl rfl

theorem rebuildIfDue_kept (s : State) : ReaderKept s (rebuildIfDue s).state := by
  obtain ⟨-, h⟩ | ⟨-, s1, -, hs, h⟩ | ⟨-, s1, -, hs, h⟩ := rebuildIfDue_cases s
  · rw [h]; exact .refl s
  · rw [h]; exact hs.kept.trans (.of_eq rfl rfl)
  · rw [h]; exact hs.kept

theorem produceReads_kept (s : State) : ReaderKept s (produceReads s).state := by
  have hr := rebuildIfDue_kept s
  obtain ⟨s1, h1, h2⟩ | ⟨ran, s1, s2, h1, h2, -, h3⟩ | ⟨ran, s1, x, rest, tok, s3, h1, -, -, h2, -, h3⟩ := produceReads_cases s
  · rw [h1] at hr; rw [h2]; exact hr
  · rw [h1] at hr; rw [h2]; exact hr.trans h3
  · rw [h1] at hr; rw [h2]; exact hr.trans h3

/-! ## Parts of the reads -/

theorem writeLens_reader (i : Nat) (l : List Byte) (s : State) (src : List SrcAnswer) (b : Byte) (p : BitVec 3) (v : Bool) :
    writeLens i l { s with src := src, brByte := b, brPos := p, brValid := v } =
      { writeLens i l s with src := src, brByte := b, brPos := p, brValid := v } := by
  induction l generalizing i s with
  | nil => rfl
  | cons x l ih => rw [writeLens, writeLens, ← ih]; rfl

/-- What a header does to trees, CLT and STAT does not depend on where the reader is. -/
theorem applyHeader_moved {s m : State} (hm : OnlyReaderMoved s m) (t : TreeSel) (n : Nat) (h : Header n) :
    OnlyReaderMoved (applyHeader t n h s) (applyHeader t n h m) := by
  have hm' : m = { s with src := m.src, brByte := m.brByte, brPos := m.brPos, brValid := m.brValid } := hm
  generalize m.src = a at hm'; generalize m.brByte = b at hm'
  generalize m.brPos = c at hm'; generalize m.brValid = d at hm'
  subst hm'
  cases h with
  | single x => cases t <;> rfl
  | lengths l => simp only [applyHeader]; rw [writeLens_reader 0 l.toList s a b c d]; cases t <;> rfl

/-! ## RebuildIfDue and the reads of PRODUCE -/

theorem rebuildIfDue_frame (s : State) : (rebuildIfDue s).state.params = s.params ∧
    (rebuildIfDue s).state.inputs = s.inputs ∧ (rebuildIfDue s).state.connected = s.connected ∧
    (rebuildIfDue s).state.out = s.out ∧ (rebuildIfDue s).state.taken = s.taken ∧ (rebuildIfDue s).state.res = s.res ∧
    (rebuildIfDue s).state.ring = s.ring ∧ (rebuildIfDue s).state.rbWp = s.rbWp ∧
    (rebuildIfDue s).state.freeCtr = s.freeCtr := by
  obtain ⟨-, h⟩ | ⟨-, s1, -, hs, h⟩ | ⟨-, s1, -, hs, h⟩ := rebuildIfDue_cases s
  · rw [h]; exact ⟨rfl, rfl, rfl, rfl, rfl, rfl, rfl, rfl, rfl⟩
  all_goals
    obtain ⟨h1, h2, h3, h4, h5, h6, -, -, h9, h10, h11⟩ := hs.frame
    rw [h]
    exact ⟨h1, h2, h3, h4, h5, h6, h9, h10, h11⟩

/-- After RebuildIfDue, the symbol and the token only move the reader. -/
theorem produceReads_moved (s : State) : OnlyReaderMoved (rebuildIfDue s).state (produceReads s).state := by
  obtain ⟨s1, h1, h2⟩ | ⟨ran, s1, s2, h1, h2, hm, -⟩ | ⟨ran, s1, x, rest, tok, s3, h1, -, -, h2, hm, -⟩ :=
    produceReads_cases s
  · rw [h1, h2]; rfl
  · rw [h1, h2]; exact hm
  · rw [h1, h2]; exact hm

theorem produceReads_frame (s : State) : (produceReads s).state.params = s.params ∧
    (produceReads s).state.inputs = s.inputs ∧ (produceReads s).state.connected = s.connected ∧
    (produceReads s).state.out = s.out ∧ (produceReads s).state.taken = s.taken ∧ (produceReads s).state.res = s.res ∧
    (produceReads s).state.ring = s.ring ∧ (produceReads s).state.rbWp = s.rbWp ∧
    (produceReads s).state.freeCtr = s.freeCtr := by
  have hm := produceReads_moved s
  rw [hm.params_eq, hm.inputs_eq, hm.connected_eq, hm.out_eq, hm.taken_eq, hm.res_eq, hm.ring_eq, hm.rbWp_eq, hm.freeCtr_eq]
  exact rebuildIfDue_frame s

/-- Emitting a token moves what emission moves, and RES. -/
theorem emitToken_onlyEmitted {m : Nat} (tok : Token m) (s : State) :
    OnlyEmitted { s with res := (emitToken tok s).res } (emitToken tok s) := by
  cases tok with
  | literal b => rfl
  | copy l d =>
    have h := emitCopy_onlyEmitted l.val d s
    unfold OnlyEmitted at h ⊢
    rw [emitToken, h]; rfl

theorem emitToken_out_prefix {m : Nat} (tok : Token m) (s : State) : s.out <+: (emitToken tok s).out := by
  cases tok with
  | literal b => exact List.prefix_append _ _
  | copy l d => exact emitCopy_out_prefix _ _ _

/-! ## STAT under the reads of an event -/

/-- The reads of an event set warnings only: what is set stays, FAIL, EOS and ILL are as they were, and so are the bits from
bit 6 up. -/
theorem ReadSteps.stat {s t : State} (h : ReadSteps s t) :
    (∀ b, statTest b s.stat = true → statTest b t.stat = true) ∧
    (∀ b, b ≠ .wcap → b ≠ .wqovf → b ≠ .wqempty → statTest b t.stat = statTest b s.stat) ∧
    (∀ lo len, 6 ≤ lo → t.stat.extractLsb' lo len = s.stat.extractLsb' lo len) := by
  induction h with
  | refl => exact ⟨fun _ => id, fun _ _ _ _ => rfl, fun _ _ _ => rfl⟩
  | moved _ hm _ ih => rw [hm.stat_eq]; exact ih
  | @header u tree n hd _ _ ih =>
    cases hd with
    | single x => cases tree <;> exact ih
    | lengths l =>
      have hs : (writeLens 0 l.toList u).stat = u.stat := by rw [writeLens_frame]
      simp only [applyHeader, treeBuild_stat, hs]
      refine ⟨fun b h => ?_, fun b h1 h2 h3 => ?_, fun lo len hl => ?_⟩
      · rw [statTest_buildStat, ih.1 b h]; rfl
      · rw [statTest_buildStat, ih.2.1 b h1 h2 h3]; simp [h1, h2, h3]
      · rw [extract_buildStat _ _ hl, ih.2.2 lo len hl]

/-! ## Reads on a list of bits leave a tail -/

theorem walkBits_suffix {rd : Nat → Slot} {v : Slot} {l rest : List Bool} {x : Symbol}
    (h : walkBits rd v l = some (x, rest)) : rest <:+ l := by
  induction l generalizing v with
  | nil => rw [walkBits] at h; split at h <;> cases h; exact List.suffix_rfl
  | cons b l ih =>
    rw [walkBits] at h
    split at h
    · cases h; exact List.suffix_rfl
    · exact (ih h).trans (List.suffix_cons _ _)

theorem progBits_suffix {α : Type} {p : BitProg α} {l rest : List Bool} {x : α} (h : progBits p l = some (x, rest)) :
    rest <:+ l := by
  induction p generalizing l with
  | ret a => rw [progBits] at h; cases h; exact List.suffix_rfl
  | bit k ih =>
    cases l with
    | nil => cases h
    | cons b l => exact (ih b h).trans (List.suffix_cons _ _)

theorem tokenBits_suffix {α : Type} {s : State} {p : TokProg α} {l rest : List Bool} {x : α}
    (h : s.tokenBits p l = some (x, rest)) : rest <:+ l := by
  induction p generalizing l with
  | ret a => rw [State.tokenBits] at h; cases h; exact List.suffix_rfl
  | bit k ih =>
    cases l with
    | nil => cases h
    | cons b l => exact (ih b h).trans (List.suffix_cons _ _)
  | offset k ih =>
    rw [State.tokenBits] at h
    cases hs : s.symbolBits .ot l with
    | none => rw [hs] at h; cases h
    | some q =>
      rw [hs] at h
      exact (ih q.1 h).trans (walkBits_suffix hs)

end Sys2Proof.Machine
end

