-- ==== Sys2Proof/Laws/InBounds.lean ====
section
/-! SUPPORT. Every operation over the four RAMs keeps them in canonical form and below their sizes (20_memory.md R87, R88), and
reset has them so. -/

namespace Sys2Proof.Machine

theorem State.memoryWf_iff (s : State) : s.memoryWf = true ↔
    (∀ t, Memory.wf resetSlot (s.params.cap t) (s.tree t) = true) ∧ Memory.wf 0 s.params.cltMax s.clt = true ∧
      Memory.wf s.params.ringFill Config.ringSize s.ring = true := by
  simp only [State.memoryWf, Bool.and_eq_true]
  constructor
  · rintro ⟨⟨⟨hc, ho⟩, hl⟩, hr⟩
    exact ⟨fun t => by cases t; exacts [hc, ho], hl, hr⟩
  · rintro ⟨ht, hl, hr⟩
    exact ⟨⟨⟨ht .ct, ht .ot⟩, hl⟩, hr⟩

theorem resetWith_memoryWf (p : Params) : (State.resetWith p).memoryWf = true := rfl

theorem newSession_memoryWf (s : State) : s.newSession.memoryWf = true := rfl

/-- What moves no RAM and no parameter keeps the form. -/
theorem State.memoryWf_congr {s t : State} (hp : t.params = s.params) (hct : t.ct = s.ct) (hot : t.ot = s.ot)
    (hclt : t.clt = s.clt) (hr : t.ring = s.ring) : t.memoryWf = s.memoryWf := by
  simp only [State.memoryWf, hp, hct, hot, hclt, hr]

theorem ringPush_memoryWf (b : Byte) {s : State} (h : s.memoryWf = true) : (ringPush b s).memoryWf = true := by
  rw [State.memoryWf_iff] at h ⊢
  exact ⟨fun t => by cases t; exacts [h.1 .ct, h.1 .ot], h.2.1, Memory.write_wf b s.rbWp.isLt h.2.2⟩

theorem emit_memoryWf (b : Byte) {s : State} (h : s.memoryWf = true) : (emit b s).memoryWf = true :=
  (State.memoryWf_congr rfl rfl rfl rfl rfl : (emit b s).memoryWf = (ringPush b s).memoryWf).trans (ringPush_memoryWf b h)

theorem emitCopy_memoryWf (n : Nat) (d : BitVec 16) {s : State} (h : s.memoryWf = true) :
    (emitCopy n d s).memoryWf = true := by
  induction n generalizing s with
  | zero => exact h
  | succ k ih => exact ih (emit_memoryWf _ h)

theorem setCodeLen_memoryWf (i : Nat) (v : Byte) {s : State} (hi : i < s.params.cltMax) (h : s.memoryWf = true) :
    (s.setCodeLen i v).memoryWf = true := by
  rw [State.memoryWf_iff] at h ⊢
  exact ⟨fun t => by cases t; exacts [h.1 .ct, h.1 .ot], Memory.write_wf v hi h.2.1, h.2.2⟩

theorem writeLens_memoryWf (i : Nat) (l : List Byte) {s : State} (hi : i + l.length ≤ s.params.cltMax)
    (h : s.memoryWf = true) : (writeLens i l s).memoryWf = true := by
  induction l generalizing i s with
  | nil => exact h
  | cons v l ih =>
    rw [List.length_cons] at hi
    exact ih (i + 1) (s := s.setCodeLen i v) (by show _ ≤ s.params.cltMax; omega) (setCodeLen_memoryWf i v (by omega) h)

/-- A tree RAM in its form may replace another. -/
theorem setTree_memoryWf (t : TreeSel) {m : Memory 16} {s : State} (hm : Memory.wf resetSlot (s.params.cap t) m = true)
    (h : s.memoryWf = true) : (s.setTree t m).memoryWf = true := by
  rw [State.memoryWf_iff] at h ⊢
  cases t
  · exact ⟨fun u => by cases u; exacts [hm, h.1 .ot], h.2⟩
  · exact ⟨fun u => by cases u; exacts [h.1 .ct, hm], h.2⟩

theorem treeReset_memoryWf (t : TreeSel) {s : State} (h : s.memoryWf = true) : (treeReset t s).memoryWf = true :=
  setTree_memoryWf t rfl h

theorem treeSingle_memoryWf (t : TreeSel) (x : Symbol) {s : State} (hp : s.params.wf = true) (h : s.memoryWf = true) :
    (treeSingle t x s).memoryWf = true :=
  setTree_memoryWf t (Memory.write_wf _ (by have := (Params.cap_bounds hp t).1; omega) rfl) h

theorem treeBuild_memoryWf (t : TreeSel) (nsym : Nat) {s : State} (hp : s.params.wf = true) (h : s.memoryWf = true) :
    (treeBuild t nsym s).memoryWf = true :=
  have hb := Params.cap_bounds hp t
  (State.memoryWf_congr rfl rfl rfl rfl rfl).trans (setTree_memoryWf t (buildTree_ok hb.1 hb.2 _).wf h)

theorem applyHeader_memoryWf (t : TreeSel) (n : Nat) (hd : Header n) {s : State} (hp : s.params.wf = true)
    (hn : n ≤ s.params.cltMax) (h : s.memoryWf = true) : (applyHeader t n hd s).memoryWf = true := by
  cases hd with
  | single x => exact treeSingle_memoryWf t x hp h
  | lengths l =>
    have hl : (writeLens 0 l.toList s).params = s.params := by rw [writeLens_frame]
    exact treeBuild_memoryWf t n (by rw [hl]; exact hp) (writeLens_memoryWf 0 _ (by simpa using hn) h)

end Sys2Proof.Machine
end

