-- ==== Sys2Proof/Laws/PerInstr.lean ====
section
/-! SUPPORT. For each command: the word the encoder gives it lies in the row of its opcode (30_encoding.md R111). -/

namespace Sys2Proof.Laws.EncodeMatchesRow

/-- The opcode of a command (30_encoding.md R111). -/
def opcode : Instr → BitVec 4
  | .init => 0x0
  | .rdbits _ => 0x1
  | .cltw _ _ => 0x2
  | .treset _ => 0x3
  | .tbuild _ _ => 0x4
  | .tsingle _ _ => 0x5
  | .decode _ => 0x6
  | .rpush _ => 0x7
  | .rread _ => 0x8
  | .lit _ => 0x9
  | .copy _ _ => 0xA
  | .rebuild => 0xB
  | .produce => 0xC
  | .reservedD _ => 0xD
  | .reservedE _ => 0xE
  | .reservedF _ => 0xF

/-- The word of `i` has the opcode of `i` and 0 in every reserved bit of its row. -/
def Statement (i : Instr) : Prop :=
  opField (encode i) = opcode i ∧ encode i &&& rowMask (opcode i) = rowMatch (opcode i)

/-- A word is in its row if its bits are, one by one: the mask of every row covers the opcode. -/
theorem of_bits {i : Instr}
    (h : ∀ j < 32, ((encode i).getLsbD j && (rowMask (opcode i)).getLsbD j) = (rowMatch (opcode i)).getLsbD j) :
    Statement i := by
  refine ⟨?_, BitVec.eq_of_getLsbD_eq fun j hj => by rw [BitVec.getLsbD_and]; exact h j hj⟩
  have hmask : ∀ op : BitVec 4, ∀ j < 4, (rowMask op).getLsbD (28 + j) = true := by decide
  ext j hj
  have := h (28 + j) (by omega)
  rw [hmask _ j hj, Bool.and_true] at this
  rw [opField, BitVec.getElem_extractLsb', this, rowMatch]
  simp [show 28 + j < 32 by omega, BitVec.getLsbD_eq_getElem hj]

theorem init : Statement .init := ⟨by decide, by decide⟩
theorem rebuild : Statement .rebuild := ⟨by decide, by decide⟩
theorem produce : Statement .produce := ⟨by decide, by decide⟩
theorem treset (t : TreeSel) : Statement (.treset t) := by cases t <;> exact ⟨by decide, by decide⟩
theorem decode (t : TreeSel) : Statement (.decode t) := by cases t <;> exact ⟨by decide, by decide⟩
theorem rdbits (nm1 : BitVec 4) : Statement (.rdbits nm1) := by revert nm1; unfold Statement; decide

theorem cltw (idx : BitVec 12) (len : Byte) : Statement (.cltw idx len) := by
  refine of_bits fun j hj => ?_
  interval_cases j <;> simp [encode, field, opcode, rowMask, rowMatch]

theorem tbuild (t : TreeSel) (nsym : BitVec 12) : Statement (.tbuild t nsym) := by
  cases t
  all_goals refine of_bits fun j hj => ?_
  all_goals interval_cases j <;> simp [encode, treeBit, field, opcode, rowMask, rowMatch]

theorem tsingle (t : TreeSel) (sym : Symbol) : Statement (.tsingle t sym) := by
  cases t
  all_goals refine of_bits fun j hj => ?_
  all_goals interval_cases j <;> simp [encode, treeBit, field, opcode, rowMask, rowMatch]

theorem rpush (b : Byte) : Statement (.rpush b) := by
  refine of_bits fun j hj => ?_
  interval_cases j <;> simp [encode, field, opcode, rowMask, rowMatch]

theorem rread (dist : BitVec 16) : Statement (.rread dist) := by
  refine of_bits fun j hj => ?_
  interval_cases j <;> simp [encode, field, opcode, rowMask, rowMatch]

theorem lit (b : Byte) : Statement (.lit b) := by
  refine of_bits fun j hj => ?_
  interval_cases j <;> simp [encode, field, opcode, rowMask, rowMatch]

theorem copy (len : BitVec 12) (dist : BitVec 16) : Statement (.copy len dist) := by
  refine of_bits fun j hj => ?_
  interval_cases j <;> simp [encode, field, opcode, rowMask, rowMatch]

theorem reservedD (rest : BitVec 28) : Statement (.reservedD rest) := by
  refine of_bits fun j hj => ?_
  interval_cases j <;> simp [encode, field, opcode, rowMask, rowMatch]

theorem reservedE (rest : BitVec 28) : Statement (.reservedE rest) := by
  refine of_bits fun j hj => ?_
  interval_cases j <;> simp [encode, field, opcode, rowMask, rowMatch]

theorem reservedF (rest : BitVec 28) : Statement (.reservedF rest) := by
  refine of_bits fun j hj => ?_
  interval_cases j <;> simp [encode, field, opcode, rowMask, rowMatch]

end Sys2Proof.Laws.EncodeMatchesRow
end

