-- ==== Sys2Proof/Laws/Source.lean ====
section
/-! SUPPORT. What a read leaves of the byte source's answers: a tail of them, and after end of input exactly the answers after
the first one (40_bitstream.md R143, R145, R146). -/

namespace Sys2Proof.Machine

theorem afterEof_suffix (l : List SrcAnswer) : afterEof l <:+ l := by
  induction l with
  | nil => exact List.suffix_rfl
  | cons a l ih =>
    cases a with
    | byte b => exact ih.trans (List.suffix_cons _ l)
    | eof => exact List.suffix_cons _ l

/-- A run from `s` leaves a tail of the answers with the same end of input ahead, or has taken everything up to it. -/
def Drains {α : Type} (r : Run α) (s : State) : Prop :=
  match r with
  | .ok _ t => afterEof t.src = afterEof s.src ∧ t.src <:+ s.src
  | .eos t => t.src = afterEof s.src

theorem Drains.ok {α : Type} (a : α) (s : State) : Drains (.ok a s) s := ⟨rfl, List.suffix_rfl⟩

/-- Either way a tail is left. -/
theorem Drains.suffix {α : Type} {r : Run α} {s : State} (h : Drains r s) : r.state.src <:+ s.src := by
  cases r with
  | ok a t => exact h.2
  | eos t =>
    have h : t.src = afterEof s.src := h
    exact h ▸ afterEof_suffix s.src

theorem Drains.after {α : Type} {r : Run α} {s t : State} (h : Drains r t) (ha : afterEof t.src = afterEof s.src)
    (hs : t.src <:+ s.src) : Drains r s := by
  cases r with
  | ok a u => exact ⟨h.1.trans ha, h.2.trans hs⟩
  | eos u => exact Eq.trans (show u.src = afterEof t.src from h) ha

theorem Drains.bind {α β : Type} {r : Run α} {s : State} {f : α → State → Run β} (h : Drains r s)
    (hf : ∀ a t, Drains (f a t) t) : Drains (r.bind f) s := by
  cases r with
  | ok a t => exact (hf a t).after h.1 h.2
  | eos t => exact h

/-- ReadBit keeps the answers, takes one byte, or takes end of input (40_bitstream.md R141, R143). -/
theorem readBit_drains (s : State) : Drains (readBit s) s := by
  have htake : ∀ t : State, Drains (takeBit t) t := by
    intro t
    rw [takeBit]
    split
    · exact ⟨rfl, List.suffix_rfl⟩
    · exact ⟨rfl, List.suffix_rfl⟩
  rw [readBit]
  split
  · exact htake s
  · refine Drains.bind ?_ fun _ t => htake t
    rw [pull]
    cases hs : s.src with
    | nil => show s.src = _; rw [hs]; rfl
    | cons a rest =>
      cases a with
      | byte b => exact ⟨by rw [hs]; rfl, by rw [hs]; exact List.suffix_cons _ rest⟩
      | eof => show rest = _; rw [hs]; rfl

theorem readBitsInto_drains (n : Nat) (v : Half) (s : State) : Drains (readBitsInto n v s) s := by
  induction n generalizing v s with
  | zero => exact .ok v s
  | succ k ih =>
    have h := readBit_drains s
    rw [readBitsInto]
    cases hr : readBit s with
    | ok b t => rw [hr] at h; exact (ih _ t).after h.1 h.2
    | eos t => rw [hr] at h; exact h

theorem walk_drains (t : TreeSel) (fuel : Nat) (v : Slot) (s : State) (hf : s.bitBudget < fuel) :
    Drains (walk t fuel v s) s := by
  induction fuel generalizing v s with
  | zero => omega
  | succ k ih =>
    rw [walk]
    split
    · exact .ok _ s
    · have h := readBit_drains s
      obtain ⟨b, rest, s1, -, he, -, -, -, hbud⟩ | ⟨-, -, he⟩ := readBit_cases s
      · rw [he] at h ⊢
        exact (ih _ s1 (by omega)).after h.1 h.2
      · rw [he] at h ⊢
        exact h

theorem decodeSym_drains (t : TreeSel) (s : State) : Drains (decodeSym t s) s := walk_drains t _ _ s (Nat.lt_succ_self _)

theorem runBits_drains {α : Type} (p : BitProg α) (s : State) : Drains (runBits p s) s := by
  induction p generalizing s with
  | ret a => exact .ok a s
  | bit k ih =>
    have h := readBit_drains s
    rw [runBits]
    cases hr : readBit s with
    | ok b t => rw [hr] at h; exact (ih b t).after h.1 h.2
    | eos t => rw [hr] at h; exact h

theorem runToken_drains {α : Type} (p : TokProg α) (s : State) : Drains (runToken p s) s := by
  induction p generalizing s with
  | ret a => exact .ok a s
  | bit k ih =>
    have h := readBit_drains s
    rw [runToken]
    cases hr : readBit s with
    | ok b t => rw [hr] at h; exact (ih b t).after h.1 h.2
    | eos t => rw [hr] at h; exact h
  | offset k ih =>
    have h := decodeSym_drains .ot s
    rw [runToken]
    cases hr : decodeSym .ot s with
    | ok x t => rw [hr] at h; exact (ih x t).after h.1 h.2
    | eos t => rw [hr] at h; exact h

theorem readTree_drains (t : TreeSel) (n : Nat) (s : State) : Drains (readTree t n s) s := by
  refine Drains.bind (runBits_drains _ s) fun h u => ⟨by simp, by simp⟩

/-- The reads of a rebuild event. -/
theorem rebuildReads_drains (p : Phase) (s : State) : Drains (rebuildReads p s) s := by
  cases p with
  | unbuilt => exact Drains.bind (readTree_drains _ _ s) fun _ t => readTree_drains _ _ t
  | build1 => exact readTree_drains _ _ s
  | build2 => exact readTree_drains _ _ s
  | build3 =>
    refine Drains.bind (readBit_drains s) fun f t => Drains.bind ?_ fun _ u => readTree_drains _ _ u
    cases f
    · exact .ok () t
    · exact readTree_drains _ _ t
  | steady =>
    refine Drains.bind (readBit_drains s) fun f t => ?_
    cases f
    · exact .ok () t
    · exact Drains.bind (readTree_drains _ _ t) fun _ u => readTree_drains _ _ u

theorem rebuildIfDue_drains (s : State) : Drains (rebuildIfDue s) s := by
  rw [rebuildIfDue]
  split
  · exact .ok _ s
  · exact Drains.bind (rebuildReads_drains _ s) fun _ t => ⟨rfl, List.suffix_rfl⟩

theorem produceReads_drains (s : State) : Drains (produceReads s) s :=
  Drains.bind (rebuildIfDue_drains s) fun _ t => Drains.bind (decodeSym_drains .ct t) fun _ u => runToken_drains _ u

end Sys2Proof.Machine
end

