-- ==== Sys2Proof/Laws/Step.lean ====
section
/-! SUPPORT. The inversion lemmas of exec, of one command and of step: every way each can end. -/

namespace Sys2Proof.Machine

/-- Every command answers a next state: its failures are next states (60_exceptions.md R309). -/
theorem exec_next (i : Instr) (s : State) : ∃ t, exec i s = .next t := by cases i <;> exact ⟨_, rfl⟩

/-- The cases of a command word: ignored, illegal, or run (60_exceptions.md R301, R308). -/
theorem runCommand_cases (w : Word) (s : State) :
    (s.failed = true ∧ w ≠ 0 ∧ runCommand w s = .next s) ∨
    ((s.failed = false ∨ w = 0) ∧ decode w = none ∧ runCommand w s = .next (s.raise .ill)) ∨
    (∃ i, (s.failed = false ∨ w = 0) ∧ decode w = some i ∧ runCommand w s = exec i s) := by
  by_cases h : (s.failed && decide (w ≠ 0)) = true
  · simp only [Bool.and_eq_true, decide_eq_true_eq] at h
    exact .inl ⟨h.1, h.2, by rw [runCommand, if_pos (by simpa using h)]⟩
  · have hor : s.failed = false ∨ w = 0 := by
      by_cases hw : w = 0
      · exact .inr hw
      · exact .inl (by cases hf : s.failed <;> simp_all)
    cases hd : decode w with
    | none => exact .inr (.inl ⟨hor, rfl, by rw [runCommand, if_neg h, hd]⟩)
    | some i => exact .inr (.inr ⟨i, hor, rfl, by rw [runCommand, if_neg h, hd]⟩)

/-- Every command word answers a next state. -/
theorem runCommand_next (w : Word) (s : State) : ∃ t, runCommand w s = .next t := by
  obtain ⟨-, -, h⟩ | ⟨-, -, h⟩ | ⟨i, -, -, h⟩ := runCommand_cases w s
  · exact ⟨_, h⟩
  · exact ⟨_, h⟩
  · rw [h]; exact exec_next i s

/-- The cases of a step that answers a next state. -/
theorem step_next_cases {s t : State} (h : step s = .next t) : s.params.wf = true ∧
    ((s.inputs = [] ∧ t = s) ∨
     (∃ w rest, (s.inputs = .command w :: rest ∨ s.inputs = .unanswered w :: rest) ∧
        runCommand w { s with inputs := rest } = .next t) ∨
     (∃ rest, s.inputs = .rst :: rest ∧ t = State.newSession { s with inputs := rest }) ∨
     (∃ w rest, s.inputs = .rstDuring w :: rest ∧ t = interruptCommand w { s with inputs := rest }) ∨
     (∃ a rest, s.inputs = .connect a :: rest ∧ t = { s with inputs := rest, connected := some a })) := by
  rw [step] at h
  split at h
  · rename_i hwf
    refine ⟨hwf, ?_⟩
    cases hin : s.inputs with
    | nil =>
      rw [hin] at h
      exact .inl ⟨rfl, (Host.Outcome.next.inj h).symm⟩
    | cons e rest =>
      rw [hin] at h
      simp only at h
      cases e with
      | command w => exact .inr (.inl ⟨w, rest, .inl rfl, h⟩)
      | early w => cases h
      | rst => exact .inr (.inr (.inl ⟨rest, rfl, (Host.Outcome.next.inj h).symm⟩))
      | rstDuring w => exact .inr (.inr (.inr (.inl ⟨w, rest, rfl, (Host.Outcome.next.inj h).symm⟩)))
      | unanswered w =>
        refine .inr (.inl ⟨w, rest, .inr rfl, ?_⟩)
        rw [takeInput] at h
        split at h
        · cases h
        · exact h
      | connect a => exact .inr (.inr (.inr (.inr ⟨a, rest, rfl, (Host.Outcome.next.inj h).symm⟩)))
  · cases h

/-- RST inside a command leaves the start of a session, whatever the command had moved (70_reset_and_hazards.md R330). -/
theorem interruptCommand_newSession (w : Word) (s : State) : ∃ u : State, interruptCommand w s = u.newSession ∧
    u.params = s.params ∧ u.inputs = s.inputs ∧ u.connected = s.connected ∧ u.taken = s.taken ∧
    s.out <+: u.out ∧ u.src <:+ s.src :=
  ⟨_, rfl, rfl, rfl, rfl, rfl, List.prefix_append _ _, List.drop_suffix _ _⟩

/-- A property that every session start has, that does not speak of the host's inputs, that a failure keeps, and that every
command keeps (run in a session that has not failed, or INIT) is kept by every step. -/
theorem step_preserves {P : State → Prop}
    (hin : ∀ s v c, P s → P { s with inputs := v, connected := c })
    (hnew : ∀ s : State, s.params.wf = true → P s.newSession)
    (hfail : ∀ s : State, s.failed = false → P s → P (s.raise .ill))
    (hexec : ∀ i (s t : State), s.params.wf = true → s.failed = false ∨ i = .init → exec i s = .next t → P s → P t)
    {s t : State} (h : step s = .next t) (hp : P s) : P t := by
  obtain ⟨hw, ⟨-, rfl⟩ | ⟨w, rest, -, hr⟩ | ⟨rest, -, rfl⟩ | ⟨w, rest, -, rfl⟩ | ⟨a, rest, -, rfl⟩⟩ := step_next_cases h
  · exact hp
  · have hp' : P { s with inputs := rest } := hin s rest s.connected hp
    obtain ⟨-, -, h1⟩ | ⟨hf, hd, h1⟩ | ⟨i, hf, hd, h1⟩ := runCommand_cases w { s with inputs := rest }
    · rw [h1] at hr; cases hr; exact hp'
    · rw [h1] at hr; cases hr
      refine hfail _ (hf.resolve_right ?_) hp'
      rintro rfl
      exact absurd hd (by decide)
    · rw [h1] at hr
      refine hexec i { s with inputs := rest } t hw (hf.imp_right ?_) hr hp'
      rintro rfl
      exact (Option.some.inj ((show decode 0 = some .init by decide).symm.trans hd)).symm
  · exact hnew _ hw
  · obtain ⟨u, hu, hpar, -⟩ := interruptCommand_newSession w { s with inputs := rest }
    rw [hu]
    exact hnew u (by rw [hpar]; exact hw)
  · exact hin s rest _ hp

end Sys2Proof.Machine
end

