-- ==== Sys2Proof/Tests/Slice0.lean ====
section
/-! SUPPORT. Tests whose expected results come from the spec: encodings written out by hand, vectors of 95_test_vectors.md, one
step each; and for every statement that has hypotheses a concrete case that meets them. -/

namespace Sys2Proof.Tests

open Sys2Proof Sys2Proof.Machine

/-! ## Helpers -/

/-- A block as section 0 of 95_test_vectors.md has it, right after reset, with the given stream. -/
def block (bytes : List Byte) : State :=
  { State.resetWith { resetParams with formats := .testVectors } with src := bytes.map .byte }

/-- Does one command end in a next state that `p` accepts? -/
def after (i : Instr) (s : State) (p : State → Bool) : Bool :=
  match exec i s with
  | .next t => p t
  | .fault _ => false
  | .refused _ => false

/-- Does one step end in a next state that `p` accepts? -/
def stepped (s : State) (p : State → Bool) : Bool :=
  match step s with
  | .next t => p t
  | .fault _ => false
  | .refused _ => false

/-- The block with the tree of TB-1 in OT: root → (0, node → (1, 2)), lengths 1, 2, 2. -/
def blockOneTwoTwo (bytes : List Byte) : State :=
  { block bytes with ot := [(0, 0x0001), (2, 0x0003), (3, 0x8001), (4, 0x8002)], clt := [(0, 1), (1, 2), (2, 2)] }

/-- The block with the trees of P3: CT = I1 I3 I5 L1 L2 L8 L9, OT = I1 L0 L1; phase Build1. -/
def blockP3 (bytes : List Byte) : State :=
  { block bytes with
    ct := [(0, 0x0001), (1, 0x0003), (2, 0x0005), (3, 0x8001), (4, 0x8002), (5, 0x8008), (6, 0x8009)]
    ot := [(0, 0x0001), (2, 0x8001)], rcPhase := .build1, stat := 0x0100, rcCount := 1022
    out := [0x41, 0x42], ring := [(0, 0x41), (1, 0x42)], rbWp := 2 }

/-- The failed block: EOS set. -/
def blockFailed : State := { block [] with stat := 0x0003 }

/-! ## Well-formedness: what the check refuses (30_encoding.md R114, R116; 00_scope.md R11) -/

theorem test_wf_cltw_index_at_clt_max : (Instr.cltw 16 1).wf 16 = false ∧ (Instr.cltw 15 5).wf 16 = true := by decide
theorem test_wf_tbuild_count_above_clt_max :
    (Instr.tbuild .ct 17).wf 16 = false ∧ (Instr.tbuild .ct 16).wf 16 = true := by decide
theorem test_wf_reserved_opcodes : (Instr.reservedD 0).wf 16 = false ∧ (Instr.reservedE 0).wf 16 = false ∧
    (Instr.reservedF 0xFFFFFFF).wf 16 = false := by decide
theorem test_wf_parameters : ({ resetParams with codeSyms := 0 } : Params).wf = false ∧
    ({ resetParams with codeSyms := 4096 } : Params).wf = false ∧ ({ resetParams with maxCopy := 4096 } : Params).wf = false ∧
    ({ resetParams with codeSyms := 4095, maxCopy := 4095 } : Params).wf = true := by decide

/-! ## Decoding: words written out from 30_encoding.md R102 to R112 (R124; 95_test_vectors.md EN-1 to EN-20) -/

/-- OP 0x0 in 31:28, every other bit 0 (R102); EN-1, EN-2. -/
theorem test_decode_init : decode 0b0000_0000000000000000000000000000 = some .init ∧ decode 0x00000001 = none := by decide
/-- OP 0x1, NM1 in 3:0 (R103); EN-3, EN-4. -/
theorem test_decode_rdbits :
    decode 0b0001_000000000000000000000000_1111 = some (.rdbits 15) ∧ decode 0x10000010 = none := by decide
/-- OP 0x2, IDX in 19:8, LEN in 7:0 (R104); EN-5, EN-7. -/
theorem test_decode_cltw : decode 0b0010_00000000_000000001111_00000101 = some (.cltw 15 5) ∧
    decode 0x200000FF = some (.cltw 0 255) ∧ decode 0x20100000 = none := by decide
/-- OP 0x3, T in bit 24 (R106); EN-8, EN-9. -/
theorem test_decode_treset : decode 0b0011_000_1_000000000000000000000000 = some (.treset .ot) ∧
    decode 0x30000000 = some (.treset .ct) ∧ decode 0x32000000 = none := by decide
/-- OP 0x4, T in bit 24, NSYM in 11:0 (R108); EN-10, EN-12. -/
theorem test_decode_tbuild : decode 0b0100_000_0_000000000000_000000010000 = some (.tbuild .ct 16) ∧
    decode 0x40000000 = some (.tbuild .ct 0) ∧ decode 0x41000003 = some (.tbuild .ot 3) ∧ decode 0x40001000 = none := by decide
/-- OP 0x5, T in bit 24, SYM in 14:0 (R107); EN-13, EN-14. -/
theorem test_decode_tsingle : decode 0b0101_000_0_000000000_111111111111111 = some (.tsingle .ct 32767) ∧
    decode 0x50008000 = none := by decide
/-- OP 0x6, T in bit 24 (R106); EN-15. -/
theorem test_decode_decode : decode 0b0110_000_1_000000000000000000000000 = some (.decode .ot) := by decide
/-- OP 0x7, BYTE in 7:0 (R109). -/
theorem test_decode_rpush : decode 0b0111_00000000000000000000_00010001 = some (.rpush 0x11) ∧
    decode 0x70000100 = none := by decide
/-- OP 0x8, DIST in 15:0 (R110). -/
theorem test_decode_rread : decode 0b1000_000000000000_0000000000000001 = some (.rread 1) ∧
    decode 0x80010000 = none := by decide
/-- OP 0x9, BYTE in 7:0 (R109); EN-16. -/
theorem test_decode_lit : decode 0b1001_00000000000000000000_01000001 = some (.lit 0x41) ∧ decode 0x90000100 = none := by decide
/-- OP 0xA, LEN in 27:16, DIST in 15:0 (R112); EN-17, EN-18. -/
theorem test_decode_copy : decode 0b1010_111111111111_0000000000000001 = some (.copy 4095 1) ∧
    decode 0xA000FFFF = some (.copy 0 65535) := by decide
/-- OP 0xB and 0xC, every other bit 0 (R102); EN-19. -/
theorem test_decode_rebuild_produce : decode 0b1011_0000000000000000000000000000 = some .rebuild ∧
    decode 0xB0000001 = none ∧ decode 0b1100_0000000000000000000000000000 = some .produce := by decide
/-- OP 0xD, 0xE, 0xF, any other bits (R114); EN-20. -/
theorem test_decode_reserved : decode 0xD0000000 = some (.reservedD 0) ∧ decode 0xE0000000 = some (.reservedE 0) ∧
    decode 0xFFFFFFFF = some (.reservedF 0xFFFFFFF) ∧ decodeLegal 16 0xFFFFFFFF = none := by decide
/-- The value checks of R116: EN-5, EN-6, EN-10, EN-11. -/
theorem test_decode_value_checks : decodeLegal 16 0x20000F05 = some (.cltw 15 5) ∧ decodeLegal 16 0x20001001 = none ∧
    decodeLegal 16 0x40000010 = some (.tbuild .ct 16) ∧ decodeLegal 16 0x40000011 = none := by decide
/-- The host's entries: the table's words are whole, and `withFetchWord` makes the word the next one run. -/
theorem test_decodeTableWord : decodeTableWord 32 0xA0040002 = some (.copy 4 2) ∧ decodeTableWord 32 0x00000000 = some .init := by
  decide
theorem test_step_runs_the_fetched_word :
    stepped (State.reset.withFetchWord 32 0x90000041) (fun t => t.out == [0x41] && t.inputs.isEmpty) = true := by decide

/-! ## One step per command -/

/-- EX-4: INIT leaves a failed session. -/
theorem test_init : after .init { block [0xFF] with stat := 0x0005, res := 7, rbWp := 9 }
    (fun t => t.stat == 0 && t.res == 0 && t.rbWp == 0) = true := by decide
/-- BR-1, second command: bits 3 to 9 of A5 3C are 0010100 = 20. -/
theorem test_rdbits : after (.rdbits 6) { block [0x3C] with brByte := 0xA5, brPos := 3, brValid := true }
    (fun t => t.res == 20 && t.brByte == 0x3C && t.brPos == 2 && t.brValid) = true := by decide
/-- BR-4: nine bits of one byte. -/
theorem test_rdbits_end_of_input : after (.rdbits 8) (block [0xA5])
    (fun t => t.res == 0 && t.stat == 0x0003 && t.brByte == 0xA5 && t.brPos == 0 && !t.brValid && t.src.isEmpty) = true := by
  decide
/-- The CLTW vectors of 95_test_vectors.md section 2.3: `cltw 15, 5` writes, `cltw 16, 1` raises ILL. -/
theorem test_cltw : after (.cltw 15 5) (block []) (fun t => t.clt == [(15, 5)] && t.stat == 0) = true ∧
    after (.cltw 16 1) (block []) (fun t => t.clt == [] && t.stat == 0x0005) = true := by decide
/-- TB-20. -/
theorem test_treset : after (.treset .ot) (blockOneTwoTwo []) (fun t => t.ot == [] && t.clt == [(0, 1), (1, 2), (2, 2)]) = true := by
  decide
/-- TB-5, lengths 1, 5: I1 L0 I3 I5 I7 L1 and WCAP. -/
theorem test_tbuild_capacity : after (.tbuild .ot 2) { block [] with clt := [(0, 1), (1, 5)] }
    (fun t => t.ot == [(0, 1), (2, 3), (3, 5), (4, 7), (5, 0x8001)] && t.stat == 0x0008) = true := by decide +kernel
/-- TB-6, lengths 1, 1, 1: I1 L0 L1 and WQEMPTY. -/
theorem test_tbuild_over_full : after (.tbuild .ot 3) { block [] with clt := [(0, 1), (1, 1), (2, 1)] }
    (fun t => t.ot == [(0, 1), (2, 0x8001)] && t.stat == 0x0020) = true := by decide +kernel
/-- TB-19. -/
theorem test_tsingle : after (.tsingle .ct 65) (block []) (fun t => t.ct == [(0, 0x8041)] && t.ot == []) = true := by decide
/-- DE-1, second DECODE: the code 10 is symbol 1. -/
theorem test_decode : after (.decode .ot) { blockOneTwoTwo [] with brByte := 0x58, brPos := 1, brValid := true }
    (fun t => t.res == 1 && t.brPos == 3 && t.stat == 0) = true := by decide
/-- DE-2: no bit left. -/
theorem test_decode_end_of_input : after (.decode .ot) (blockOneTwoTwo []) (fun t => t.stat == 0x0003 && t.res == 0) = true := by
  decide
/-- RG-1, third push; no output, no count. -/
theorem test_rpush : after (.rpush 0x33) { block [] with ring := [(0, 0x11), (1, 0x22)], rbWp := 2 }
    (fun t => t.ring == [(0, 0x11), (1, 0x22), (2, 0x33)] && t.rbWp == 3 && t.out == [] && t.rccnt == 0) = true := by decide
/-- RG-1: k = 8195 reads as 3, k = 0 as 8192. -/
theorem test_rread : after (.rread 8195) { block [] with ring := [(0, 0x11), (1, 0x22), (2, 0x33)], rbWp := 3 }
      (fun t => t.res == 0x11) = true ∧
    after (.rread 0) { block [] with ring := [(0, 0x11), (1, 0x22), (2, 0x33)], rbWp := 3 } (fun t => t.res == 0x20) = true := by
  decide
/-- P2, row 2. -/
theorem test_lit : after (.lit 0x61) (block [])
    (fun t => t.res == 1 && t.out == [0x61] && t.rbWp == 1 && t.rccnt == -1 && t.ring == [(0, 0x61)]) = true := by decide
/-- EM-7: three bytes at distance 3 after one byte; the third is the byte itself, and the fill is not listed. -/
theorem test_copy : after (.copy 3 3) { block [] with out := [0x41], ring := [(0, 0x41)], rbWp := 1, rcCount := -1 }
    (fun t => t.out == [0x41, 0x20, 0x20, 0x41] && t.res == 3 && t.rbWp == 4 && t.rccnt == -4 &&
      t.ring == [(0, 0x41), (3, 0x41)]) = true := by decide
/-- EM-6: distance 8193 reads as 1. -/
theorem test_copy_distance_wraps : after (.copy 2 8193) { block [] with out := [0x41], ring := [(0, 0x41)], rbWp := 1, rcCount := -1 }
    (fun t => t.out == [0x41, 0x41, 0x41] && t.res == 2) = true := by decide
/-- RB-1, row 1: the Unbuilt event reads 18 bits of 84 40 20, CT = L8, OT = L0. -/
theorem test_rebuild : after .rebuild (block [0x84, 0x40, 0x20])
    (fun t => t.res == 1 && t.stat == 0x0100 && t.rccnt == 1024 && t.brByte == 0x20 && t.brPos == 2 && t.brValid &&
      t.ct == [(0, 0x8008)] && t.ot == [] && t.rcPhase == .build1) = true := by decide +kernel
/-- RB-3: due after two LITs, no bit in the stream. -/
theorem test_rebuild_end_of_input : after .rebuild { block [] with res := 1, rcCount := -2, out := [0x41, 0x41] }
    (fun t => t.res == 1 && t.stat == 0x0003 && t.rccnt == -2 && t.rcPhase == .unbuilt) = true := by decide +kernel
/-- P3, row 4: symbol 8 is a copy of 3 bytes, offset symbol 1 is distance 2. -/
theorem test_produce : after .produce { blockP3 [0xC0] with brByte := 0x0D, brPos := 5, brValid := true }
    (fun t => t.res == 3 && t.out == [0x41, 0x42, 0x41, 0x42, 0x41] && t.rccnt == 1019 && t.stat == 0x0100 && t.brPos == 0 &&
      !t.brValid) = true := by decide +kernel
/-- PR-3: the code-tree header is cut short. -/
theorem test_produce_end_of_input : after .produce (block [0x36, 0xDB, 0x6D])
    (fun t => t.stat == 0x0003 && t.out == [] && t.res == 0 && t.ct == [] && t.clt == [] && t.rcPhase == .unbuilt &&
      t.rccnt == 0) = true := by decide +kernel
/-- EX-1, first word: a reserved opcode raises ILL. -/
theorem test_reserved : after (.reservedD 0) (block [0xFF]) (fun t => t.stat == 0x0005 && t.src == [.byte 0xFF]) = true ∧
    after (.reservedE 1) (block []) (fun t => t.stat == 0x0005) = true ∧
    after (.reservedF 0xFFFFFFF) (block []) (fun t => t.stat == 0x0005) = true := by decide
/-- EX-1 second word and EX-4: a failed session ignores RDBITS. -/
theorem test_failed_session_ignores : stepped { block [0xFF] with stat := 0x0005, inputs := [.command 0x10000000] }
    (fun t => t.res == 0 && t.stat == 0x0005 && t.src == [.byte 0xFF]) = true := by decide
/-- EX-5, second word: bit 25 set. -/
theorem test_illegal_word : stepped { block [] with inputs := [.command 0x32000000] }
    (fun t => t.stat == 0x0005 && t.inputs.isEmpty) = true := by decide
/-- 70_reset_and_hazards.md R343, 93_implementation_defined.md U16. -/
theorem test_early_and_unanswered : step { block [] with inputs := [.early 0] } = .refused .commandBeforeDone ∧
    step { block [] with inputs := [.unanswered 0x10000000] } = .fault .environmentNeverAnswers ∧
    stepped { block [] with inputs := [.unanswered 0x30000000] } (fun _ => true) = true := ⟨rfl, rfl, rfl⟩
/-- 45_session.md R281: INIT binds the source connected for the session. -/
theorem test_connect : stepped { block [0x58] with inputs := [.connect [.byte 0xA5]] }
      (fun t => t.connected == some [.byte 0xA5] && t.src == [.byte 0x58]) = true ∧
    after .init { block [0x58] with connected := some [.byte 0xA5] }
      (fun t => t.src == [.byte 0xA5] && t.connected == none) = true := by decide

/-! ## A case that meets the hypotheses of each statement that has some, each clause at the edge of its range -/

/-- EncodeOfDecodeIsTheWord. -/
theorem test_witness_encodeOfDecode : decode 0xA0040002 = some (.copy 4 2) := by decide
/-- DecodedFieldsAreTheFormatsBits, clause by clause, every field at its largest value. -/
theorem test_witness_decodedFields : decode 0x1000000F = some (.rdbits 15) ∧ decode 0x200FFFFF = some (.cltw 4095 255) ∧
    decode 0x51007FFF = some (.tsingle .ot 32767) ∧ decode 0x41000FFF = some (.tbuild .ot 4095) ∧
    decode 0x30000000 = some (.treset .ct) ∧ decode 0x61000000 = some (.decode .ot) ∧
    decode 0x700000FF = some (.rpush 255) ∧ decode 0x900000FF = some (.lit 255) ∧
    decode 0x8000FFFF = some (.rread 65535) ∧ decode 0xAFFFFFFF = some (.copy 4095 65535) := by decide
/-- StepRunsTheDecodedCommand: a word of a session that has not failed, and INIT's in one that has. -/
theorem test_witness_stepRuns :
    (let s : State := { block [] with inputs := [.command 0xB0000000] };
      s.params.wf = true ∧ s.failed = false ∧ decode 0xB0000000 = some .rebuild) ∧
    (let s : State := { blockFailed with inputs := [.command 0] };
      s.params.wf = true ∧ s.failed = true ∧ decode 0 = some .init) := by decide
/-- FailedSessionIgnoresEveryOtherWord: INIT's word with its lowest bit set. -/
theorem test_witness_failedIgnores : (let s : State := { blockFailed with inputs := [.command 1] };
    s.params.wf = true ∧ s.inputs = .command 1 :: [] ∧ s.failed = true ∧ (1 : Word) ≠ 0) := by decide
/-- IllegalWordSetsFailAndIllOnly: a reserved bit, a reserved opcode, an operand just out of range. -/
theorem test_witness_illegalWord : (let s : State := { block [] with inputs := [.command 0x10000010] };
    s.params.wf = true ∧ s.failed = false ∧ decodeLegal s.params.cltMax 0x10000010 = none ∧
      decodeLegal s.params.cltMax 0xD0000000 = none ∧ decodeLegal s.params.cltMax 0x40000011 = none) := by decide
/-- OperandsOutOfRangeRaiseIll: IDX = CLT_MAX, NSYM = CLT_MAX + 1, and a word of each kind. -/
theorem test_witness_operandsOutOfRange : (block []).params.cltMax ≤ (16 : BitVec 12).toNat ∧
    (block []).params.cltMax < (17 : BitVec 12).toNat ∧
    decode 0x20001001 = some (.cltw 16 1) ∧ decodeLegal (block []).params.cltMax 0x20001001 = none ∧
    decode 0x41000011 = some (.tbuild .ot 17) ∧ decodeLegal (block []).params.cltMax 0x41000011 = none ∧
    decode 0xD0000000 = some (.reservedD 0) ∧ decodeLegal (block []).params.cltMax 0xD0000000 = none := by decide
/-- IdleEngineWaitsAndEarlyCommandIsRefused. -/
theorem test_witness_idle : (block []).params.wf = true ∧ (block []).inputs = [] ∧
    ({ block [] with inputs := [.early 5] } : State).inputs = .early 5 :: [] := by decide
/-- RstActsAsInit. -/
theorem test_witness_rst : (block []).params.wf = true ∧
    ({ block [] with inputs := [.rst] } : State).inputs = .rst :: [] ∧
    ({ block [0xFF] with inputs := [.rstDuring 0x10000000] } : State).inputs = .rstDuring 0x10000000 :: [] := by decide
/-- InitKeepsWhatIsNotTheBlocks: no source connected, and one connected. -/
theorem test_witness_initKeeps : (block []).connected = none ∧
    ({ block [] with connected := some [.eof] } : State).connected = some [.eof] := by decide
/-- ResetGivesTheResetTable: a reset block, and what INIT leaves of another. -/
theorem test_witness_reset : block [] = State.resetWith (block []).params ∧
    (∃ s u : State, u.params = s.params ∧ exec .init u = .next s) := ⟨rfl, ⟨_, block [0xFF], rfl, rfl⟩⟩
/-- OnlyInitOrResetLeavesAFailedSession. -/
theorem test_witness_leavesFailed : ∃ t, step { blockFailed with inputs := [.command 0] } = .next t ∧
    ({ blockFailed with inputs := [.command 0] } : State).failed = true ∧ t.failed = false := ⟨_, rfl, by decide, by decide⟩
/-- RdbitsReadsTheNextBits, bits enough: the largest count with just enough bits, the smallest with one. -/
theorem test_witness_rdbits : (15 : BitVec 4).toNat + 1 ≤ (block [0xA5, 0x3C]).pendingBits.length ∧
    (0 : BitVec 4).toNat + 1 ≤ ({ block [] with brByte := 1, brPos := 7, brValid := true } : State).pendingBits.length := by
  decide
/-- RdbitsReadsTheNextBits, end of input: nine bits of eight, one bit of none. -/
theorem test_witness_rdbitsEnd : ReaderOk (block [0xA5]) ∧ (block [0xA5]).pendingBits.length < (8 : BitVec 4).toNat + 1 ∧
    ReaderOk (block []) ∧ (block []).pendingBits.length < (0 : BitVec 4).toNat + 1 :=
  ⟨fun _ => rfl, by decide, fun _ => rfl, by decide⟩
/-- StepKeepsReaderPosition, StepKeepsStatusConsistent, StepKeepsMemoriesInBounds, StepKeepsTreesInBounds,
StepKeepsTheRebuildSchedule: a step that reads bits and builds trees, from a state that meets every invariant. -/
theorem test_witness_invariants : (let s : State := { block [0x84, 0x40, 0x20] with inputs := [.command 0xB0000000] };
    (∃ t, step s = .next t) ∧ ReaderOk s ∧ ReaderLazy s ∧ StatusOk s ∧ s.memoryWf = true ∧ TreesOk s ∧ s.params.overshoot = .carry ∧
      ScheduleOk s) := by
  refine ⟨⟨_, rfl⟩, fun _ => rfl, ⟨fun h => absurd h (by decide), fun h => absurd rfl h⟩, ⟨rfl, rfl, rfl, rfl, rfl⟩, rfl, ?_, rfl, fun _ => ⟨0, rfl, by decide⟩⟩
  intro t i _ hl
  exfalso
  have h : ({ block [0x84, 0x40, 0x20] with inputs := [.command 0xB0000000] } : State).slot t i = resetSlot := by
    cases t <;> (rw [State.slot]; split <;> rfl)
  rw [h] at hl
  exact absurd hl (by decide)
/-- TheStreamIsNeverRewound. -/
theorem test_witness_neverRewound : ∃ t, exec (.rdbits 7) (block [0xA5]) = .next t ∧ Instr.rdbits 7 ≠ .init ∧
    statTest .eos t.stat = false := ⟨_, rfl, by decide, by decide⟩
/-- OnlyFourCommandsReadBits: a command that is not INIT, and INIT with no source connected. -/
theorem test_witness_onlyFourRead : (∃ t, exec (.lit 0x41) (block [0xA5]) = .next t) ∧
    (∃ t, exec .init (block [0xA5]) = .next t) ∧ (block [0xA5]).connected = none := ⟨⟨_, rfl⟩, ⟨_, rfl⟩, rfl⟩
/-- CltwWritesOneEntry: the last entry and the first, and the first index that is none. -/
theorem test_witness_cltw : (15 : BitVec 12).toNat < (block []).params.cltMax ∧
    (0 : BitVec 12).toNat < (block []).params.cltMax ∧ (block []).params.cltMax ≤ (16 : BitVec 12).toNat := by decide
/-- TsingleMakesASingleLeaf, SingleLeafDecodesWithoutABit: both clauses. -/
theorem test_witness_singleLeaf : (block []).params.wf = true ∧ (∃ t, exec (.tsingle .ct 65) (block []) = .next t) ∧
    (∀ i, (block []).slot .ot i = 0x8000) :=
  ⟨rfl, ⟨_, rfl⟩, fun i => by rw [State.slot]; split <;> rfl⟩
/-- TbuildMovesItsTreeAndWarningsOnly: NSYM = CLT_MAX and NSYM = 0. -/
theorem test_witness_tbuild : (16 : BitVec 12).toNat ≤ (block []).params.cltMax ∧
    (0 : BitVec 12).toNat ≤ (block []).params.cltMax := by decide
/-- BuilderDropsAndWarns: 31 and 32 queued slots; a level that just fits 15 slots and one that just does not; an empty queue and
one with a slot. -/
theorem test_witness_builderDrops : ({ Build.start with queue := List.replicate 31 1 } : Build).queue.length < 32 ∧
    32 ≤ ({ Build.start with queue := List.replicate 32 1 } : Build).queue.length ∧
    15 < ({ Build.start with queue := [12, 13], alloc := 12 } : Build).alloc + 2 * 2 ∧
    ({ Build.start with queue := [9, 10], alloc := 11 } : Build).alloc + 2 * 2 ≤ 15 ∧
    ({ Build.start with queue := [] } : Build).queue = [] ∧ Build.start.queue = 0 :: [] := by decide
/-- BuildDependsOnItsLengthsOnly: the trees, the stream and an entry beyond the count differ. -/
theorem test_witness_buildDepends :
    (let s : State := blockOneTwoTwo [];
     let s' : State := { block [0x58] with clt := [(0, 1), (1, 2), (2, 2), (3, 9)] };
     s.params.cap .ot = s'.params.cap .ot ∧ (3 : BitVec 12).toNat ≤ s.params.cltMax ∧ (3 : BitVec 12).toNat ≤ s'.params.cltMax ∧
      (∀ i < (3 : BitVec 12).toNat, s.codeLen i = s'.codeLen i) ∧ (∃ t, exec (.tbuild .ot 3) s = .next t) ∧
      (∃ t, exec (.tbuild .ot 3) s' = .next t) ∧ s.stat = s'.stat) :=
  ⟨rfl, by decide, by decide, by decide, ⟨_, rfl⟩, ⟨_, rfl⟩, rfl⟩
/-- BuiltLeavesAreUsedSymbols: slot 4, a leaf of symbol 2, and slot 14, at its reset value. -/
theorem test_witness_builtLeaves : ∃ t, exec (.tbuild .ot 3) (blockOneTwoTwo []) = .next t ∧
    (blockOneTwoTwo []).params.wf = true ∧ (3 : BitVec 12).toNat ≤ (blockOneTwoTwo []).params.cltMax ∧
    isLeaf (t.slot .ot 4) = true ∧ isLeaf (t.slot .ot 14) = true :=
  ⟨_, rfl, by decide, by decide, by decide +kernel, by decide +kernel⟩
/-- EveryUsedSymbolGetsACodeOfItsLength: no warning is set, and three symbols are used, two of one length and one shorter. -/
theorem test_witness_everyUsedSymbol : ∃ t, exec (.tbuild .ot 3) (blockOneTwoTwo []) = .next t ∧
    (blockOneTwoTwo []).params.wf = true ∧ (3 : BitVec 12).toNat ≤ (blockOneTwoTwo []).params.cltMax ∧
    statTest .wcap t.stat = false ∧ statTest .wqovf t.stat = false ∧ statTest .wqempty t.stat = false ∧
    2 < (3 : BitVec 12).toNat ∧ (blockOneTwoTwo []).codeLen 1 ≠ 0 ∧ (blockOneTwoTwo []).codeLen 2 = (blockOneTwoTwo []).codeLen 1 ∧
    (blockOneTwoTwo []).codeLen 0 ≠ 0 ∧ ((blockOneTwoTwo []).codeLen 0).toNat < ((blockOneTwoTwo []).codeLen 1).toNat :=
  ⟨_, rfl, by decide, by decide, by decide +kernel, by decide +kernel, by decide +kernel, by decide, by decide, by decide, by decide, by decide⟩
/-- The codes of the lengths 1, 2, 2 are 0, 10, 11 (41_tree_builder.md R180). -/
theorem test_codes_one_two_two : (List.range 3).map (fun i => takenCodes (blockOneTwoTwo []).codeLen 3
    ((blockOneTwoTwo []).codeLen i).toNat i) = [0b0, 0b10, 0b11] := by decide
/-- UnusedTableDecodesOneBitToZero: TB-4, and the smallest tree that has room. -/
theorem test_witness_unusedTable :
    3 ≤ (block []).params.cap .ot ∧ (3 : BitVec 12).toNat ≤ (block []).params.cltMax ∧
    (∀ i < (3 : BitVec 12).toNat, (block []).codeLen i = 0) ∧
    3 ≤ ({ resetParams with codeSyms := 2 } : Params).cap .ct := by decide
/-- LengthsOneTwoTwoBuildTheExampleTree. -/
theorem test_witness_exampleTree : 5 ≤ (blockOneTwoTwo []).params.cap .ot ∧ (blockOneTwoTwo []).codeLen 0 = 1 ∧
    (blockOneTwoTwo []).codeLen 1 = 2 ∧ (blockOneTwoTwo []).codeLen 2 = 2 := by decide
/-- DecodeWalksFromTheRoot, a symbol: the code 11 of symbol 2, no bit after it; bits are read. -/
theorem test_witness_decodeWalks :
    ({ blockOneTwoTwo [] with brByte := 0x03, brPos := 6, brValid := true } : State).symbolBits .ot
      ({ blockOneTwoTwo [] with brByte := 0x03, brPos := 6, brValid := true } : State).pendingBits = some (2, []) := by decide
/-- DecodeWalksFromTheRoot, end of input: one bit, inside the walk. -/
theorem test_witness_decodeEnd :
    (let s : State := { blockOneTwoTwo [] with brByte := 0x01, brPos := 7, brValid := true };
     ReaderOk s ∧ s.symbolBits .ot s.pendingBits = none) := ⟨fun h => absurd h (by decide), by decide⟩
/-- WalkReadsFewerBitsThanTheCapacity: a tree in bounds in which a walk reads a bit. -/
theorem test_witness_walkBound :
    (let s : State := { block [] with ot := [(0, 0x0001)] };
     s.params.wf = true ∧ TreesOk s ∧ s.symbolBits .ot [true] = some (0, [])) := by
  refine ⟨rfl, ?_, by decide⟩
  intro t i hi hl
  cases t with
  | ct =>
    exfalso
    have h : ({ block [] with ot := [(0, 0x0001)] } : State).slot .ct i = resetSlot := by rw [State.slot]; split <;> rfl
    rw [h] at hl
    exact absurd hl (by decide)
  | ot =>
    have hi' : i < 15 := hi
    interval_cases i <;> first | (exact absurd hl (by decide)) | decide
/-- HistoryReadsBackThePushes: commands that push by RPUSH and by LIT, with another between; the nearest byte and the oldest
slot; pushes only. -/
theorem test_witness_history : (∃ s0, exec .init (block []) = .next s0 ∧
      pushedBytes [.rpush 0x11, .treset .ct, .lit 0x22] s0 = [0x11, 0x22]) ∧
    Instr.init ∉ [.rpush 0x11, .treset .ct, .lit 0x22] ∧ 1 ≤ 1 ∧ 8192 ≤ 8192 ∧
    [.rpush 0x11, .rpush 0x22] = ([0x11, 0x22] : List Byte).map Instr.rpush := ⟨⟨_, rfl, by decide +kernel⟩, by decide⟩
/-- CopyEmitsAndRepeats: a distance 0 reads as 8192, a distance 8193 as 1; a byte behind the copy and one before it. -/
theorem test_witness_copy : 8192 % 8192 = (0 : BitVec 16).toNat % 8192 ∧ 1 % 8192 = (8193 : BitVec 16).toNat % 8192 ∧
    4 ≤ (4 : BitVec 12).toNat ∧ (4 : BitVec 12).toNat < 5 := by decide
/-- ReadTreeBuildsWhatTheHeaderSays: a `Single` header, a `Lengths` header and one cut short (hdr_test). -/
theorem test_witness_readTree : (block []).params.wf = true ∧ 2 ≤ (block []).params.cltMax ∧
    progBits (treeHeader (block []).params .ot 2) (block [0x84, 0x00]).pendingBits =
      some (.single 8, List.replicate 7 false) ∧
    progBits (treeHeader (block []).params .ot 2) (block [0x12]).pendingBits = some (.lengths #v[1, 1], [false]) ∧
    progBits (treeHeader (block []).params .ot 2) (block []).pendingBits = none := by decide +kernel
/-- RebuildNotDueGivesZero: the smallest count at which nothing is due. -/
theorem test_witness_rebuildNotDue : 0 < ({ block [] with rcCount := 1 } : State).rcCount.toInt := by decide
/-- UnbuiltEventReadsBothTrees: RB-1's first event, S(8) S(0), at count 0. -/
theorem test_witness_unbuiltEvent :
    (let s : State := block [0x84, 0x40, 0x20];
     s.rcPhase = .unbuilt ∧ s.rcCount.toInt ≤ 0 ∧
      (∃ hc ho r1 r2, progBits (treeHeader s.params .ct s.params.codeSyms) s.pendingBits = some (hc, r1) ∧
        progBits (treeHeader s.params .ot 5) r1 = some (ho, r2))) :=
  ⟨rfl, by decide, .single 8, .single 0, _, _, by rfl, by rfl⟩
/-- BuildEventsReadTheOffsetTreeOnly: S(0) in Build1, S(0) in Build2. -/
theorem test_witness_buildEvents :
    (let s : State := { block [0x80, 0x00] with rcPhase := .build1 };
     s.rcPhase = .build1 ∧ s.rcCount.toInt ≤ 0 ∧ ∃ (h : Header 6) (rest : List Bool),
       progBits (treeHeader s.params .ot 6) s.pendingBits = some (h, rest)) ∧
    (let s : State := { block [0x80, 0x00] with rcPhase := .build2, rcCount := -1 };
     s.rcPhase = .build2 ∧ s.rcCount.toInt ≤ 0 ∧ ∃ (h : Header 7) (rest : List Bool),
       progBits (treeHeader s.params .ot 7) s.pendingBits = some (h, rest)) :=
  ⟨⟨rfl, by decide, .single 0, _, by rfl⟩, ⟨rfl, by decide, .single 0, _, by rfl⟩⟩
/-- Build3EventReadsAFlagAndTheOffsetTree: the flag 0 and S(0), and the flag 1, S(0) and S(0). -/
theorem test_witness_build3Event :
    (let s : State := { block [0x40, 0x00] with rcPhase := .build3 };
     s.rcPhase = .build3 ∧ s.rcCount.toInt ≤ 0 ∧ ∃ r1 ho r2, s.pendingBits = false :: r1 ∧
       progBits (treeHeader s.params .ot 8) r1 = some (ho, r2)) ∧
    (let s : State := { block [0xC0, 0x20, 0x00] with rcPhase := .build3 };
     s.rcPhase = .build3 ∧ s.rcCount.toInt ≤ 0 ∧ ∃ hc r0 r1 ho r2, s.pendingBits = true :: r0 ∧
       progBits (treeHeader s.params .ct s.params.codeSyms) r0 = some (hc, r1) ∧
       progBits (treeHeader s.params .ot 8) r1 = some (ho, r2)) :=
  ⟨⟨rfl, by decide, _, .single 0, _, by rfl, by rfl⟩,
   ⟨rfl, by decide, .single 0, _, _, .single 0, _, by rfl, by rfl, by rfl⟩⟩
/-- SteadyEventReadsBothTreesOrNone: the flag 0, and the flag 1, S(0) and S(0). -/
theorem test_witness_steadyEvent :
    (let s : State := { block [0x00] with rcPhase := .steady };
     s.rcPhase = .steady ∧ s.rcCount.toInt ≤ 0 ∧ ∃ r, s.pendingBits = false :: r) ∧
    (let s : State := { block [0xC0, 0x20, 0x00] with rcPhase := .steady };
     s.rcPhase = .steady ∧ s.rcCount.toInt ≤ 0 ∧ ∃ hc r0 r1 ho r2, s.pendingBits = true :: r0 ∧
       progBits (treeHeader s.params .ct s.params.codeSyms) r0 = some (hc, r1) ∧
       progBits (treeHeader s.params .ot 8) r1 = some (ho, r2)) :=
  ⟨⟨rfl, by decide, _, by rfl⟩, ⟨rfl, by decide, .single 0, _, _, .single 0, _, by rfl, by rfl, by rfl⟩⟩
/-- EventThatMeetsEndOfInputKeepsTheSchedule: no bit at all (the code-tree header is cut short); S(8) only (the offset-tree
header is); the flag 1 and S(8) only in Build3; the flag 0 only in Build3; no bit in Build1. -/
theorem test_witness_eventEnds :
    (∃ t, exec .rebuild (block []) = .next t ∧ (block []).failed = false ∧ t.failed = true ∧ (block []).rcPhase = .unbuilt ∧
      progBits (treeHeader (block []).params .ct (block []).params.codeSyms) (block []).pendingBits = none) ∧
    (∃ t hc r1, exec .rebuild (block [0x84, 0x00]) = .next t ∧ (block [0x84, 0x00]).failed = false ∧ t.failed = true ∧
      progBits (treeHeader (block []).params .ct (block []).params.codeSyms) (block [0x84, 0x00]).pendingBits =
        some (hc, r1)) ∧
    (let s : State := { block [0xC2, 0x00] with rcPhase := .build3 };
     ∃ t r0, exec .rebuild s = .next t ∧ s.failed = false ∧ t.failed = true ∧ s.pendingBits = true :: r0) ∧
    (let s : State := { block [0x40] with rcPhase := .build3 };
     ∃ t, exec .rebuild s = .next t ∧ s.failed = false ∧ t.failed = true ∧ s.pendingBits.head? = some false) ∧
    (let s : State := { block [] with rcPhase := .build1, rcCount := -5 };
     ∃ t, exec .rebuild s = .next t ∧ s.failed = false ∧ t.failed = true) :=
  ⟨⟨_, rfl, by decide, by decide +kernel, rfl, by rfl⟩, ⟨_, .single 8, _, rfl, by decide, by decide +kernel, by rfl⟩,
   ⟨_, _, rfl, by decide, by decide +kernel, by rfl⟩, ⟨_, rfl, by decide, by decide +kernel, by rfl⟩,
   ⟨_, rfl, by decide, by decide +kernel⟩⟩
/-- OnlyRebuildAndProduceRunAnEvent: LIT, COPY and a command that is neither, with an event due. -/
theorem test_witness_onlyRebuild : (∃ t, exec (.lit 0x41) (block []) = .next t) ∧
    (∃ t, exec (.copy 4095 0) (block []) = .next t) ∧ (∃ t, exec (.rpush 0x41) (block []) = .next t) ∧
    (block []).rcCount.toInt ≤ 0 := ⟨⟨_, rfl⟩, ⟨_, rfl⟩, ⟨_, rfl⟩, by decide⟩
/-- ProduceEmitsTheTokenOfTheNextSymbol: symbol 1 with bits 00, a literal; symbol 8 with bits 10 1, a copy (P3). -/
theorem test_witness_produceToken :
    (blockP3 [0x00]).params.wf = true ∧ 0 < (blockP3 [0x00]).rcCount.toInt ∧
    (∃ r1, (blockP3 [0x00]).symbolBits .ct (blockP3 [0x00]).pendingBits = some (1, r1) ∧
      (blockP3 [0x00]).tokenBits (pm2Token (blockP3 [0x00]).params 1) r1 = some (.literal 0x41, r1)) ∧
    (∃ r1 r2, (blockP3 [0xA0]).symbolBits .ct (blockP3 [0xA0]).pendingBits = some (8, r1) ∧
      (blockP3 [0xA0]).tokenBits (pm2Token (blockP3 [0xA0]).params 8) r1 = some (.copy 3 2, r2)) :=
  ⟨rfl, by decide, ⟨_, by rfl, by rfl⟩, ⟨_, _, by rfl, by rfl⟩⟩
/-- ProduceIsRebuildThenOneUnit: no event is due and the stream has a unit (P3), so REBUILD leaves the trees and the stream. -/
theorem test_witness_produceIsRebuild : ∃ r r1, exec .rebuild (blockP3 [0x00]) = .next r ∧
    (blockP3 [0x00]).params.wf = true ∧ (blockP3 [0x00]).failed = false ∧ r.failed = false ∧
    r.symbolBits .ct r.pendingBits = some (1, r1) ∧
    r.tokenBits (pm2Token (blockP3 [0x00]).params 1) r1 = some (.literal 0x41, r1) :=
  ⟨_, _, rfl, rfl, by decide, by decide, by rfl, by rfl⟩
/-- ProduceIsRebuildThenOneUnit, ProduceEmitsAllOrNothing: an event runs (P4, row 2), then every symbol is 8. -/
theorem test_witness_produceWithEvent :
    after .rebuild (block [0x84, 0x40, 0x20]) (fun r => !r.failed &&
      (match r.symbolBits .ct r.pendingBits with
       | some (x, r1) => x == 8 && (r.tokenBits (pm2Token (block []).params x) r1).isSome
       | none => false)) = true ∧ (block [0x84, 0x40, 0x20]).failed = false ∧
    (∃ t, exec .produce (block [0x84, 0x40, 0x20]) = .next t) := ⟨by decide +kernel, by decide, ⟨_, rfl⟩⟩
/-- StatusBitsAreSticky: a TBUILD with WCAP set. -/
theorem test_witness_sticky : ∃ t, exec (.tbuild .ot 0) { block [] with stat := 0x0008 } = .next t ∧
    Instr.tbuild .ot 0 ≠ .init ∧ statTest .wcap ({ block [] with stat := 0x0008 } : State).stat = true :=
  ⟨_, rfl, by decide, by decide⟩
/-- FailingCommandLeavesResult: end of input and an illegal operand. -/
theorem test_witness_failing : (∃ t, exec (.rdbits 0) (block []) = .next t ∧ (block []).failed = false ∧ t.failed = true) ∧
    (∃ t, exec (.cltw 16 0) (block []) = .next t ∧ (block []).failed = false ∧ t.failed = true) :=
  ⟨⟨_, rfl, by decide, by decide⟩, ⟨_, rfl, by decide, by decide⟩⟩
/-- OneFailureAtMost: a word that meets end of input, an illegal word. -/
theorem test_witness_oneFailure : StatusOk (block []) ∧ (block []).failed = false ∧
    (∃ t, runCommand 0x10000000 (block []) = .next t ∧ t.failed = true) ∧
    (∃ t, runCommand 0xD0000000 (block []) = .next t ∧ t.failed = true) :=
  ⟨⟨rfl, rfl, rfl, rfl, rfl⟩, by decide, ⟨_, rfl, by decide⟩, ⟨_, rfl, by decide⟩⟩
/-- ParametersAndEmittedBytesStay: a step that emits, and INIT after it. -/
theorem test_witness_emittedStay : (∃ t, step { block [] with inputs := [.command 0x90000041] } = .next t ∧ t.out = [0x41]) ∧
    (∃ t, step { block [] with out := [0x41], inputs := [.command 0] } = .next t ∧ t.taken = [0x41] ∧ t.out = []) :=
  ⟨⟨_, rfl, by decide⟩, ⟨_, rfl, by decide, by decide⟩⟩

end Sys2Proof.Tests
end

section
/-! SUPPORT. What a step can refuse for: the parameters (00_scope.md R11), and an input presented too early. -/

namespace Sys2Proof.Machine

/-- `Params.wf` says the ranges of 00_scope.md R11. -/
theorem Params.wf_iff (p : Params) : p.wf = true ↔ 1 ≤ p.codeSyms ∧ p.codeSyms ≤ 4095 ∧ p.maxCopy ≤ 4095 := by
  simp [Params.wf, and_assoc]

/-- The only input of the host that is refused is a command before CMD_DONE (70_reset_and_hazards.md R343). -/
theorem takeInput_refused {e : HostInput} {s : State} {r : Refusal} (h : takeInput e s = .refused r) :
    r = .commandBeforeDone := by
  cases e with
  | command w =>
    obtain ⟨t, ht⟩ := runCommand_next w s
    rw [takeInput, ht] at h
    cases h
  | early w => exact (Host.Outcome.refused.inj h).symm
  | rst => cases h
  | rstDuring w => cases h
  | unanswered w =>
    obtain ⟨t, ht⟩ := runCommand_next w s
    rw [takeInput, ht] at h
    split at h <;> cases h
  | connect answers => cases h

/-- With parameters in range, a step refuses nothing but a command before CMD_DONE. -/
theorem step_refused_of_wf {s : State} {r : Refusal} (hwf : s.params.wf = true) (h : step s = .refused r) :
    r = .commandBeforeDone := by
  rw [step, if_pos hwf] at h
  split at h
  · cases h
  · exact takeInput_refused h

/-- The first check of a step is that of the parameters (93_implementation_defined.md U12). -/
theorem step_of_not_wf {s : State} (hwf : ¬ s.params.wf = true) : step s = .refused .parametersOutOfRange := by
  rw [step, if_neg hwf]

/-- Settles O11: parameters outside R11 are refused before any input is looked at, and no input is refused for that reason. -/
theorem parametersOutsideTheirRangesAreRefused : Obligations.ParametersOutsideTheirRangesAreRefused := by
  intro s
  rw [← Params.wf_iff]
  constructor
  · intro h hwf
    exact Refusal.noConfusion (step_refused_of_wf hwf h)
  · exact step_of_not_wf

end Sys2Proof.Machine
end

section
/-! SUPPORT. The start of a session, which is also the state after reset: the table of 10_state.md R52, and the invariants. -/

namespace Sys2Proof.Machine

/-! ## The table of R52 -/

/-- A block right after reset is at the start of a session, so what holds at every start holds after reset. -/
theorem State.newSession_resetWith (p : Params) : (State.resetWith p).newSession = State.resetWith p := rfl

@[simp] theorem State.newSession_slot (s : State) (u : TreeSel) (i : Nat) : s.newSession.slot u i = resetSlot := by
  rw [State.slot]
  split
  · cases u <;> rfl
  · rfl

@[simp] theorem State.newSession_codeLen (s : State) (i : Nat) : s.newSession.codeLen i = 0 := rfl

@[simp] theorem State.newSession_ringAt (s : State) (i : Nat) : s.newSession.ringAt i = s.params.ringFill := rfl

/-- Settles O16: both ways of reaching the table are starts of a session. -/
theorem resetGivesTheResetTable : Obligations.ResetGivesTheResetTable := by
  refine ⟨rfl, fun s hs => ?_⟩
  have hstart : ∃ u : State, s = u.newSession := by
    obtain hreset | ⟨u, -, hinit⟩ := hs
    · exact ⟨State.resetWith s.params, hreset⟩
    · exact ⟨u, (Host.Outcome.next.inj hinit).symm⟩
  obtain ⟨u, rfl⟩ := hstart
  exact ⟨rfl, rfl, rfl, u.newSession_slot, u.newSession_codeLen, u.newSession_ringAt, rfl, rfl, rfl, rfl, rfl, rfl⟩

/-! ## The invariants -/

/-- No bit of STAT is set. -/
theorem State.newSession_statTest (s : State) (b : StatBit) : statTest b s.newSession.stat = false := by
  simp [statTest]

@[simp] theorem State.newSession_failed (s : State) : s.newSession.failed = false := s.newSession_statTest .fail

theorem StatusOk.newSession (s : State) : StatusOk s.newSession where
  phase := by rw [State.newSession_stat, State.newSession_rcPhase]; decide
  reservedLow := by rw [State.newSession_stat]; decide
  reservedHigh := by rw [State.newSession_stat]; decide
  cause := by simp only [State.newSession_statTest, Bool.or_false]
  oneCause := by simp only [State.newSession_statTest, Bool.and_false]

/-- The reader holds no byte and is at position 0 (40_bitstream.md R149). -/
theorem ReaderLazy.newSession (s : State) : ReaderLazy s.newSession := by simp [ReaderLazy]

/-- A tree at its reset value has no internal slot. -/
theorem TreesOk.newSession (s : State) : TreesOk s.newSession := by
  intro t i _ hinner
  rw [State.newSession_slot] at hinner
  exact absurd hinner (by decide)

/-- Nothing is emitted and the first threshold is 0 (44_variant_rebuild.md R257). -/
theorem ScheduleOk.newSession (s : State) : ScheduleOk s.newSession := fun _ => ⟨0, rfl, rfl⟩

/-- Settles O55: reset is the start of a session, where each invariant holds. -/
theorem invariantsHoldAfterReset : Obligations.InvariantsHoldAfterReset := by
  intro p
  rw [← State.newSession_resetWith p]
  exact ⟨.newSession _, (ReaderLazy.newSession _).ok, .newSession _, .newSession _, newSession_memoryWf _, .newSession _⟩

end Sys2Proof.Machine
end

section
/-! SUPPORT. STAT under the commands: what every part of a command that raises no failure does to it, how a command can end, and
from these the consistency of STAT, its sticky bits, and what a command that fails leaves (10_state.md R36 to R42). -/

namespace Sys2Proof.Machine

/-! ## What keeps STAT's failure bits and its form -/

/-- From `s` to `t` no failure is raised: no bit of STAT is cleared, FAIL and its causes are as they were, so are the reserved
bits, and PHASE copies RC_PHASE if it did (10_state.md R37, R41, R42). -/
structure StatKept (s t : State) : Prop where
  sticky : ∀ b, statTest b s.stat = true → statTest b t.stat = true
  fail : statTest .fail t.stat = statTest .fail s.stat
  eos : statTest .eos t.stat = statTest .eos s.stat
  ill : statTest .ill t.stat = statTest .ill s.stat
  reserved : ∀ lo len, 6 ≤ lo → lo + len ≤ 8 ∨ 11 ≤ lo → t.stat.extractLsb' lo len = s.stat.extractLsb' lo len
  phase : s.stat.extractLsb' 8 3 = s.rcPhase.code → t.stat.extractLsb' 8 3 = t.rcPhase.code

theorem StatKept.trans {s t u : State} (h : StatKept s t) (h' : StatKept t u) : StatKept s u where
  sticky b hb := h'.sticky b (h.sticky b hb)
  fail := h'.fail.trans h.fail
  eos := h'.eos.trans h.eos
  ill := h'.ill.trans h.ill
  reserved lo len h6 hr := (h'.reserved lo len h6 hr).trans (h.reserved lo len h6 hr)
  phase hp := h'.phase (h.phase hp)

/-- Where STAT and RC_PHASE stay, all of it does. -/
theorem StatKept.of_eq {s t : State} (hstat : t.stat = s.stat) (hphase : t.rcPhase = s.rcPhase) : StatKept s t where
  sticky b := by rw [hstat]; exact id
  fail := by rw [hstat]
  eos := by rw [hstat]
  ill := by rw [hstat]
  reserved lo len _ _ := by rw [hstat]
  phase := by rw [hstat, hphase]; exact id

theorem StatKept.refl (s : State) : StatKept s s := .of_eq rfl rfl

theorem OnlyReaderMoved.statKept {s t : State} (h : OnlyReaderMoved s t) : StatKept s t := .of_eq h.stat_eq h.rcPhase_eq

theorem OnlyEmitted.statKept {s t : State} (h : OnlyEmitted s t) : StatKept s t := .of_eq h.stat_eq h.rcPhase_eq

/-- RES stands outside STAT. -/
theorem StatKept.setRes (v : Half) (s : State) : StatKept s (s.setRes v) := .of_eq rfl rfl

theorem StatKept.setTree (t : TreeSel) (m : Memory 16) (s : State) : StatKept s (s.setTree t m) :=
  .of_eq (State.setTree_stat t m s) (State.setTree_rcPhase t m s)

/-- A build adds warnings (10_state.md R41). -/
theorem StatKept.treeBuild (t : TreeSel) (n : Nat) (s : State) : StatKept s (treeBuild t n s) where
  sticky b hb := by rw [treeBuild_stat, statTest_buildStat, hb]; rfl
  fail := by simp [statTest_buildStat]
  eos := by simp [statTest_buildStat]
  ill := by simp [statTest_buildStat]
  reserved lo len h6 _ := by rw [treeBuild_stat, extract_buildStat _ _ h6]
  phase hp := by
    rw [treeBuild_stat, extract_buildStat _ _ (by decide), hp]
    exact congrArg Phase.code (State.setTree_rcPhase t _ s).symm

/-- The end of an event rewrites PHASE with RC_PHASE (10_state.md R42; 44_variant_rebuild.md R246). -/
theorem StatKept.endRebuild (p : Phase) (s : State) : StatKept s (endRebuild p s) where
  sticky b hb := by rw [endRebuild_stat, statTest_statPhase, hb]
  fail := statTest_statPhase _ _ _
  eos := statTest_statPhase _ _ _
  ill := statTest_statPhase _ _ _
  reserved lo len _ hr := extract_statPhase_other _ _ hr
  phase _ := extract_statPhase_phase _ _

/-- The reads of an event set warnings only. -/
theorem ReadSteps.statKept {s t : State} (h : ReadSteps s t) : StatKept s t := by
  obtain ⟨hsticky, hcause, hfield⟩ := h.stat
  have hphase : t.rcPhase = s.rcPhase := by
    obtain ⟨-, -, -, -, -, -, hphase, -⟩ := h.frame
    exact hphase
  exact {
    sticky := hsticky
    fail := hcause .fail (by decide) (by decide) (by decide)
    eos := hcause .eos (by decide) (by decide) (by decide)
    ill := hcause .ill (by decide) (by decide) (by decide)
    reserved := fun lo len h6 _ => hfield lo len h6
    phase := fun hp => by rw [hfield 8 3 (by decide), hp, hphase] }

theorem rebuildIfDue_statKept (s : State) : StatKept s (rebuildIfDue s).state := by
  obtain ⟨-, he⟩ | ⟨-, s1, -, hsteps, he⟩ | ⟨-, s1, -, hsteps, he⟩ := rebuildIfDue_cases s
  · rw [he]; exact .refl s
  · rw [he]; exact hsteps.statKept.trans (.endRebuild s.rcPhase s1)
  · rw [he]; exact hsteps.statKept

theorem produceReads_statKept (s : State) : StatKept s (produceReads s).state :=
  (rebuildIfDue_statKept s).trans (produceReads_moved s).statKept

theorem emitToken_statKept {m : Nat} (tok : Token m) (s : State) : StatKept s (emitToken tok s) :=
  (StatKept.setRes _ s).trans (emitToken_onlyEmitted tok s).statKept

/-! ## How a command ends -/

/-- What the command `i`, begun in `s`, has left alone where it is cut short in `u`: RES, the output, the ring and its cursor,
and the schedule too where `i` is no PRODUCE (10_state.md R36; 00_scope.md R16; 44_variant_rebuild.md R253, R256). -/
structure CutShort (i : Instr) (s u : State) : Prop where
  res : u.res = s.res
  out : u.out = s.out
  ring : u.ring = s.ring
  rbWp : u.rbWp = s.rbWp
  schedule : i ≠ .produce → u.rcPhase = s.rcPhase ∧ u.rcCount = s.rcCount

theorem OnlyReaderMoved.cutShort {s u : State} (h : OnlyReaderMoved s u) (i : Instr) : CutShort i s u :=
  ⟨h.res_eq, h.out_eq, h.ring_eq, h.rbWp_eq, fun _ => ⟨h.rcPhase_eq, h.rcCount_eq⟩⟩

/-- An event that meets end of input has only read and built (44_variant_rebuild.md R253). -/
theorem rebuildIfDue_cutShort {s u : State} (h : rebuildIfDue s = .eos u) (i : Instr) : CutShort i s u := by
  obtain ⟨-, he⟩ | ⟨-, s1, -, -, he⟩ | ⟨-, s1, -, hsteps, he⟩ := rebuildIfDue_cases s
  · rw [he] at h; cases h
  · rw [he] at h; cases h
  · rw [he] at h
    cases h
    obtain ⟨-, -, -, hout, -, hres, hphase, hcount, hring, hwp, -⟩ := hsteps.frame
    exact ⟨hres, hout, hring, hwp, fun _ => ⟨hphase, hcount⟩⟩

/-- A PRODUCE that meets end of input has emitted nothing (44_variant_rebuild.md R256). -/
theorem produceReads_cutShort {s u : State} (h : produceReads s = .eos u) : CutShort .produce s u := by
  have hframe := produceReads_frame s
  rw [h] at hframe
  obtain ⟨-, -, -, hout, -, hres, hring, hwp, -⟩ := hframe
  exact ⟨hres, hout, hring, hwp, fun hne => absurd rfl hne⟩

/-- The two ends of the command `i` begun in `s`: it completes, or it is cut short and a failure is raised there
(00_scope.md R16). -/
inductive CommandEnd (i : Instr) (s : State) : State → Prop where
  | completed {t : State} : StatKept s t → CommandEnd i s t
  | failed (f : Failure) {u : State} : StatKept s u → CutShort i s u → CommandEnd i s (u.raise f)

/-- An illegal command does nothing before its failure (60_exceptions.md R303). -/
theorem CommandEnd.illegal (i : Instr) (s : State) : CommandEnd i s (s.raise .ill) :=
  .failed .ill (.refl s) ((OnlyReaderMoved.refl s).cutShort i)

/-- A command that reads and then does its last part. -/
theorem CommandEnd.finish {α : Type} {i : Instr} {s : State} {r : Run α} {f : α → State → State}
    (hreads : StatKept s r.state) (hcut : ∀ u, r = .eos u → CutShort i s u) (hlast : ∀ a u, StatKept u (f a u)) :
    CommandEnd i s (r.finish f) := by
  cases r with
  | ok a u => exact .completed (hreads.trans (hlast a u))
  | eos u => exact .failed .eos hreads (hcut u rfl)

/-- A command whose reads move only the reader. -/
theorem CommandEnd.finish_of_moved {α : Type} {i : Instr} {s : State} {r : Run α} {f : α → State → State}
    (hreads : OnlyReaderMoved s r.state) (hlast : ∀ a u, StatKept u (f a u)) : CommandEnd i s (r.finish f) :=
  .finish hreads.statKept (fun u he => by rw [he] at hreads; exact hreads.cutShort i) hlast

/-- Every command but INIT has one of the two ends. -/
theorem exec_commandEnd {i : Instr} {s t : State} (hi : i ≠ .init) (h : exec i s = .next t) : CommandEnd i s t := by
  cases i
  case init => exact absurd rfl hi
  all_goals obtain rfl := Host.Outcome.next.inj h
  case rdbits nm1 => exact .finish_of_moved (readBitsInto_moved _ 0 s) fun v u => .setRes v u
  case cltw idx len =>
    split
    · exact .completed (.of_eq rfl rfl)
    · exact .illegal _ s
  case treset u => exact .completed (.setTree u [] s)
  case tbuild u n =>
    split
    · exact .completed (.treeBuild u (count12 n) s)
    · exact .illegal _ s
  case tsingle u x => exact .completed (.setTree u _ s)
  case decode u => exact .finish_of_moved (decodeSym_agrees u s).state_moved fun x v => .setRes (resOfSymbol x) v
  case rpush b => exact .completed (.of_eq rfl rfl)
  case rread dist => exact .completed (.setRes _ s)
  case lit b => exact .completed ((emit_onlyEmitted b s).statKept.trans (.setRes _ _))
  case copy len dist => exact .completed ((emitCopy_onlyEmitted (count12 len) dist s).statKept.trans (.setRes _ _))
  case rebuild => exact .finish (rebuildIfDue_statKept s) (fun u he => rebuildIfDue_cutShort he _) fun ran u => .setRes _ u
  case produce => exact .finish (produceReads_statKept s) (fun _ => produceReads_cutShort) emitToken_statKept
  case reservedD rest => exact .illegal _ s
  case reservedE rest => exact .illegal _ s
  case reservedF rest => exact .illegal _ s

/-! ## STAT stays consistent -/

theorem StatusOk.of_kept {s t : State} (h : StatusOk s) (hk : StatKept s t) : StatusOk t where
  phase := hk.phase h.phase
  reservedLow := (hk.reserved 6 2 (by decide) (by decide)).trans h.reservedLow
  reservedHigh := (hk.reserved 11 5 (by decide) (by decide)).trans h.reservedHigh
  cause := by rw [hk.fail, hk.eos, hk.ill]; exact h.cause
  oneCause := by rw [hk.eos, hk.ill]; exact h.oneCause

/-- A failure touches bits 0 to 2 of STAT only. -/
theorem extract_raise (f : Failure) (s : State) {lo len : Nat} (h : 6 ≤ lo) :
    (s.raise f).stat.extractLsb' lo len = s.stat.extractLsb' lo len := by
  rw [State.raise_stat, extract_statSet _ _ h, extract_statSet _ _ h]

/-- A failure sets FAIL and its cause and clears nothing (60_exceptions.md R302, R303). -/
theorem statTest_raise (f : Failure) (b : StatBit) (s : State) :
    statTest b (s.raise f).stat = (statTest b s.stat || decide (b = .fail) || decide (b = f.bit)) := by
  simp

/-- The first failure of a session sets exactly one cause (10_state.md R39). -/
theorem StatusOk.raise {s : State} (h : StatusOk s) (hf : s.failed = false) (f : Failure) : StatusOk (s.raise f) := by
  have hcauses : statTest .eos s.stat = false ∧ statTest .ill s.stat = false := by
    have hfail : statTest .fail s.stat = false := hf
    rw [h.cause, Bool.or_eq_false_iff] at hfail
    exact hfail
  obtain ⟨heos, hill⟩ := hcauses
  constructor
  case phase => rw [extract_raise f s (by decide)]; exact h.phase
  case reservedLow => rw [extract_raise f s (by decide)]; exact h.reservedLow
  case reservedHigh => rw [extract_raise f s (by decide)]; exact h.reservedHigh
  case cause => rw [statTest_raise, statTest_raise, statTest_raise, heos, hill]; cases f <;> simp [Failure.bit]
  case oneCause => rw [statTest_raise, statTest_raise, heos, hill]; cases f <;> decide

/-- A command run in a session that has not failed, or INIT, keeps STAT consistent. -/
theorem exec_statusOk {i : Instr} {s t : State} (hrun : s.failed = false ∨ i = .init) (h : exec i s = .next t)
    (hs : StatusOk s) : StatusOk t := by
  by_cases hi : i = .init
  · subst hi
    obtain rfl := Host.Outcome.next.inj h
    exact .newSession s
  · cases exec_commandEnd hi h with
    | completed hk => exact hs.of_kept hk
    | failed f hk _ => exact (hs.of_kept hk).raise (hk.fail.trans (hrun.resolve_right hi)) f

/-- Settles O53: every step keeps STAT consistent. -/
theorem stepKeepsStatusConsistent : Obligations.StepKeepsStatusConsistent := fun _ _ h hs =>
  step_preserves (P := StatusOk)
    (fun _ _ _ hp => ⟨hp.phase, hp.reservedLow, hp.reservedHigh, hp.cause, hp.oneCause⟩)
    (fun s _ => .newSession s)
    (fun _ hf hp => hp.raise hf .ill)
    (fun _ _ _ _ hrun he hp => exec_statusOk hrun he hp) h hs

/-! ## Sticky bits, and what a failing command leaves -/

/-- Settles O56: neither end of a command clears a bit. -/
theorem statusBitsAreSticky : Obligations.StatusBitsAreSticky := by
  intro i s t b hi h hb
  cases exec_commandEnd hi h with
  | completed hk => exact hk.sticky b hb
  | failed f hk _ => rw [statTest_raise, hk.sticky b hb]; rfl

/-- Settles O57: a command that completes leaves FAIL clear, so the failing one was cut short. -/
theorem failingCommandLeavesResult : Obligations.FailingCommandLeavesResult := by
  intro i s t hs h ht
  have hi : i ≠ .init := by
    rintro rfl
    obtain rfl := Host.Outcome.next.inj h
    rw [State.newSession_failed] at ht
    cases ht
  cases exec_commandEnd hi h with
  | completed hk =>
    have hclear : t.failed = false := hk.fail.trans hs
    rw [hclear] at ht
    cases ht
  | failed f _ hcut => exact ⟨hcut.res, hcut.out, hcut.ring, hcut.rbWp, hcut.schedule⟩

end Sys2Proof.Machine
end

section
/-! SUPPORT. The RAMs under the commands: the parts of a command that move no RAM, the reads of a rebuild event, each command, and
from these that every step keeps the four RAMs canonical and below their sizes (20_memory.md R70, R87, R88). -/

namespace Sys2Proof.Machine

/-! ## Parts that move no RAM -/

theorem State.setRes_memoryWf (v : Half) {s : State} (h : s.memoryWf = true) : (s.setRes v).memoryWf = true := h

theorem State.raise_memoryWf (f : Failure) {s : State} (h : s.memoryWf = true) : (s.raise f).memoryWf = true := h

theorem endRebuild_memoryWf (p : Phase) {s : State} (h : s.memoryWf = true) : (endRebuild p s).memoryWf = true := h

theorem OnlyReaderMoved.memoryWf_eq {s t : State} (h : OnlyReaderMoved s t) : t.memoryWf = s.memoryWf :=
  State.memoryWf_congr h.params_eq h.ct_eq h.ot_eq h.clt_eq h.ring_eq

/-! ## Reads and emissions -/

/-- A command keeps the form if its reads do, wherever they end, and its last part does. -/
theorem Run.finish_memoryWf {α : Type} {r : Run α} {f : α → State → State} (hreads : r.state.memoryWf = true)
    (hlast : ∀ a u, u.memoryWf = true → (f a u).memoryWf = true) : (r.finish f).memoryWf = true := by
  cases r with
  | ok a u => exact hlast a u hreads
  | eos u => exact State.raise_memoryWf .eos hreads

/-- The trees an event reads have alphabets that fit CLT, so CLT is not written beyond its end (44_variant_rebuild.md R245). -/
theorem ReadSteps.memoryWf {s t : State} (h : ReadSteps s t) (hp : s.params.wf = true) (hs : s.memoryWf = true) :
    t.memoryWf = true := by
  induction h with
  | refl => exact hs
  | moved _ hm _ ih => exact hm.memoryWf_eq.trans ih
  | header tree n hd hsteps hn ih =>
    obtain ⟨hparams, -⟩ := hsteps.frame
    exact applyHeader_memoryWf tree n hd (by rw [hparams]; exact hp) hn ih

theorem rebuildIfDue_memoryWf {s : State} (hp : s.params.wf = true) (hs : s.memoryWf = true) :
    (rebuildIfDue s).state.memoryWf = true := by
  obtain ⟨-, he⟩ | ⟨-, s1, -, hsteps, he⟩ | ⟨-, s1, -, hsteps, he⟩ := rebuildIfDue_cases s
  · rw [he]; exact hs
  · rw [he]; exact endRebuild_memoryWf s.rcPhase (hsteps.memoryWf hp hs)
  · rw [he]; exact hsteps.memoryWf hp hs

theorem produceReads_memoryWf {s : State} (hp : s.params.wf = true) (hs : s.memoryWf = true) :
    (produceReads s).state.memoryWf = true :=
  (produceReads_moved s).memoryWf_eq.trans (rebuildIfDue_memoryWf hp hs)

theorem emitToken_memoryWf {m : Nat} (tok : Token m) (s : State) (hs : s.memoryWf = true) :
    (emitToken tok s).memoryWf = true := by
  cases tok with
  | literal b => exact State.setRes_memoryWf _ (emit_memoryWf b hs)
  | copy len dist => exact State.setRes_memoryWf _ (emitCopy_memoryWf len.val dist hs)

/-! ## Every command, every step -/

/-- No command writes a RAM beyond its size: CLTW checks its index against CLT_MAX (30_encoding.md R116), a build stops at the
tree's capacity (41_tree_builder.md R165), and the 13-bit cursor of the ring wraps (43_ring_buffer.md R221). -/
theorem exec_memoryWf {i : Instr} {s t : State} (hp : s.params.wf = true) (h : exec i s = .next t)
    (hs : s.memoryWf = true) : t.memoryWf = true := by
  cases i
  all_goals obtain rfl := Host.Outcome.next.inj h
  case init => exact newSession_memoryWf s
  case rdbits nm1 =>
    exact Run.finish_memoryWf ((readBitsInto_moved (bitCount nm1) 0 s).memoryWf_eq.trans hs) fun _ _ => State.setRes_memoryWf _
  case cltw idx len =>
    split
    · rename_i hidx
      exact setCodeLen_memoryWf (count12 idx) len (of_decide_eq_true hidx) hs
    · exact State.raise_memoryWf .ill hs
  case treset u => exact treeReset_memoryWf u hs
  case tbuild u n =>
    split
    · exact treeBuild_memoryWf u (count12 n) hp hs
    · exact State.raise_memoryWf .ill hs
  case tsingle u x => exact treeSingle_memoryWf u x hp hs
  case decode u =>
    exact Run.finish_memoryWf ((decodeSym_agrees u s).state_moved.memoryWf_eq.trans hs) fun _ _ => State.setRes_memoryWf _
  case rpush b => exact ringPush_memoryWf b hs
  case rread dist => exact State.setRes_memoryWf _ hs
  case lit b => exact State.setRes_memoryWf _ (emit_memoryWf b hs)
  case copy len dist => exact State.setRes_memoryWf _ (emitCopy_memoryWf (count12 len) dist hs)
  case rebuild => exact Run.finish_memoryWf (rebuildIfDue_memoryWf hp hs) fun _ _ => State.setRes_memoryWf _
  case produce => exact Run.finish_memoryWf (produceReads_memoryWf hp hs) emitToken_memoryWf
  case reservedD rest => exact State.raise_memoryWf .ill hs
  case reservedE rest => exact State.raise_memoryWf .ill hs
  case reservedF rest => exact State.raise_memoryWf .ill hs

/-- Settles O54: every command keeps the RAMs in bounds, and the other inputs of the host move no RAM or empty all of them. -/
theorem stepKeepsMemoriesInBounds : Obligations.StepKeepsMemoriesInBounds := fun _ _ h hs =>
  step_preserves (P := fun s => s.memoryWf = true)
    (fun _ _ _ hp => hp)
    (fun s _ => newSession_memoryWf s)
    (fun _ _ => State.raise_memoryWf .ill)
    (fun _ _ _ hw _ he hp => exec_memoryWf hw he hp) h hs

end Sys2Proof.Machine
end

section
/-! SUPPORT. The decoder and the encoder (30_encoding.md R101 to R116): what a placed field is read back as, the row of a decoded
word, the round trips, and which words are legal. -/

namespace Sys2Proof

open Laws.EncodeMatchesRow (opcode)

/-! ## A field of a word -/

theorem getLsbD_field {n : Nat} (v : BitVec n) (lo j : Nat) :
    (field v lo).getLsbD j = (decide (lo ≤ j) && decide (j < 32) && v.getLsbD (j - lo)) := by
  rw [field, BitVec.getLsbD_shiftLeft, BitVec.getLsbD_setWidth]
  grind

/-- A field read at its own place. -/
theorem extract_field_same {n lo : Nat} (v : BitVec n) (h : lo + n ≤ 32) : (field v lo).extractLsb' lo n = v := by
  ext j hj
  have hj32 : lo + j < 32 := by omega
  rw [BitVec.getElem_extractLsb', getLsbD_field]
  simp [BitVec.getLsbD_eq_getElem hj, hj32]

/-- A field read at a place it does not overlap. -/
theorem extract_field_apart {m n lo lo' : Nat} (v : BitVec m) (h : lo + n ≤ lo' ∨ lo' + m ≤ lo) :
    (field v lo').extractLsb' lo n = 0#n := by
  ext j hj
  rw [BitVec.getElem_extractLsb', getLsbD_field]
  obtain h | h := h
  · have hbelow : ¬ lo' ≤ lo + j := by omega
    simp [hbelow]
  · have habove : v.getLsbD (lo + j - lo') = false := BitVec.getLsbD_of_ge v _ (by omega)
    simp [habove]

/-- Reading a field and placing it again keeps the bits of the field and clears the others. -/
theorem field_extract (w : Word) (lo n : Nat) :
    field (w.extractLsb' lo n) lo = w &&& (BitVec.allOnes n).setWidth 32 <<< lo := by
  apply BitVec.eq_of_getLsbD_eq
  intro j hj
  rw [BitVec.getLsbD_and, ← field, getLsbD_field, getLsbD_field, BitVec.getLsbD_extractLsb', BitVec.getLsbD_allOnes]
  grind

theorem toNat_extract (w : Word) (lo n : Nat) : (w.extractLsb' lo n).toNat = w.toNat / 2 ^ lo % 2 ^ n := by
  rw [BitVec.extractLsb'_toNat, Nat.shiftRight_eq_div_pow]

theorem toNat_extract_low (w : Word) (n : Nat) : (w.extractLsb' 0 n).toNat = w.toNat % 2 ^ n :=
  BitVec.extractLsb'_toNat 0 n w

/-! ## The tree of a word -/

/-- The T field lies above bit 23. -/
theorem extract_treeBit (t : TreeSel) {lo n : Nat} (h : lo + n ≤ 24) : (treeBit t).extractLsb' lo n = 0#n := by
  cases t <;> exact extract_field_apart _ (.inl h)

theorem treeField_or_treeBit {w : Word} (t : TreeSel) (h : w.getLsbD 24 = false) : treeField (w ||| treeBit t) = t := by
  rw [treeField, BitVec.getLsbD_or, h, Bool.false_or]
  cases t <;> rfl

theorem treeField_or_field {n : Nat} (w : Word) (v : BitVec n) (h : n ≤ 24) : treeField (w ||| field v 0) = treeField w := by
  rw [treeField, BitVec.getLsbD_or, getLsbD_field, BitVec.getLsbD_of_ge v _ h, Bool.and_false, Bool.or_false, treeField]

theorem treeBit_treeField (w : Word) : treeBit (treeField w) = w &&& 0x01000000 := by
  have h : (0x01000000 : Word) = BitVec.twoPow 32 24 := rfl
  rw [h, BitVec.and_twoPow, treeField]
  split <;> rfl

theorem treeField_eq_ot_iff (w : Word) : treeField w = .ot ↔ w.toNat / 16777216 % 2 = 1 := by
  have h : treeField w = .ot ↔ w.getLsbD 24 = true := by rw [treeField]; split <;> simp_all
  rw [h, BitVec.getLsbD, Nat.testBit_eq_decide_div_mod_eq, decide_eq_true_eq]

/-! ## The row of a word -/

theorem opcode_rowInstr (op : BitVec 4) (w : Word) : opcode (rowInstr op w) = op := by
  obtain ⟨n, hn⟩ := op
  interval_cases n <;> rfl

/-- The mask of every row covers the opcode, so a word in the row of `op` has opcode `op`. -/
theorem opField_of_row {op : BitVec 4} {w : Word} (h : w &&& rowMask op = rowMatch op) : opField w = op := by
  have hrows : ∀ o : BitVec 4, opField (rowMask o) = BitVec.allOnes 4 ∧ opField (rowMatch o) = o := by decide
  calc opField w = opField w &&& opField (rowMask op) := by rw [(hrows op).1, BitVec.and_allOnes]
    _ = opField (w &&& rowMask op) := BitVec.extractLsb'_and.symm
    _ = op := by rw [h, (hrows op).2]

/-- A word decodes to the command whose row it lies in and whose fields it holds. -/
theorem decode_eq_some_iff {w : Word} {i : Instr} :
    decode w = some i ↔ w &&& rowMask (opcode i) = rowMatch (opcode i) ∧ rowInstr (opcode i) w = i := by
  rw [decode, Option.ite_none_right_eq_some, Option.some_inj]
  constructor
  · rintro ⟨hrow, rfl⟩
    rw [opcode_rowInstr]
    exact ⟨hrow, rfl⟩
  · rintro ⟨hrow, hi⟩
    rw [opField_of_row hrow]
    exact ⟨hrow, hi⟩

theorem toNat_opcode {w : Word} {i : Instr} (h : decode w = some i) : (opcode i).toNat = w.toNat / 0x10000000 % 16 := by
  rw [← opField_of_row (decode_eq_some_iff.mp h).1]
  exact toNat_extract w 28 4

/-! ## Decode after encode -/

/-- `EncodeMatchesRow` for every command: its word lies in the row of its opcode. -/
theorem encode_row (i : Instr) : encode i &&& rowMask (opcode i) = rowMatch (opcode i) := by
  cases i
  case init => exact Laws.EncodeMatchesRow.init.2
  case rdbits nm1 => exact (Laws.EncodeMatchesRow.rdbits nm1).2
  case cltw idx len => exact (Laws.EncodeMatchesRow.cltw idx len).2
  case treset t => exact (Laws.EncodeMatchesRow.treset t).2
  case tbuild t nsym => exact (Laws.EncodeMatchesRow.tbuild t nsym).2
  case tsingle t sym => exact (Laws.EncodeMatchesRow.tsingle t sym).2
  case decode t => exact (Laws.EncodeMatchesRow.decode t).2
  case rpush b => exact (Laws.EncodeMatchesRow.rpush b).2
  case rread dist => exact (Laws.EncodeMatchesRow.rread dist).2
  case lit b => exact (Laws.EncodeMatchesRow.lit b).2
  case copy len dist => exact (Laws.EncodeMatchesRow.copy len dist).2
  case rebuild => exact Laws.EncodeMatchesRow.rebuild.2
  case produce => exact Laws.EncodeMatchesRow.produce.2
  case reservedD rest => exact (Laws.EncodeMatchesRow.reservedD rest).2
  case reservedE rest => exact (Laws.EncodeMatchesRow.reservedE rest).2
  case reservedF rest => exact (Laws.EncodeMatchesRow.reservedF rest).2

/-- Every field of a command's word reads back what was placed there: the fields of a format do not overlap. -/
theorem rowInstr_encode (i : Instr) : rowInstr (opcode i) (encode i) = i := by
  cases i
  case init => rfl
  case rebuild => rfl
  case produce => rfl
  all_goals simp [opcode, rowInstr, encode, BitVec.extractLsb'_or, extract_field_same, extract_field_apart, extract_treeBit,
    treeField_or_treeBit, treeField_or_field]

/-- Settles O1: the word of a command lies in the command's row, and its fields read back. -/
theorem decodeOfEncodeIsTheCommand : Obligations.DecodeOfEncodeIsTheCommand := fun i =>
  decode_eq_some_iff.mpr ⟨encode_row i, rowInstr_encode i⟩

/-! ## Encode after decode -/

/-- The fields of a row are the bits outside its mask: what row `op` gives for `w` encodes to the match column under the mask,
and to `w` outside it. -/
theorem encode_rowInstr (op : BitVec 4) (w : Word) : encode (rowInstr op w) = rowMatch op ||| (w &&& ~~~ rowMask op) := by
  obtain ⟨n, hn, rfl⟩ : ∃ n < 16, op = BitVec.ofNat 4 n := ⟨op.toNat, op.isLt, by simp⟩
  interval_cases n
  all_goals simp [rowInstr, rowMatch, rowMask, encode, field_extract, treeBit_treeField, BitVec.or_assoc,
    ← BitVec.and_or_distrib_left]

/-- Settles O2: a decoded word is the match column under its row's mask, and its own fields outside it. -/
theorem encodeOfDecodeIsTheWord : Obligations.EncodeOfDecodeIsTheWord := by
  intro w i h
  obtain ⟨hrow, hi⟩ := decode_eq_some_iff.mp h
  calc encode i = encode (rowInstr (opcode i) w) := by rw [hi]
    _ = rowMatch (opcode i) ||| (w &&& ~~~ rowMask (opcode i)) := encode_rowInstr _ w
    _ = w &&& (rowMask (opcode i) ||| ~~~ rowMask (opcode i)) := by rw [← hrow, BitVec.and_or_distrib_left]
    _ = w := by rw [BitVec.or_not_self, BitVec.and_allOnes]

/-! ## The fields of a decoded command -/

/-- Settles O4: each field of a decoded command is the row's extract of the word. -/
theorem decodedFieldsAreTheFormatsBits : Obligations.DecodedFieldsAreTheFormatsBits := by
  have fields : ∀ {w i}, decode w = some i → rowInstr (opcode i) w = i := fun h => (decode_eq_some_iff.mp h).2
  refine ⟨fun w nm1 h => ?_, fun w idx len h => ?_, fun w t sym h => ?_, fun w t nsym h => ?_, fun w t h => ?_,
    fun w b h => ?_, fun w d h => ?_, fun w l d h => ?_⟩
  · obtain rfl := Instr.rdbits.inj (fields h)
    exact toNat_extract_low w 4
  · obtain ⟨rfl, rfl⟩ := Instr.cltw.inj (fields h)
    exact ⟨toNat_extract w 8 12, toNat_extract_low w 8⟩
  · obtain ⟨rfl, rfl⟩ := Instr.tsingle.inj (fields h)
    exact ⟨toNat_extract_low w 15, treeField_eq_ot_iff w⟩
  · obtain ⟨rfl, rfl⟩ := Instr.tbuild.inj (fields h)
    exact ⟨toNat_extract_low w 12, treeField_eq_ot_iff w⟩
  · obtain h | h := h
    · obtain rfl := Instr.treset.inj (fields h)
      exact treeField_eq_ot_iff w
    · obtain rfl := Instr.decode.inj (fields h)
      exact treeField_eq_ot_iff w
  · obtain h | h := h
    · obtain rfl := Instr.rpush.inj (fields h)
      exact toNat_extract_low w 8
    · obtain rfl := Instr.lit.inj (fields h)
      exact toNat_extract_low w 8
  · obtain rfl := Instr.rread.inj (fields h)
    exact toNat_extract_low w 16
  · obtain ⟨rfl, rfl⟩ := Instr.copy.inj (fields h)
    exact ⟨toNat_extract w 16 12, toNat_extract_low w 16⟩

/-- Settles O5: the fourteen words, decoded. -/
theorem decodesTheEncodingExamples : Obligations.DecodesTheEncodingExamples := by
  unfold Obligations.DecodesTheEncodingExamples
  decide

/-! ## Legal words -/

/-- A word is legal where it lies in a row whose command is a legal one. -/
theorem decodeLegal_ne_none_iff {cltMax : Nat} {w : Word} : decodeLegal cltMax w ≠ none ↔
    ∃ op, w &&& rowMask op = rowMatch op ∧ (rowInstr op w).wf cltMax = true := by
  constructor
  · intro h
    rw [decodeLegal] at h
    cases hd : decode w with
    | none => simp [hd] at h
    | some i =>
      obtain ⟨hrow, hi⟩ := decode_eq_some_iff.mp hd
      have hwf : i.wf cltMax = true := by simpa [hd] using h
      exact ⟨opcode i, hrow, by rwa [hi]⟩
  · rintro ⟨op, hrow, hwf⟩
    have hd : decode w = some (rowInstr op w) := decode_eq_some_iff.mpr (by rw [opcode_rowInstr]; exact ⟨hrow, rfl⟩)
    simp [decodeLegal, hd, hwf]

/-- The legality of a row's command, as a check of the word (30_encoding.md R114, R116). -/
theorem rowInstr_wf_iff {cltMax : Nat} (op : BitVec 4) (w : Word) : (rowInstr op w).wf cltMax = true ↔
    op.toNat < 0xD ∧ (rowMatch op = 0x20000000 → w.toNat / 256 % 4096 < cltMax) ∧
      (rowMatch op = 0x40000000 → w.toNat % 4096 ≤ cltMax) := by
  obtain ⟨n, hn, rfl⟩ : ∃ n < 16, op = BitVec.ofNat 4 n := ⟨op.toNat, op.isLt, by simp⟩
  interval_cases n
  all_goals simp [rowInstr, rowMatch, Instr.wf, Nat.shiftRight_eq_div_pow]

/-- The match and mask columns of the opcode map, rows 0x0 to 0xC (30_encoding.md R111). -/
def commandRows : List (Word × Word) :=
  ([0x0, 0x1, 0x2, 0x3, 0x4, 0x5, 0x6, 0x7, 0x8, 0x9, 0xA, 0xB, 0xC] : List (BitVec 4)).map fun op => (rowMatch op, rowMask op)

theorem mem_commandRows (row : Word × Word) :
    row ∈ commandRows ↔ ∃ op : BitVec 4, op.toNat < 0xD ∧ (rowMatch op, rowMask op) = row := by
  have hops : ∀ op : BitVec 4,
      op ∈ ([0x0, 0x1, 0x2, 0x3, 0x4, 0x5, 0x6, 0x7, 0x8, 0x9, 0xA, 0xB, 0xC] : List (BitVec 4)) ↔ op.toNat < 0xD := by decide
  simp only [commandRows, List.mem_map, hops]

/-- Settles O3: the statement's table is `commandRows`, and the checks of a row are those of its command. -/
theorem decodeGivesIllExactlyWhereTheMapDoes : Obligations.DecodeGivesIllExactlyWhereTheMapDoes := by
  intro cltMax w
  change _ ↔ ∃ row ∈ commandRows, _
  rw [decodeLegal_ne_none_iff]
  constructor
  · rintro ⟨op, hrow, hwf⟩
    obtain ⟨hop, hchecks⟩ := (rowInstr_wf_iff op w).mp hwf
    exact ⟨_, (mem_commandRows _).mpr ⟨op, hop, rfl⟩, hrow, hchecks⟩
  · rintro ⟨row, hmem, hrow, hchecks⟩
    obtain ⟨op, hop, rfl⟩ := (mem_commandRows row).mp hmem
    exact ⟨op, hrow, (rowInstr_wf_iff op w).mpr ⟨hop, hchecks⟩⟩

/-- A command that is not legal has an operand out of range or a reserved opcode (30_encoding.md R114, R116). -/
theorem Instr.not_wf_cases {cltMax : Nat} {i : Instr} (h : ¬ i.wf cltMax = true) :
    (∃ idx len, i = .cltw idx len ∧ cltMax ≤ idx.toNat) ∨ (∃ t nsym, i = .tbuild t nsym ∧ cltMax < nsym.toNat) ∨
      0xD ≤ (opcode i).toNat := by
  cases i
  case cltw idx len => exact .inl ⟨idx, len, rfl, by simpa [Instr.wf] using h⟩
  case tbuild t nsym => exact .inr (.inl ⟨t, nsym, rfl, by simpa [Instr.wf] using h⟩)
  case reservedD rest => exact .inr (.inr (by simp [opcode]))
  case reservedE rest => exact .inr (.inr (by simp [opcode]))
  case reservedF rest => exact .inr (.inr (by simp [opcode]))
  all_goals exact absurd rfl h

theorem not_wf_of_decodeLegal {cltMax : Nat} {w : Word} {i : Instr} (h : decode w = some i) (hill : decodeLegal cltMax w = none) :
    ¬ i.wf cltMax = true := by
  intro hwf
  simp [decodeLegal, h, hwf] at hill

end Sys2Proof
end

section
/-! SUPPORT. What an illegal command does (30_encoding.md R114, R116), and a command word in a failed session (R118). -/

namespace Sys2Proof.Machine

/-- A command that is not legal raises ILL, whatever the state (30_encoding.md R114, R116). -/
theorem exec_of_not_wf {i : Instr} {s : State} (h : ¬ i.wf s.params.cltMax = true) : exec i s = .next (s.raise .ill) := by
  cases i
  case cltw idx len => exact congrArg Host.Outcome.next (if_neg h)
  case tbuild t nsym => exact congrArg Host.Outcome.next (if_neg h)
  case reservedD rest => rfl
  case reservedE rest => rfl
  case reservedF rest => rfl
  all_goals exact absurd rfl h

/-- Settles O10: the two operands out of range are not legal, and they and the reserved opcodes are all that is not. -/
theorem operandsOutOfRangeRaiseIll : Obligations.OperandsOutOfRangeRaiseIll := by
  intro s
  refine ⟨fun idx len h => ?_, fun t nsym h => ?_, fun w i hd hill => ?_⟩
  · rw [exec_of_not_wf (by simpa [Instr.wf] using h), State.raise_ill]
  · rw [exec_of_not_wf (by simpa [Instr.wf] using h), State.raise_ill]
  · have hop := toNat_opcode hd
    exact (Instr.not_wf_cases (not_wf_of_decodeLegal hd hill)).imp_right (.imp_right fun h => by omega)

/-- Settles O9: a reserved opcode is never legal. -/
theorem reservedOpcodesRaiseIll : Obligations.ReservedOpcodesRaiseIll := by
  intro s rest
  rw [← State.raise_ill]
  exact ⟨exec_of_not_wf Bool.false_ne_true, exec_of_not_wf Bool.false_ne_true, exec_of_not_wf Bool.false_ne_true⟩

/-- The step in which the host presents a command word is the run of that word. -/
theorem step_command {s : State} {w : Word} {rest : List HostInput} (hwf : s.params.wf = true)
    (hin : s.inputs = .command w :: rest) : step s = runCommand w { s with inputs := rest } := by
  rw [step, if_pos hwf, hin]
  rfl

theorem runCommand_of_failed {s : State} {w : Word} (hf : s.failed = true) (hw : w ≠ 0) : runCommand w s = .next s := by
  rw [runCommand, hf, decide_eq_true hw]
  rfl

/-- Settles O7: the failure gate stands before the decoder, and only INIT's word 0 passes it. -/
theorem failedSessionIgnoresEveryOtherWord : Obligations.FailedSessionIgnoresEveryOtherWord := by
  intro s w rest hwf hin hf hw
  rw [step_command hwf hin]
  exact runCommand_of_failed (s := { s with inputs := rest }) hf hw

end Sys2Proof.Machine
end

section
/-! SUPPORT. RDBITS: its value, the bits it leaves, and what it leaves at end of input (40_bitstream.md R144, R145). -/

namespace Sys2Proof.Machine

/-- What a command leaves that has read to the end of input (60_exceptions.md R302; 40_bitstream.md R145, R148). -/
theorem EndsAtEos.raise_eos {s u : State} (hmoved : OnlyReaderMoved s u) (hvalid : u.brValid = false) (hpos : u.brPos = 0)
    (hsrc : u.src = afterEof s.src) : EndsAtEos s (u.raise .eos) := by
  refine ⟨?_, hvalid, hpos, hsrc⟩
  rw [State.raise_eos, hmoved]
  rfl

/-- A field at bit 0 is only widened. -/
theorem field_zero {n : Nat} (v : BitVec n) : field v 0 = v.setWidth 32 := by rw [field, BitVec.shiftLeft_zero]

/-- RES holds the value of up to 16 bits whole. -/
theorem toNat_shiftIn_zero {l : List Bool} (h : l.length ≤ 16) : (shiftIn 0 l).toNat = bitsValue l := by
  rw [shiftIn_zero, BitVec.toNat_ofNat]
  exact Nat.mod_eq_of_lt ((bitsValue_lt l).trans_le (Nat.pow_le_pow_right (by decide) h))

/-- RDBITS reads its count of bits and then writes RES (40_bitstream.md R144). -/
theorem exec_rdbits (nm1 : BitVec 4) (s : State) : exec (.rdbits nm1) s =
    .next ((readBitsInto (bitCount nm1) 0 s).finish fun v u => u.setRes v) := rfl

/-- RDBITS with enough bits (40_bitstream.md R144). -/
theorem exec_rdbits_ok {nm1 : BitVec 4} {s : State} (h : bitCount nm1 ≤ s.pendingBits.length) :
    ∃ u, exec (.rdbits nm1) s = .next (u.setRes (shiftIn 0 (s.pendingBits.take (bitCount nm1)))) ∧
      u.pendingBits = s.pendingBits.drop (bitCount nm1) ∧ OnlyReaderMoved s u ∧ ReaderLazy u := by
  obtain ⟨u, hrun, hbits, hmoved, hlazy⟩ := readBitsInto_ok (bitCount nm1) 0 s h
  refine ⟨u, ?_, hbits, hmoved, hlazy (.inl (Nat.succ_ne_zero _))⟩
  rw [exec_rdbits, hrun]
  rfl

/-- RDBITS with too few bits (40_bitstream.md R145). -/
theorem exec_rdbits_eos {nm1 : BitVec 4} {s : State} (hs : ReaderOk s) (h : s.pendingBits.length < bitCount nm1) :
    ∃ t, exec (.rdbits nm1) s = .next t ∧ EndsAtEos s t := by
  obtain ⟨u, hrun, hvalid, hpos, hmoved⟩ := readBitsInto_eos (bitCount nm1) 0 s h hs
  have hdrains := readBitsInto_drains (bitCount nm1) 0 s
  rw [hrun] at hdrains
  refine ⟨u.raise .eos, ?_, .raise_eos hmoved hvalid hpos hdrains⟩
  rw [exec_rdbits, hrun]
  rfl

/-- Settles O18: `nm1 + 1` is at most 16, so RES holds the whole value. -/
theorem rdbitsReadsTheNextBits : Obligations.RdbitsReadsTheNextBits := by
  intro s nm1
  refine ⟨?_, fun h => ?_, exec_rdbits_eos⟩
  · rw [encode, field_zero]
  · obtain ⟨u, hrun, hbits, hmoved, hlazy⟩ := exec_rdbits_ok h
    refine ⟨_, hrun, toNat_shiftIn_zero ?_, hbits, hlazy, ?_⟩
    · have hcount : bitCount nm1 ≤ 16 := nm1.isLt
      exact (List.length_take_le _ _).trans hcount
    · rw [hmoved]
      rfl

end Sys2Proof.Machine
end

section
/-! SUPPORT. The bit stream under the commands: which parts of a command leave the reader alone, that every read leaves a tail of
the bits there were, how a command leaves the reader, and from these that the reader's invariants are kept by every step and that
the stream is never rewound (40_bitstream.md R141, R143, R146, R149). -/

namespace Sys2Proof.Machine

/-! ## The reader left alone -/

/-- The reader's registers and the source's answers are the same in `s` and `t`. -/
structure ReaderUntouched (s t : State) : Prop where
  src : t.src = s.src
  brByte : t.brByte = s.brByte
  brPos : t.brPos = s.brPos
  brValid : t.brValid = s.brValid

theorem ReaderUntouched.refl (s : State) : ReaderUntouched s s := ⟨rfl, rfl, rfl, rfl⟩

theorem ReaderUntouched.trans {s t u : State} (h : ReaderUntouched s t) (h' : ReaderUntouched t u) : ReaderUntouched s u :=
  ⟨h'.src.trans h.src, h'.brByte.trans h.brByte, h'.brPos.trans h.brPos, h'.brValid.trans h.brValid⟩

theorem ReaderUntouched.kept {s t : State} (h : ReaderUntouched s t) : ReaderKept s t := .of_eq h.brValid h.brPos

theorem ReaderUntouched.pendingBits_eq {s t : State} (h : ReaderUntouched s t) : t.pendingBits = s.pendingBits := by
  rw [State.pendingBits, State.heldBits, h.src, h.brByte, h.brPos, h.brValid]
  rfl

theorem ReaderUntouched.setRes (v : Half) (s : State) : ReaderUntouched s (s.setRes v) := ⟨rfl, rfl, rfl, rfl⟩

theorem ReaderUntouched.raise (f : Failure) (s : State) : ReaderUntouched s (s.raise f) := ⟨rfl, rfl, rfl, rfl⟩

theorem ReaderUntouched.endRebuild (p : Phase) (s : State) : ReaderUntouched s (endRebuild p s) := ⟨rfl, rfl, rfl, rfl⟩

theorem ReaderUntouched.setTree (t : TreeSel) (m : Memory 16) (s : State) : ReaderUntouched s (s.setTree t m) :=
  ⟨s.setTree_src t m, s.setTree_brByte t m, s.setTree_brPos t m, s.setTree_brValid t m⟩

theorem ReaderUntouched.treeBuild (t : TreeSel) (n : Nat) (s : State) : ReaderUntouched s (treeBuild t n s) :=
  (ReaderUntouched.setTree t _ s).trans ⟨rfl, rfl, rfl, rfl⟩

theorem OnlyEmitted.readerUntouched {s t : State} (h : OnlyEmitted s t) : ReaderUntouched s t :=
  ⟨h.src_eq, h.brByte_eq, h.brPos_eq, h.brValid_eq⟩

theorem emitToken_readerUntouched {m : Nat} (tok : Token m) (s : State) : ReaderUntouched s (emitToken tok s) :=
  (ReaderUntouched.setRes _ s).trans (emitToken_onlyEmitted tok s).readerUntouched

/-! ## Every read leaves a tail of the bits -/

/-- Where the run `r`, started in `s`, gives a value, the bits it leaves to be read are a tail of those in `s`. -/
def LeavesTail {α : Type} (r : Run α) (s : State) : Prop := ∀ a t, r = .ok a t → t.pendingBits <:+ s.pendingBits

theorem LeavesTail.ok_of_eq {α : Type} (a : α) {s t : State} (h : t.pendingBits = s.pendingBits) : LeavesTail (.ok a t) s := by
  rintro _ _ ⟨⟩
  exact h ▸ List.suffix_rfl

theorem LeavesTail.ok {α : Type} (a : α) (s : State) : LeavesTail (.ok a s) s := .ok_of_eq a rfl

theorem LeavesTail.bind {α β : Type} {r : Run α} {s : State} {f : α → State → Run β} (h : LeavesTail r s)
    (hf : ∀ a t, LeavesTail (f a t) t) : LeavesTail (r.bind f) s := by
  intro b u he
  cases r with
  | ok a t => exact (hf a t b u he).trans (h a t rfl)
  | eos t => cases he

/-- A read that leaves a tail of a list of bits leaves a tail of the stream. -/
theorem AgreesWith.leavesTail {α : Type} {r : Run α} {s : State} {o : Option (α × List Bool)} (h : AgreesWith r s o)
    (htail : ∀ {a rest}, o = some (a, rest) → rest <:+ s.pendingBits) : LeavesTail r s := by
  obtain ⟨a, t, rfl, ho, -, -⟩ | ⟨t, rfl, -, -, -, -⟩ := h.moved
  · rintro _ _ ⟨⟩
    exact htail ho
  · rintro _ _ ⟨⟩

theorem readBit_leavesTail (s : State) : LeavesTail (readBit s) s := by
  rintro b t he
  obtain ⟨c, rest, u, hbits, hrun, hleft, -, -, -⟩ | ⟨-, -, hrun⟩ := readBit_cases s
  · rw [hrun] at he
    cases he
    rw [hbits, hleft]
    exact List.suffix_cons _ _
  · rw [hrun] at he
    cases he

theorem readBitsInto_eq_bind (n : Nat) (v : Half) (s : State) : readBitsInto (n + 1) v s =
    (readBit s).bind fun b t => readBitsInto n ((v <<< 1) ||| (BitVec.ofBool b).setWidth 16) t := by
  rw [readBitsInto]
  cases readBit s <;> rfl

theorem readBitsInto_leavesTail (n : Nat) (v : Half) (s : State) : LeavesTail (readBitsInto n v s) s := by
  induction n generalizing v s with
  | zero => exact .ok v s
  | succ k ih =>
    rw [readBitsInto_eq_bind]
    exact (readBit_leavesTail s).bind fun b t => ih _ t

theorem decodeSym_leavesTail (t : TreeSel) (s : State) : LeavesTail (decodeSym t s) s :=
  (decodeSym_agrees t s).leavesTail walkBits_suffix

theorem runToken_leavesTail {α : Type} (p : TokProg α) (s : State) : LeavesTail (runToken p s) s :=
  (runToken_agrees p s).leavesTail tokenBits_suffix

theorem readTree_leavesTail (t : TreeSel) (n : Nat) (s : State) : LeavesTail (readTree t n s) s :=
  ((runBits_agrees _ s).leavesTail progBits_suffix).bind fun h u => .ok_of_eq () (pendingBits_applyHeader t n h u)

/-- The reads of a rebuild event (44_variant_rebuild.md R246 to R251). -/
theorem rebuildReads_leavesTail (p : Phase) (s : State) : LeavesTail (rebuildReads p s) s := by
  cases p with
  | unbuilt => exact (readTree_leavesTail _ _ s).bind fun _ t => readTree_leavesTail _ _ t
  | build1 => exact readTree_leavesTail _ _ s
  | build2 => exact readTree_leavesTail _ _ s
  | build3 =>
    refine (readBit_leavesTail s).bind fun f t => LeavesTail.bind ?_ fun _ u => readTree_leavesTail _ _ u
    cases f
    · exact .ok () t
    · exact readTree_leavesTail _ _ t
  | steady =>
    refine (readBit_leavesTail s).bind fun f t => ?_
    cases f
    · exact .ok () t
    · exact (readTree_leavesTail _ _ t).bind fun _ u => readTree_leavesTail _ _ u

theorem rebuildIfDue_leavesTail (s : State) : LeavesTail (rebuildIfDue s) s := by
  rw [rebuildIfDue]
  split
  · exact .ok false s
  · exact (rebuildReads_leavesTail _ s).bind fun _ t => .ok_of_eq true (ReaderUntouched.endRebuild _ t).pendingBits_eq

theorem produceReads_leavesTail (s : State) : LeavesTail (produceReads s) s :=
  (rebuildIfDue_leavesTail s).bind fun _ t => (decodeSym_leavesTail .ct t).bind fun _ u => runToken_leavesTail _ u

/-! ## How a command leaves the reader -/

/-- The two ways a command begun in `s` leaves the reader: it has read on and completed, or it has met end of input and EOS is
raised there (40_bitstream.md R146). -/
inductive ReadsOn (s : State) : State → Prop where
  | completed {t : State} : ReaderKept s t → t.src <:+ s.src → t.pendingBits <:+ s.pendingBits → ReadsOn s t
  | endOfInput {u : State} : ReaderKept s u → u.src <:+ s.src → ReadsOn s (u.raise .eos)

theorem ReaderUntouched.readsOn {s t : State} (h : ReaderUntouched s t) : ReadsOn s t :=
  .completed h.kept (h.src ▸ List.suffix_rfl) (h.pendingBits_eq ▸ List.suffix_rfl)

/-- A command that reads and then does a last part that does not. -/
theorem ReadsOn.finish {α : Type} {s : State} {r : Run α} {f : α → State → State} (hkept : ReaderKept s r.state)
    (hdrains : Drains r s) (htail : LeavesTail r s) (hlast : ∀ a u, ReaderUntouched u (f a u)) : ReadsOn s (r.finish f) := by
  have hsrc := hdrains.suffix
  cases r with
  | ok a u =>
    have hu := hlast a u
    refine .completed (hkept.trans hu.kept) ?_ ?_
    · exact hu.src ▸ hsrc
    · exact hu.pendingBits_eq ▸ htail a u rfl
  | eos u => exact .endOfInput hkept hsrc

theorem ReadsOn.kept {s t : State} (h : ReadsOn s t) : ReaderKept s t := by
  cases h with
  | completed hkept _ _ => exact hkept
  | endOfInput hkept _ => exact hkept.trans (ReaderUntouched.raise .eos _).kept

/-- Every command but INIT reads on from where the reader is. -/
theorem exec_readsOn {i : Instr} {s t : State} (hi : i ≠ .init) (h : exec i s = .next t) : ReadsOn s t := by
  cases i
  case init => exact absurd rfl hi
  all_goals obtain rfl := Host.Outcome.next.inj h
  case rdbits nm1 =>
    exact .finish (readBitsInto_kept _ 0 s) (readBitsInto_drains _ 0 s) (readBitsInto_leavesTail _ 0 s) ReaderUntouched.setRes
  case decode u =>
    exact .finish (decodeSym_agrees u s).state_kept (decodeSym_drains u s) (decodeSym_leavesTail u s) fun _ => .setRes _
  case rebuild =>
    exact .finish (rebuildIfDue_kept s) (rebuildIfDue_drains s) (rebuildIfDue_leavesTail s) fun _ => .setRes _
  case produce =>
    exact .finish (produceReads_kept s) (produceReads_drains s) (produceReads_leavesTail s) emitToken_readerUntouched
  all_goals apply ReaderUntouched.readsOn
  case cltw idx len =>
    split
    · exact ⟨rfl, rfl, rfl, rfl⟩
    · exact .raise .ill s
  case treset u => exact .setTree u _ s
  case tbuild u n =>
    split
    · exact .treeBuild u (count12 n) s
    · exact .raise .ill s
  case tsingle u x => exact .setTree u _ s
  case rpush b => exact ⟨rfl, rfl, rfl, rfl⟩
  case rread dist => exact .setRes _ s
  case lit b => exact (emit_onlyEmitted b s).readerUntouched.trans (.setRes _ _)
  case copy len dist => exact (emitCopy_onlyEmitted (count12 len) dist s).readerUntouched.trans (.setRes _ _)
  case reservedD rest => exact .raise .ill s
  case reservedE rest => exact .raise .ill s
  case reservedF rest => exact .raise .ill s

/-- A command keeps the reader's invariants; INIT sets them up. -/
theorem exec_readerKept {i : Instr} {s t : State} (h : exec i s = .next t) : ReaderKept s t := by
  by_cases hi : i = .init
  · subst hi
    obtain rfl := Host.Outcome.next.inj h
    exact (ReaderLazy.newSession s).kept s
  · exact (exec_readsOn hi h).kept

/-- Settles O19: every command keeps both invariants, and a session starts with both. -/
theorem stepKeepsReaderPosition : Obligations.StepKeepsReaderPosition := fun _ _ h =>
  ⟨step_preserves (P := ReaderOk) (fun _ _ _ => id) (fun s _ => (ReaderLazy.newSession s).ok)
      (fun s _ => (ReaderUntouched.raise .ill s).kept.ok) (fun _ _ _ _ _ he => (exec_readerKept he).ok) h,
    step_preserves (P := ReaderLazy) (fun _ _ _ => id) (fun s _ => .newSession s)
      (fun s _ => (ReaderUntouched.raise .ill s).kept.lazy) (fun _ _ _ _ _ he => (exec_readerKept he).lazy) h⟩

/-- Settles O20: either end of a command leaves a tail of the answers, and the one that leaves no tail of the bits sets EOS. -/
theorem theStreamIsNeverRewound : Obligations.TheStreamIsNeverRewound := by
  intro i s t hi h
  cases exec_readsOn hi h with
  | completed _ hsrc hbits => exact ⟨hsrc, fun _ => hbits⟩
  | endOfInput _ hsrc =>
    refine ⟨hsrc, fun heos => ?_⟩
    rw [statTest_raise] at heos
    simp [Failure.bit] at heos

end Sys2Proof.Machine
end

section
/-! SUPPORT. The trees in bounds (41_tree_builder.md R178): what the invariant says of each tree RAM, the RAMs the builder leaves,
the parts of a command that move no tree, the reads of a rebuild event, and from these every command and every step. -/

namespace Sys2Proof.Machine

/-! ## One tree RAM -/

/-- R178 of a tree RAM of capacity `cap`: both children of an internal slot lie behind it and below the capacity. -/
def TreeInBounds (cap : Nat) (m : Memory 16) : Prop :=
  ∀ i, i < cap → isLeaf (Memory.read resetSlot m i) = false →
    i < firstChild (Memory.read resetSlot m i) ∧ firstChild (Memory.read resetSlot m i) + 1 < cap

theorem State.slot_of_lt {s : State} {t : TreeSel} {i : Nat} (h : i < s.params.cap t) :
    s.slot t i = Memory.read resetSlot (s.tree t) i := if_pos h

theorem treesOk_iff (s : State) : TreesOk s ↔ ∀ t, TreeInBounds (s.params.cap t) (s.tree t) :=
  forall₃_congr fun _ _ hi => by rw [State.slot_of_lt hi]

theorem TreeInBounds.of_leaves {cap : Nat} {m : Memory 16} (h : ∀ i, isLeaf (Memory.read resetSlot m i) = true) :
    TreeInBounds cap m := by
  intro i _ hinner
  rw [h i] at hinner
  cases hinner

/-- TreeReset leaves no internal slot (R162). -/
theorem TreeInBounds.nil (cap : Nat) : TreeInBounds cap [] := .of_leaves fun _ => isLeaf_resetSlot

/-- TreeSingle leaves no internal slot (R172). -/
theorem TreeInBounds.single (cap : Nat) (x : Symbol) : TreeInBounds cap (Memory.write resetSlot [] 0 (leafSlot x)) := by
  refine .of_leaves fun i => ?_
  rw [Memory.read_write]
  split
  · exact isLeaf_leafSlot x
  · exact isLeaf_resetSlot

/-- A build allocates both children behind their parent and within the capacity (R165, R166). -/
theorem Build.Ok.treeInBounds {cap : Nat} {b : Build} (h : Build.Ok cap b) : TreeInBounds cap b.tree := by
  intro i _ hinner
  obtain ⟨hbehind, hallocated⟩ := h.shape i hinner
  exact ⟨hbehind, hallocated.trans_le h.alloc_le⟩

/-! ## Parts of a command -/

theorem TreesOk.congr {s t : State} (hs : TreesOk s) (hp : t.params = s.params) (hct : t.ct = s.ct) (hot : t.ot = s.ot) :
    TreesOk t := by
  rw [treesOk_iff] at hs ⊢
  rw [hp]
  intro u
  cases u with
  | ct => rw [State.tree, hct]; exact hs .ct
  | ot => rw [State.tree, hot]; exact hs .ot

theorem OnlyReaderMoved.treesOk {s t : State} (h : OnlyReaderMoved s t) (hs : TreesOk s) : TreesOk t :=
  hs.congr h.params_eq h.ct_eq h.ot_eq

theorem OnlyEmitted.treesOk {s t : State} (h : OnlyEmitted s t) (hs : TreesOk s) : TreesOk t :=
  hs.congr h.params_eq h.ct_eq h.ot_eq

theorem TreesOk.setRes {s : State} (h : TreesOk s) (v : Half) : TreesOk (s.setRes v) := h

theorem TreesOk.raise {s : State} (h : TreesOk s) (f : Failure) : TreesOk (s.raise f) := h

theorem TreesOk.endRebuild {s : State} (h : TreesOk s) (p : Phase) : TreesOk (endRebuild p s) := h

/-- A tree RAM in bounds may replace another. -/
theorem TreesOk.setTree {s : State} {t : TreeSel} {m : Memory 16} (h : TreesOk s) (hm : TreeInBounds (s.params.cap t) m) :
    TreesOk (s.setTree t m) := by
  rw [treesOk_iff] at h ⊢
  intro u
  rw [State.setTree_params, State.setTree_tree]
  split
  · subst u; exact hm
  · exact h u

theorem TreesOk.treeReset {s : State} (h : TreesOk s) (t : TreeSel) : TreesOk (treeReset t s) := h.setTree (.nil _)

theorem TreesOk.treeSingle {s : State} (h : TreesOk s) (t : TreeSel) (x : Symbol) : TreesOk (treeSingle t x s) :=
  h.setTree (.single _ x)

theorem TreesOk.treeBuild {s : State} (h : TreesOk s) (hp : s.params.wf = true) (t : TreeSel) (n : Nat) :
    TreesOk (treeBuild t n s) := by
  obtain ⟨hpos, hcap⟩ := Params.cap_bounds hp t
  exact (h.setTree (buildTree_ok hpos hcap (s.codeLens n)).treeInBounds).congr rfl rfl rfl

theorem TreesOk.writeLens {s : State} (h : TreesOk s) (i : Nat) (l : List Byte) : TreesOk (writeLens i l s) := by
  rw [writeLens_frame]
  exact h

theorem TreesOk.applyHeader {s : State} (h : TreesOk s) (hp : s.params.wf = true) (t : TreeSel) {n : Nat} (hd : Header n) :
    TreesOk (applyHeader t n hd s) := by
  cases hd with
  | single x => exact h.treeSingle t x
  | lengths l => exact (h.writeLens 0 l.toList).treeBuild (by rw [writeLens_frame]; exact hp) t n

/-! ## Reads and emissions -/

theorem ReadSteps.treesOk {s t : State} (h : ReadSteps s t) (hp : s.params.wf = true) (hs : TreesOk s) : TreesOk t := by
  induction h with
  | refl => exact hs
  | moved _ hm _ ih => exact hm.treesOk ih
  | header tree n hd hsteps _ ih =>
    obtain ⟨hparams, -⟩ := hsteps.frame
    exact ih.applyHeader (by rw [hparams]; exact hp) tree hd

theorem rebuildIfDue_treesOk {s : State} (hp : s.params.wf = true) (hs : TreesOk s) : TreesOk (rebuildIfDue s).state := by
  obtain ⟨-, he⟩ | ⟨-, s1, -, hsteps, he⟩ | ⟨-, s1, -, hsteps, he⟩ := rebuildIfDue_cases s
  · rw [he]; exact hs
  · rw [he]; exact (hsteps.treesOk hp hs).endRebuild s.rcPhase
  · rw [he]; exact hsteps.treesOk hp hs

theorem emitToken_treesOk {m : Nat} (tok : Token m) (s : State) (hs : TreesOk s) : TreesOk (emitToken tok s) :=
  (emitToken_onlyEmitted tok s).treesOk (hs.setRes _)

/-- A command keeps the bounds if its reads do, wherever they end, and its last part does. -/
theorem Run.finish_treesOk {α : Type} {r : Run α} {f : α → State → State} (hreads : TreesOk r.state)
    (hlast : ∀ a u, TreesOk u → TreesOk (f a u)) : TreesOk (r.finish f) := by
  cases r with
  | ok a u => exact hlast a u hreads
  | eos u => exact hreads.raise .eos

/-! ## Every command, every step -/

/-- Only TRESET, TBUILD, TSINGLE, a rebuild event and INIT write a tree, each a whole tree in bounds. -/
theorem exec_treesOk {i : Instr} {s t : State} (hp : s.params.wf = true) (h : exec i s = .next t) (hs : TreesOk s) :
    TreesOk t := by
  cases i
  all_goals obtain rfl := Host.Outcome.next.inj h
  case init => exact .newSession s
  case rdbits nm1 =>
    exact Run.finish_treesOk ((readBitsInto_moved (bitCount nm1) 0 s).treesOk hs) fun v _ hu => hu.setRes v
  case cltw idx len =>
    split
    · exact hs.congr rfl rfl rfl
    · exact hs.raise .ill
  case treset u => exact hs.treeReset u
  case tbuild u n =>
    split
    · exact hs.treeBuild hp u (count12 n)
    · exact hs.raise .ill
  case tsingle u x => exact hs.treeSingle u x
  case decode u =>
    exact Run.finish_treesOk ((decodeSym_agrees u s).state_moved.treesOk hs) fun x _ hu => hu.setRes (resOfSymbol x)
  case rpush b => exact hs.congr rfl rfl rfl
  case rread dist => exact hs.setRes _
  case lit b => exact ((emit_onlyEmitted b s).treesOk hs).setRes _
  case copy len dist => exact ((emitCopy_onlyEmitted (count12 len) dist s).treesOk hs).setRes _
  case rebuild =>
    exact Run.finish_treesOk (rebuildIfDue_treesOk hp hs) fun ran _ hu => hu.setRes (resOfCount ran.toNat)
  case produce =>
    exact Run.finish_treesOk ((produceReads_moved s).treesOk (rebuildIfDue_treesOk hp hs)) emitToken_treesOk
  case reservedD rest => exact hs.raise .ill
  case reservedE rest => exact hs.raise .ill
  case reservedF rest => exact hs.raise .ill

/-- Settles O33: every command leaves trees in bounds, and the other inputs of the host move no tree or reset both. -/
theorem stepKeepsTreesInBounds : Obligations.StepKeepsTreesInBounds := fun _ _ h hs =>
  step_preserves (P := TreesOk)
    (fun _ _ _ hp => hp)
    (fun s _ => .newSession s)
    (fun _ _ hp => hp.raise .ill)
    (fun _ _ _ hw _ he hp => exec_treesOk hw he hp) h hs

end Sys2Proof.Machine
end

section
/-! SUPPORT. CLTW, TRESET, TBUILD and TSINGLE (41_tree_builder.md R173 to R176): the state each leaves, slot by slot, and what it
leaves alone; and what a build depends on (R179). -/

namespace Sys2Proof.Machine

/-! ## A tree replaced -/

theorem State.setTree_tree_other {t u : TreeSel} (h : u ≠ t) (m : Memory 16) (s : State) :
    (s.setTree t m).tree u = s.tree u := by rw [State.setTree_tree, if_neg h]

/-- Replacing a tree moves no register and no other RAM. -/
theorem State.setTree_frame (t : TreeSel) (m : Memory 16) (s : State) :
    s.setTree t m = { s with ct := (s.setTree t m).ct, ot := (s.setTree t m).ot } := by cases t <;> rfl

/-- The slots of a tree, from its RAM (20_memory.md R89). -/
theorem State.slot_of_tree_eq {s : State} {t : TreeSel} {m : Memory 16} (h : s.tree t = m) (i : Nat) :
    s.slot t i = if i < s.params.cap t then Memory.read resetSlot m i else resetSlot := by rw [State.slot, h]

@[simp] theorem treeReset_slot (t : TreeSel) (s : State) (i : Nat) : (treeReset t s).slot t i = resetSlot := by
  rw [treeReset, State.slot_of_tree_eq (State.setTree_tree_same t [] s)]
  split <;> rfl

/-- The root carries the symbol; every tree has room for it (R172). -/
theorem treeSingle_slot {s : State} (hp : s.params.wf = true) (t : TreeSel) (x : Symbol) (i : Nat) :
    (treeSingle t x s).slot t i = if i = 0 then leafSlot x else resetSlot := by
  have hroot : 0 < s.params.cap t := (Params.cap_bounds hp t).1
  rw [treeSingle, State.slot_of_tree_eq (State.setTree_tree_same t _ s), State.setTree_params, Memory.read_write, Memory.read_nil]
  grind

theorem treeBuild_tree_same (t : TreeSel) (n : Nat) (s : State) :
    (treeBuild t n s).tree t = (buildTree (s.params.cap t) (s.codeLens n)).tree := by rw [treeBuild_tree, if_pos rfl]

@[simp] theorem treeBuild_params (t : TreeSel) (n : Nat) (s : State) : (treeBuild t n s).params = s.params := by
  rw [treeBuild_frame]
  exact State.setTree_params t _ s

theorem treeBuild_slot (t : TreeSel) (n : Nat) (s : State) (i : Nat) : (treeBuild t n s).slot t i =
    if i < s.params.cap t then Memory.read resetSlot (buildTree (s.params.cap t) (s.codeLens n)).tree i else resetSlot := by
  rw [State.slot_of_tree_eq (treeBuild_tree_same t n s), treeBuild_params]

/-- Every slot of a built tree is read from the RAM the build left, those beyond the capacity too (20_memory.md R88, R89). -/
theorem treeBuild_slot_read {s : State} (hp : s.params.wf = true) (t : TreeSel) (n i : Nat) :
    (treeBuild t n s).slot t i = Memory.read resetSlot (buildTree (s.params.cap t) (s.codeLens n)).tree i := by
  obtain ⟨hpos, hcap⟩ := Params.cap_bounds hp t
  rw [treeBuild_slot]
  split
  · rfl
  · exact (Memory.read_of_wf (buildTree_ok hpos hcap _).wf (by omega)).symm

/-! ## The commands -/

/-- A legal index is written (R173). -/
theorem exec_cltw {s : State} {idx : BitVec 12} (h : idx.toNat < s.params.cltMax) (len : Byte) :
    exec (.cltw idx len) s = .next (s.setCodeLen idx.toNat len) :=
  congrArg Host.Outcome.next (if_pos (decide_eq_true h))

/-- A legal count is built from (R175). -/
theorem exec_tbuild {s : State} {n : BitVec 12} (h : n.toNat ≤ s.params.cltMax) (t : TreeSel) :
    exec (.tbuild t n) s = .next (treeBuild t n.toNat s) :=
  congrArg Host.Outcome.next (if_pos (decide_eq_true h))

/-- What a TBUILD of a legal count leaves (R175). -/
theorem eq_of_exec_tbuild {s t : State} {u : TreeSel} {n : BitVec 12} (hn : n.toNat ≤ s.params.cltMax)
    (h : exec (.tbuild u n) s = .next t) : t = treeBuild u n.toNat s :=
  (Host.Outcome.next.inj ((exec_tbuild hn u).symm.trans h)).symm

/-- Settles O22: an index below CLT_MAX is written, and no other is. -/
theorem cltwWritesOneEntry : Obligations.CltwWritesOneEntry := by
  intro s idx len
  refine ⟨by rw [encode, field_zero]; rfl, fun hidx => ?_, fun hidx => ?_⟩
  · exact ⟨s.setCodeLen idx.toNat len, exec_cltw hidx len, fun j => by simp only [codeLen_setCodeLen, eq_comm], rfl⟩
  · rw [exec_of_not_wf (by simpa [Instr.wf] using hidx), State.raise_ill]

/-- Settles O23: TRESET replaces its tree by the empty RAM, which reads as 0x8000 everywhere. -/
theorem tresetMakesEverySlotLeafZero : Obligations.TresetMakesEverySlotLeafZero := fun s u =>
  ⟨by cases u <;> rfl, treeReset u s, rfl, treeReset_slot u s, fun _ hv => State.setTree_tree_other hv [] s,
    State.setTree_frame u [] s⟩

/-- Settles O24: TSINGLE replaces its tree by the RAM whose one entry is the root. -/
theorem tsingleMakesASingleLeaf : Obligations.TsingleMakesASingleLeaf := by
  intro s u x hp
  refine ⟨?_, treeSingle u x s, rfl, treeSingle_slot hp u x, fun _ hv => State.setTree_tree_other hv _ s,
    State.setTree_frame u _ s⟩
  rw [encode, field_zero]
  cases u <;> rfl

/-! ## STAT and the frame of a build -/

/-- Setting a bit leaves every field below it. -/
theorem extract_statSetIf_below (e : Bool) {b : StatBit} (v : Half) {lo len : Nat} (h : lo + len ≤ b.pos) :
    (statSetIf e b v).extractLsb' lo len = v.extractLsb' lo len := by
  cases e with
  | false => rfl
  | true =>
    ext i hi
    have hne : lo + i ≠ b.pos := by omega
    simp [statSetIf, BitVec.getElem_extractLsb', getLsbD_statSet, hne]

/-- The warnings lie above FAIL, EOS and ILL (10_state.md R37). -/
theorem extract_buildStat_failure (b : Build) (v : Half) : (buildStat b v).extractLsb' 0 3 = v.extractLsb' 0 3 := by
  rw [buildStat, extract_statSetIf_below _ _ (by decide), extract_statSetIf_below _ _ (by decide),
    extract_statSetIf_below _ _ (by decide)]

/-- Settles O26: a build replaces its tree and adds its warnings to STAT. -/
theorem tbuildMovesItsTreeAndWarningsOnly : Obligations.TbuildMovesItsTreeAndWarningsOnly := by
  intro s u nsym hn
  refine ⟨treeBuild u nsym.toNat s, exec_tbuild hn u, fun v hv => ?_, ?_, extract_buildStat_failure _ _,
    extract_buildStat _ _ le_rfl, fun b hb => ?_⟩
  · rw [treeBuild_tree, if_neg hv]
  · cases u <;> rfl
  · rw [treeBuild_stat, statTest_buildStat, hb]
    rfl

/-- The lengths a build reads are the first entries of CLT (R160). -/
theorem State.codeLens_congr {s s' : State} {n : Nat} (h : ∀ i < n, s.codeLen i = s'.codeLen i) :
    s.codeLens n = s'.codeLens n := List.map_congr_left fun i hi => h i (List.mem_range.mp hi)

/-- Settles O28: capacity and lengths are all that `buildTree` is given. -/
theorem buildDependsOnItsLengthsOnly : Obligations.BuildDependsOnItsLengthsOnly := by
  intro s s' t t' u nsym hcap hn hn' hlens ht ht'
  obtain rfl := eq_of_exec_tbuild hn ht
  obtain rfl := eq_of_exec_tbuild hn' ht'
  have hbuild : buildTree (s.params.cap u) (s.codeLens nsym.toNat) = buildTree (s'.params.cap u) (s'.codeLens nsym.toNat) := by
    rw [hcap, State.codeLens_congr hlens]
  refine ⟨fun i => ?_, ?_, fun hstat => ?_⟩
  · rw [treeBuild_slot, treeBuild_slot, hbuild, hcap]
  · rw [treeBuild_tree_same, treeBuild_tree_same, hbuild]
  · rw [treeBuild_stat, treeBuild_stat, hbuild, hstat]

end Sys2Proof.Machine
end

section
/-! SUPPORT. One build, part by part (41_tree_builder.md R161 to R169): what a level allocates, what a placed symbol writes, and the
levels of the example of R175. -/

namespace Sys2Proof.Machine

/-! ## The parts of a level -/

/-- An expanded slot allocates two (R166). -/
theorem Build.expandOne_alloc {b : Build} (h : b.queue ≠ []) : b.expandOne.alloc = b.alloc + 2 := by
  rw [Build.expandOne]
  split
  · contradiction
  · rfl

/-- A push drops no queued slot. -/
theorem Build.push_queue_length (v : Nat) (b : Build) : b.queue.length ≤ (b.push v).queue.length := by
  rw [Build.push_queue]
  split <;> simp

/-- The expand step takes at most the slot it expands from the queue. -/
theorem Build.expandOne_queue_length (b : Build) : b.queue.length ≤ b.expandOne.queue.length + 1 := by
  rw [Build.expandOne]
  split
  · exact Nat.le_succ _
  · rename_i s rest hq
    rw [hq, List.length_cons]
    refine Nat.succ_le_succ (Nat.le_trans ?_ (Build.push_queue_length _ _))
    exact Build.push_queue_length b.alloc { b with tree := _, queue := rest }

/-- Expanding slots that are queued allocates two for each, whether or not their children find room in the queue. -/
theorem Build.expandMany_alloc {k : Nat} {b : Build} (h : k ≤ b.queue.length) :
    (b.expandMany k).alloc = b.alloc + 2 * k := by
  induction k generalizing b with
  | zero => rfl
  | succ k ih =>
    have hne : b.queue ≠ [] := List.ne_nil_of_length_pos (by omega)
    have hlen := b.expandOne_queue_length
    rw [Build.expandMany, ih (by omega), Build.expandOne_alloc hne]
    omega

theorem Build.expandLevel_of_fit {cap : Nat} {b : Build} (h : b.alloc + 2 * b.queue.length ≤ cap) :
    b.expandLevel cap = b.expandMany b.queue.length := if_neg (by omega)

theorem Build.placeLeaf_cons {b : Build} {x : Nat} {rest : List Nat} (h : b.queue = x :: rest) (i : Nat) : b.placeLeaf i =
    { b with tree := Memory.write resetSlot b.tree x (leafSlot (BitVec.ofNat 15 i)), queue := rest } := by
  rw [Build.placeLeaf, h]

/-- Settles O27: the two sides of each test of the builder. -/
theorem builderDropsAndWarns : Obligations.BuilderDropsAndWarns := by
  intro b cap v
  refine ⟨fun h => if_pos h, fun h => if_neg (Nat.not_lt.mpr h), fun h => if_pos h, fun h => ?_, fun h => ?_, fun x rest h => ?_⟩
  · rw [Build.expandLevel_of_fit h]
    obtain ⟨hwcap, -⟩ := b.expandMany_flags b.queue.length
    exact ⟨hwcap, Build.expandMany_alloc le_rfl⟩
  · rw [Build.placeLeaf, h]
  · refine ⟨_, Build.placeLeaf_cons h v, fun i => ?_⟩
    simp only [eq_comm (a := i)]
    exact Memory.read_write b.tree x i _

/-! ## The example of R175 -/

/-- The lengths of the example. -/
def exampleLens : List Byte := [1, 2, 2]

/-- The build of the example after its first level: the root is internal and slot 1 the leaf of symbol 0. -/
def exampleLevelOne : Build := { Build.start with tree := [(0, 0x0001)], queue := [2], alloc := 3, depth := 1 }

/-- The build of the example after its second level. -/
def exampleLevelTwo : Build :=
  { Build.start with tree := [(0, 0x0001), (2, 0x0003), (3, 0x8001), (4, 0x8002)], queue := [], alloc := 5, depth := 2 }

theorem level_exampleLevelOne {cap : Nat} (h : 3 ≤ cap) : Build.start.level cap exampleLens = exampleLevelOne := by
  rw [Build.level, Build.expandLevel_of_fit (by exact h)]
  decide

theorem level_exampleLevelTwo {cap : Nat} (h : 5 ≤ cap) : exampleLevelOne.level cap exampleLens = exampleLevelTwo := by
  rw [Build.level, Build.expandLevel_of_fit (by exact h)]
  decide

/-- Where a symbol is deeper, the next level follows (R170). -/
theorem Build.levels_of_more {cap : Nat} {lens : List Byte} (k : Nat) {b b1 : Build} (hlevel : b.level cap lens = b1)
    (hmore : b1.more lens = true) : b.levels cap lens (k + 1) = b1.levels cap lens k := by
  rw [Build.levels, hlevel]
  exact if_pos hmore

/-- Where none is, the build ends (R170). -/
theorem Build.levels_of_done {cap : Nat} {lens : List Byte} (k : Nat) {b b1 : Build} (hlevel : b.level cap lens = b1)
    (hdone : b1.more lens = false) : b.levels cap lens (k + 1) = b1 := by
  rw [Build.levels, hlevel]
  exact if_neg (Bool.eq_false_iff.mp hdone)

/-- The build of the example: after the second level no symbol is deeper (R170). -/
theorem buildTree_example {cap : Nat} (h : 5 ≤ cap) : buildTree cap exampleLens = exampleLevelTwo := by
  rw [buildTree, Build.levels_of_more 254 (level_exampleLevelOne (by omega)) (by decide),
    Build.levels_of_done 253 (level_exampleLevelTwo h) (by decide)]

/-- Settles O32: the slots are those of `exampleLevelTwo`, which met no warning. -/
theorem lengthsOneTwoTwoBuildTheExampleTree : Obligations.LengthsOneTwoTwoBuildTheExampleTree := by
  intro s u hcap h0 h1 h2
  have hn : (3 : BitVec 12).toNat ≤ s.params.cltMax := by
    rw [Params.cltMax]
    exact (show (3 : BitVec 12).toNat ≤ 8 by decide).trans (Nat.le_max_right _ _)
  have hlens : s.codeLens 3 = exampleLens := by
    show [s.codeLen 0, s.codeLen 1, s.codeLen 2] = _
    rw [h0, h1, h2, exampleLens]
  have hbuild : buildTree (s.params.cap u) (s.codeLens 3) = exampleLevelTwo := by rw [hlens, buildTree_example hcap]
  have hslot : ∀ i, (treeBuild u 3 s).slot u i =
      if i < s.params.cap u then Memory.read resetSlot exampleLevelTwo.tree i else resetSlot := by
    intro i
    rw [treeBuild_slot, hbuild]
  have hlow : ∀ i < 5, (treeBuild u 3 s).slot u i = Memory.read resetSlot exampleLevelTwo.tree i := by
    intro i hi
    rw [hslot, if_pos (by omega)]
  refine ⟨treeBuild u 3 s, exec_tbuild hn u, ?_, hlow 0 (by decide), hlow 1 (by decide), hlow 2 (by decide),
    hlow 3 (by decide), hlow 4 (by decide), fun i hi => ?_⟩
  · rw [treeBuild_stat, hbuild]
    rfl
  · have hwf : Memory.wf resetSlot 5 exampleLevelTwo.tree = true := by decide
    rw [hslot, Memory.read_of_wf hwf hi, ite_self]
    rfl

end Sys2Proof.Machine
end

section
/-! SUPPORT. The leaves of a build (41_tree_builder.md R171): every part of a build writes leaves of used symbols only. -/

namespace Sys2Proof.Machine

/-! ## The lengths a build is given -/

/-- The lengths of a build are the first entries of CLT, and no more (R160). -/
theorem State.codeLens_getElem?_eq_some {s : State} {n k : Nat} {x : Byte} :
    (s.codeLens n)[k]? = some x ↔ k < n ∧ s.codeLen k = x := by
  rw [State.codeLens, List.getElem?_map]
  by_cases hk : k < n
  · simp [hk]
  · simp [hk]

/-! ## Leaves of a RAM -/

/-- A slot that R171 allows a build of the lengths `lens` to leave as a leaf: it has its reset value, or carries a symbol that is
used. -/
def UsedLeaf (lens : List Byte) (v : Slot) : Prop :=
  v = resetSlot ∨ ∃ k x, lens[k]? = some x ∧ x ≠ 0 ∧ v = leafSlot (BitVec.ofNat 15 k)

/-- Every leaf of the RAM is one R171 allows. -/
def LeavesUsed (lens : List Byte) (m : Memory 16) : Prop :=
  ∀ i, isLeaf (Memory.read resetSlot m i) = true → UsedLeaf lens (Memory.read resetSlot m i)

theorem LeavesUsed.nil (lens : List Byte) : LeavesUsed lens [] := fun _ _ => .inl rfl

theorem LeavesUsed.write {lens : List Byte} {m : Memory 16} (h : LeavesUsed lens m) (a : Nat) {v : Slot}
    (hv : isLeaf v = true → UsedLeaf lens v) : LeavesUsed lens (Memory.write resetSlot m a v) := by
  intro i hleaf
  rw [Memory.read_write] at hleaf ⊢
  split at hleaf
  · rw [if_pos ‹_›]; exact hv hleaf
  · rw [if_neg ‹_›]; exact h i hleaf

/-! ## The parts of a build -/

/-- An expanded slot is no leaf as long as ALLOC fits a payload (R166). -/
theorem Build.expandOne_leavesUsed {lens : List Byte} {b : Build} (h : LeavesUsed lens b.tree) (halloc : b.alloc < 32768) :
    LeavesUsed lens b.expandOne.tree := by
  cases hq : b.queue with
  | nil => rw [Build.expandOne, hq]; exact h
  | cons s rest =>
    have htree : b.expandOne.tree = Memory.write resetSlot b.tree s (nodeSlot b.alloc) := by rw [Build.expandOne, hq]; simp
    rw [htree]
    refine h.write s fun hleaf => ?_
    rw [isLeaf_nodeSlot halloc] at hleaf
    cases hleaf

theorem Build.expandMany_leavesUsed {lens : List Byte} {k : Nat} {b : Build} (h : LeavesUsed lens b.tree)
    (hfit : b.alloc + 2 * k < 32768) : LeavesUsed lens (b.expandMany k).tree := by
  induction k generalizing b with
  | zero => exact h
  | succ k ih =>
    have halloc := b.expandOne_alloc_le
    exact ih (Build.expandOne_leavesUsed h (by omega)) (by omega)

theorem Build.expandLevel_leavesUsed {cap : Nat} (hcap : cap < 32768) {lens : List Byte} {b : Build}
    (h : LeavesUsed lens b.tree) : LeavesUsed lens (b.expandLevel cap).tree := by
  rw [Build.expandLevel]
  split
  · exact h
  · exact Build.expandMany_leavesUsed h (by omega)

/-- A placed symbol that is used writes a leaf R171 allows, and a dropped one writes nothing (R168, R169). -/
theorem Build.placeLeaf_leavesUsed {lens : List Byte} {b : Build} {k : Nat} {x : Byte} (h : LeavesUsed lens b.tree)
    (hk : lens[k]? = some x) (hx : x ≠ 0) : LeavesUsed lens (b.placeLeaf k).tree := by
  rw [Build.placeLeaf]
  split
  · exact h
  · exact h.write _ fun _ => .inr ⟨k, x, hk, hx, rfl⟩

/-- The scan of a level places symbols of its depth, which is not 0 (R168, R171). -/
theorem Build.assign_leavesUsed {lens : List Byte} (l : List Byte) (i : Nat) {b : Build} (h : LeavesUsed lens b.tree)
    (hdepth : b.depth ≠ 0) (hl : ∀ j x, l[j]? = some x → lens[i + j]? = some x) : LeavesUsed lens (b.assign l i).tree := by
  induction l generalizing i b with
  | nil => exact h
  | cons x l ih =>
    have hx : lens[i]? = some x := hl 0 x rfl
    have hrest : ∀ j y, l[j]? = some y → lens[i + 1 + j]? = some y := by
      intro j y hj
      rw [Nat.add_assoc, Nat.add_comm 1 j]
      exact hl (j + 1) y hj
    rw [Build.assign]
    split
    · rename_i hxd
      have hx0 : x ≠ 0 := by
        rintro rfl
        exact hdepth hxd.symm
      exact ih (i + 1) (Build.placeLeaf_leavesUsed h hx hx0) (by rwa [Build.placeLeaf_depth]) hrest
    · exact ih (i + 1) h hdepth hrest

theorem Build.level_leavesUsed {cap : Nat} (hcap : cap < 32768) {lens : List Byte} {b : Build} (h : LeavesUsed lens b.tree) :
    LeavesUsed lens (b.level cap lens).tree := by
  refine Build.assign_leavesUsed lens 0 ?_ (Nat.succ_ne_zero _) fun j x hj => ?_
  · exact Build.expandLevel_leavesUsed hcap h
  · rwa [Nat.zero_add]

theorem Build.levels_leavesUsed {cap : Nat} (hcap : cap < 32768) {lens : List Byte} (fuel : Nat) {b : Build}
    (h : LeavesUsed lens b.tree) : LeavesUsed lens (b.levels cap lens fuel).tree := by
  induction fuel generalizing b with
  | zero => exact h
  | succ k ih =>
    rw [Build.levels]
    split
    · exact ih (Build.level_leavesUsed hcap h)
    · exact Build.level_leavesUsed hcap h

/-- Every build leaves only leaves R171 allows. -/
theorem buildTree_leavesUsed {cap : Nat} (hcap : cap < 32768) (lens : List Byte) : LeavesUsed lens (buildTree cap lens).tree :=
  Build.levels_leavesUsed hcap 255 (.nil lens)

/-- Settles O29: a symbol number below `nsym` is read back from its leaf whole. -/
theorem builtLeavesAreUsedSymbols : Obligations.BuiltLeavesAreUsedSymbols := by
  intro s t u nsym i hp hn h hleaf
  obtain rfl := eq_of_exec_tbuild hn h
  rw [treeBuild_slot_read hp] at hleaf ⊢
  obtain hreset | ⟨k, x, hk, hx, hslot⟩ := buildTree_leavesUsed (Params.cap_bounds hp u).2 _ i hleaf
  · exact .inl hreset
  · obtain ⟨hlt, hlen⟩ := State.codeLens_getElem?_eq_some.mp hk
    have hsym : (leafSymbol (leafSlot (BitVec.ofNat 15 k))).toNat = k := by
      have := nsym.isLt
      rw [leafSymbol_leafSlot, BitVec.toNat_ofNat, Nat.mod_eq_of_lt (by omega)]
    rw [hslot, hsym, hlen]
    exact .inr ⟨hlt, hx⟩

end Sys2Proof.Machine
end

section
/-! SUPPORT. The codes of a build without a warning (41_tree_builder.md R180), read off the tree it leaves: each used symbol's
code, and the order the codes are in. -/

namespace Sys2Proof.Machine

/-! ## The lengths of a build, with a default -/

@[simp] theorem State.codeLens_length (s : State) (n : Nat) : (s.codeLens n).length = n := by simp [State.codeLens]

theorem State.codeLens_getD {s : State} {n i : Nat} (h : i < n) : (s.codeLens n).getD i 0 = s.codeLen i := by
  rw [List.getD_eq_getElem?_getD, State.codeLens_getElem?_eq_some.mpr ⟨h, rfl⟩, Option.getD_some]

/-- The codes taken are counted from the lengths of the first `n` symbols only. -/
theorem takenCodes_congr {len len' : Nat → Byte} {n : Nat} (h : ∀ j < n, len j = len' j) (d k : Nat) :
    takenCodes len n d k = takenCodes len' n d k := by
  refine congrArg List.sum (List.map_congr_left fun j hj => ?_)
  rw [h j (List.mem_range.mp hj)]

theorem takenCodes_codeLens (s : State) (n d k : Nat) :
    takenCodes ((s.codeLens n).getD · 0) n d k = takenCodes s.codeLen n d k :=
  takenCodes_congr (fun _ => State.codeLens_getD) d k

/-! ## What a build without a warning leaves -/

/-- A build that leaves the three warnings of STAT clear met none. -/
theorem buildTree_clean_of_stat {u : TreeSel} {n : Nat} {s : State} (hwcap : statTest .wcap (treeBuild u n s).stat = false)
    (hwqovf : statTest .wqovf (treeBuild u n s).stat = false) (hwqempty : statTest .wqempty (treeBuild u n s).stat = false) :
    (buildTree (s.params.cap u) (s.codeLens n)).Clean := by
  simp only [treeBuild_stat, statTest_buildStat, reduceCtorEq, decide_true, decide_false, Bool.and_true, Bool.and_false,
    Bool.or_false, Bool.or_eq_false_iff] at hwcap hwqovf hwqempty
  obtain ⟨-, hcap⟩ := hwcap
  obtain ⟨-, hovf⟩ := hwqovf
  obtain ⟨-, hempty⟩ := hwqempty
  exact ⟨hcap, hovf, hempty⟩

/-- A build ends at a depth no symbol exceeds (R170). -/
theorem codeLen_le_depth (cap : Nat) (s : State) {n i : Nat} (h : i < n) :
    (s.codeLen i).toNat ≤ (buildTree cap (s.codeLens n)).depth := by
  have hmem : s.codeLen i ∈ s.codeLens n := List.mem_map_of_mem (List.mem_range.mpr h)
  have hdone := List.any_eq_false.mp (buildTree_done cap (s.codeLens n)) _ hmem
  exact Nat.not_lt.mp (of_decide_eq_false (Bool.eq_false_iff.mpr hdone))

/-- `bits` is the code R180 gives symbol `i` in tree `u` of `t`, built from the first `n` lengths of `s`: it has the symbol's
length, the walk on it ends at the symbol's leaf, and its value is the next free one. -/
structure CodeOf (s t : State) (u : TreeSel) (n i : Nat) (bits : List Bool) : Prop where
  length : bits.length = (s.codeLen i).toNat
  walk : t.symbolBits u bits = some (BitVec.ofNat 15 i, [])
  value : bitsValue bits = takenCodes s.codeLen n (s.codeLen i).toNat i

theorem exists_codeOf_treeBuild {s : State} {u : TreeSel} {n i : Nat} (hp : s.params.wf = true)
    (hclean : (buildTree (s.params.cap u) (s.codeLens n)).Clean) (hi : i < n) (hused : s.codeLen i ≠ 0) :
    ∃ bits, CodeOf s (treeBuild u n s) u n i bits := by
  obtain ⟨hpos, hcap⟩ := Params.cap_bounds hp u
  have hok := buildTree_ok hpos hcap (s.codeLens n)
  have hlen : 1 ≤ (s.codeLen i).toNat := Nat.one_le_iff_ne_zero.mpr fun h => hused (BitVec.eq_of_toNat_eq h)
  obtain ⟨e, ⟨bits, hbits, hvalue, hpath⟩, hleaf, -, -⟩ := (buildTree_codes hpos hcap hclean).placed i
    (by simpa only [State.codeLens_getD hi] using ⟨hlen, codeLen_le_depth _ s hi⟩)
  rw [State.codeLens_getD hi] at hbits hvalue
  rw [State.codeLens_length, takenCodes_codeLens] at hvalue
  refine ⟨bits, hbits, ?_, hvalue⟩
  have hbehind : ∀ a, isLeaf (Memory.read resetSlot (buildTree (s.params.cap u) (s.codeLens n)).tree a) = false →
      firstChild (Memory.read resetSlot (buildTree (s.params.cap u) (s.codeLens n)).tree a) + 1 < s.params.cap u :=
    fun a ha => (hok.shape a ha).2.trans_le hok.alloc_le
  rw [State.symbolBits, walkBits_of_pathEnd (fun a _ => treeBuild_slot_read hp u n a) hbehind hpos hpath
    (by rw [hleaf]; exact isLeaf_leafSlot _), hleaf, leafSymbol_leafSlot]

/-! ## The order of the codes -/

section

variable {s t : State} {u : TreeSel} {n i j : Nat} {a b : List Bool}

/-- Codes of one length rise with the symbol. -/
theorem CodeOf.lt_of_lt (ha : CodeOf s t u n i a) (hb : CodeOf s t u n j b) (hij : i < j) (hj : j < n)
    (hused : s.codeLen i ≠ 0) (heq : s.codeLen j = s.codeLen i) : bitsValue a < bitsValue b := by
  rw [ha.value, hb.value, heq]
  exact takenCodes_lt_of_lt s.codeLen (fun h => hused (BitVec.eq_of_toNat_eq h)) hij hj.le rfl

/-- A shorter code lies before the leading bits of a longer one. -/
theorem CodeOf.lt_take_of_shorter (ha : CodeOf s t u n i a) (hb : CodeOf s t u n j b) (hi : i < n)
    (hused : s.codeLen i ≠ 0) (hlt : (s.codeLen i).toNat < (s.codeLen j).toNat) :
    bitsValue a < bitsValue (b.take (s.codeLen i).toNat) := by
  have hbehind := takenCodes_shorter s.codeLen (n := n) (j := j) (fun h => hused (BitVec.eq_of_toNat_eq h)) hlt hi rfl
  rw [← ha.value, ← hb.value] at hbehind
  have hlen : (b.drop (s.codeLen i).toNat).length = (s.codeLen j).toNat - (s.codeLen i).toNat := by
    rw [List.length_drop, hb.length]
  have hsplit := bitsValue_append_list (b.take (s.codeLen i).toNat) (b.drop (s.codeLen i).toNat)
  have htail := bitsValue_lt (b.drop (s.codeLen i).toNat)
  rw [List.take_append_drop, hlen] at hsplit
  rw [hlen] at htail
  have hmul : 2 ^ ((s.codeLen j).toNat - (s.codeLen i).toNat) * (bitsValue a + 1) <
      2 ^ ((s.codeLen j).toNat - (s.codeLen i).toNat) * (bitsValue (b.take (s.codeLen i).toNat) + 1) := by
    rw [Nat.mul_add_one _ (bitsValue (b.take _))]
    omega
  exact Nat.lt_of_succ_lt_succ (Nat.lt_of_mul_lt_mul_left hmul)

end

/-- Settles O30: every used symbol has its code of R180, and the values of these codes give their order. -/
theorem everyUsedSymbolGetsACodeOfItsLength : Obligations.EveryUsedSymbolGetsACodeOfItsLength := by
  intro s t u nsym hp hn h hwcap hwqovf hwqempty
  obtain rfl := eq_of_exec_tbuild hn h
  have hclean := buildTree_clean_of_stat hwcap hwqovf hwqempty
  choose! code hcode using fun i => exists_codeOf_treeBuild (i := i) hp hclean
  refine ⟨code, fun i hi hused => ?_, fun i j hij hj hused heq => ?_, fun i j hi hj hused hlt => ?_⟩
  · exact ⟨(hcode i hi hused).length, (hcode i hi hused).walk, (hcode i hi hused).value⟩
  · exact (hcode i (hij.trans hj) hused).lt_of_lt (hcode j hj (heq ▸ hused)) hij hj hused heq
  · have hused' : s.codeLen j ≠ 0 := fun h => Nat.not_lt_zero _ (h ▸ hlt)
    exact (hcode i hi hused).lt_take_of_shorter (hcode j hj hused') hi hused hlt

end Sys2Proof.Machine
end

section
/-! SUPPORT. Reading a tree (41_tree_builder.md R177): the header applied as TSINGLE or TBUILD does it. -/

namespace Sys2Proof.Machine

theorem treeBuild_clt (t : TreeSel) (n : Nat) (s : State) : (treeBuild t n s).clt = s.clt := by
  rw [treeBuild_frame]
  exact State.setTree_clt t _ s

theorem treeBuild_codeLen (t : TreeSel) (n : Nat) (s : State) (i : Nat) : (treeBuild t n s).codeLen i = s.codeLen i := by
  rw [State.codeLen, treeBuild_clt, State.codeLen]

theorem OnlyReaderMoved.codeLen_eq {s t : State} (h : OnlyReaderMoved s t) : t.codeLen = s.codeLen := by
  funext i
  rw [State.codeLen, h.clt_eq, State.codeLen]

/-- CLT_MAX fits the count field of TBUILD (00_scope.md R11; 30_encoding.md R108). -/
theorem Params.cltMax_lt {p : Params} (h : p.wf = true) : p.cltMax < 4096 := by
  obtain ⟨-, hsyms, -⟩ := (Params.wf_iff p).mp h
  rw [Params.cltMax]
  omega

/-- A header of lengths is written into CLT, and the tree is built from CLT as TBUILD builds it. -/
theorem applyHeader_lengths (u : TreeSel) {n : Nat} (l : Vector Byte n) {m : State} (hn : n ≤ m.params.cltMax) (hn' : n < 4096) :
    (∀ i, (applyHeader u n (.lengths l) m).codeLen i = if i < n then l.toList.getD i 0 else m.codeLen i) ∧
      exec (.tbuild u (BitVec.ofNat 12 n)) { m with clt := (applyHeader u n (.lengths l) m).clt } =
        .next (applyHeader u n (.lengths l) m) := by
  have hcount : (BitVec.ofNat 12 n).toNat = n := by rw [BitVec.toNat_ofNat, Nat.mod_eq_of_lt hn']
  constructor
  · intro i
    rw [applyHeader, treeBuild_codeLen, writeLens_codeLen, Vector.length_toList]
    simp only [Nat.zero_le, true_and, Nat.zero_add, Nat.sub_zero]
  · have hwritten : { m with clt := (applyHeader u n (.lengths l) m).clt } = writeLens 0 l.toList m := by
      rw [applyHeader, treeBuild_clt]
      exact (writeLens_frame 0 l.toList m).symm
    rw [hwritten, exec_tbuild (by rw [hcount, writeLens_frame]; exact hn), hcount, applyHeader]

/-- Settles O41: the header is read from the bits of the stream and then applied, or cut short. -/
theorem readTreeBuildsWhatTheHeaderSays : Obligations.ReadTreeBuildsWhatTheHeaderSays := by
  intro s u n hp hn
  obtain ⟨h, m, hread, hbits, hmoved, -⟩ | ⟨t, hread, hbits, hmoved, -, -⟩ := readTree_cases u n s
  · refine ⟨fun h' rest hbits' => ?_, fun hnone => ?_⟩
    · obtain ⟨rfl, rfl⟩ := Prod.mk.inj (Option.some.inj (hbits.symm.trans hbits'))
      refine ⟨m, applyHeader u n h m, hread, hmoved, rfl, ?_⟩
      cases h with
      | single x => rfl
      | lengths l =>
        rw [← hmoved.codeLen_eq]
        exact applyHeader_lengths u l (by rw [hmoved.params_eq]; exact hn) (hn.trans_lt (Params.cltMax_lt hp))
    · rw [hbits] at hnone
      cases hnone
  · refine ⟨fun h rest hsome => ?_, fun _ => ⟨t, hread, hmoved⟩⟩
    rw [hbits] at hsome
    cases hsome

end Sys2Proof.Machine
end

section
/-! SUPPORT. DECODE: the walk from a leaf, the two ends of a walk on the stream, and how many bits a walk on a tree in bounds can
read (42_tree_decoder.md R201 to R206). -/

namespace Sys2Proof.Machine

/-! ## One turn of the walk -/

/-- At a leaf the machine reads nothing. -/
theorem walk_of_leaf {v : Slot} (h : isLeaf v = true) (t : TreeSel) (fuel : Nat) (s : State) :
    walk t fuel v s = .ok (leafSymbol v) s := by
  cases fuel with
  | zero => rw [walk, if_pos h]
  | succ k => rw [walk, if_pos h]

/-- A child slot is one of two neighbours (R201, R207). -/
theorem childSlot_bounds (v : Slot) (b : Bool) : firstChild v ≤ childSlot v b ∧ childSlot v b ≤ firstChild v + 1 :=
  ⟨Nat.le_add_right _ _, Nat.add_le_add_left b.toNat_le _⟩

/-! ## DECODE -/

/-- DECODE reads a symbol and then writes RES (R202). -/
theorem exec_decode (u : TreeSel) (s : State) : exec (.decode u) s =
    .next ((decodeSym u s).finish fun x t => t.setRes (resOfSymbol x)) := rfl

/-- DECODE of a tree whose root is a leaf (R204, R205). -/
theorem exec_decode_of_leaf {u : TreeSel} {s : State} (h : isLeaf (s.slot u 0) = true) :
    exec (.decode u) s = .next (s.setRes (resOfSymbol (leafSymbol (s.slot u 0)))) := by
  rw [exec_decode, decodeSym, walk_of_leaf h]
  rfl

/-- Settles O25: either tree has a leaf at its root. -/
theorem singleLeafDecodesWithoutABit : Obligations.SingleLeafDecodesWithoutABit := by
  intro s t u x hp
  refine ⟨fun hsingle => ?_, fun hreset => ?_⟩
  · obtain rfl : treeSingle u x s = t := Host.Outcome.next.inj hsingle
    have hroot : (treeSingle u x s).slot u 0 = leafSlot x := treeSingle_slot hp u x 0
    rw [exec_decode_of_leaf (by rw [hroot]; exact isLeaf_leafSlot x), hroot, leafSymbol_leafSlot]
    rfl
  · have hroot : s.slot u 0 = resetSlot := hreset 0
    rw [exec_decode_of_leaf (by rw [hroot]; exact isLeaf_resetSlot), hroot, leafSymbol_resetSlot]
    rfl

/-- DECODE whose walk ends in a leaf. The reader has not moved where the walk read no bit, and is lazy where it read one (R202;
40_bitstream.md R143). -/
theorem exec_decode_ok {u : TreeSel} {s : State} {x : Symbol} {rest : List Bool}
    (h : s.symbolBits u s.pendingBits = some (x, rest)) :
    ∃ m, exec (.decode u) s = .next (m.setRes (resOfSymbol x)) ∧ m.pendingBits = rest ∧ OnlyReaderMoved s m ∧
      (rest ≠ s.pendingBits ∨ ReaderLazy s → ReaderLazy m) := by
  have hagrees := decodeSym_agrees u s
  rw [h] at hagrees
  obtain ⟨m, hrun, hbits, hmoved, -⟩ := hagrees
  refine ⟨m, ?_, hbits, hmoved, fun hread => ?_⟩
  · rw [exec_decode, hrun]
    rfl
  · obtain rfl | hlazy := walk_lazy hrun
    · exact hread.resolve_left (absurd hbits.symm)
    · exact hlazy

/-- A command whose bits end before its read does: its last part does not run (60_exceptions.md R302; 40_bitstream.md R145). -/
theorem EndsAtEos.finish {α : Type} {r : Run α} {s : State} (hagrees : AgreesWith r s none) (hdrains : Drains r s)
    (hs : ReaderOk s) (f : α → State → State) : EndsAtEos s (r.finish f) := by
  obtain ⟨m, rfl, hmoved, hkept, hvalid⟩ := hagrees
  exact .raise_eos hmoved hvalid (hkept.ok hs hvalid) hdrains

/-- DECODE whose bits end inside the walk (R206). -/
theorem exec_decode_eos {u : TreeSel} {s : State} (hs : ReaderOk s) (h : s.symbolBits u s.pendingBits = none) :
    ∃ t, exec (.decode u) s = .next t ∧ EndsAtEos s t :=
  ⟨_, exec_decode u s, .finish (h ▸ decodeSym_agrees u s) (decodeSym_drains u s) hs _⟩

/-- Settles O34: DECODE does what the walk on the list of bits says. -/
theorem decodeWalksFromTheRoot : Obligations.DecodeWalksFromTheRoot := by
  intro s u
  refine ⟨by cases u <;> rfl, fun x rest h => ?_, exec_decode_eos⟩
  obtain ⟨m, hrun, hbits, hmoved, hlazy⟩ := exec_decode_ok h
  refine ⟨m.setRes (resOfSymbol x), hrun, rfl, hbits, hlazy, ?_⟩
  rw [hmoved]
  rfl

/-! ## The length of a walk -/

/-- Each bit takes the walk to a slot further behind, and the capacity bounds the slots: from slot `a` at most `cap − 1 − a` bits
are read (R203; 41_tree_builder.md R178). -/
theorem walkBits_length_le {cap : Nat} {rd : Nat → Slot}
    (hbounds : ∀ i, i < cap → isLeaf (rd i) = false → i < firstChild (rd i) ∧ firstChild (rd i) + 1 < cap)
    {bits rest : List Bool} {x : Symbol} {a : Nat} (ha : a < cap) (h : walkBits rd (rd a) bits = some (x, rest)) :
    bits.length + a + 1 ≤ rest.length + cap := by
  induction bits generalizing a with
  | nil =>
    rw [walkBits] at h
    split at h
    · cases h
      omega
    · cases h
  | cons b bits ih =>
    rw [walkBits] at h
    split at h
    · cases h
      omega
    · next hinner =>
      obtain ⟨hbehind, hbelow⟩ := hbounds a ha (Bool.eq_false_of_not_eq_true hinner)
      obtain ⟨hlow, hhigh⟩ := childSlot_bounds (rd a) b
      have hlater : bits.length + childSlot (rd a) b + 1 ≤ rest.length + cap := ih (by omega) h
      rw [List.length_cons]
      omega

/-- Settles O35: the walk starts at slot 0. -/
theorem walkReadsFewerBitsThanTheCapacity : Obligations.WalkReadsFewerBitsThanTheCapacity := by
  intro s u x bits rest hp htrees h
  exact walkBits_length_le (htrees u) (Params.cap_bounds hp u).1 h

end Sys2Proof.Machine
end

section
/-! SUPPORT. The commands of the ring, and the history: the commands that leave the ring alone, the commands that push what they
emit, and from these what a list of commands leaves to be read back (43_ring_buffer.md R221 to R227). -/

namespace Sys2Proof.Machine

/-! ## RPUSH and RREAD -/

theorem exec_rpush (b : Byte) (s : State) : exec (.rpush b) s = .next (ringPush b s) := rfl

theorem exec_rread (k : BitVec 16) (s : State) :
    exec (.rread k) s = .next { s with res := (ringRead k s).setWidth 16 } := rfl

/-- Settles O36: RPUSH is one push. -/
theorem rpushWritesAtTheCursor : Obligations.RpushWritesAtTheCursor := fun s b =>
  ⟨by rw [encode, field_zero], ringPush b s, exec_rpush b s, ringAt_push b s, cursor_succ s.rbWp, rfl⟩

/-- Settles O37: the slot is the one `ringIndex` gives. -/
theorem rreadReadsBehindTheCursor : Obligations.RreadReadsBehindTheCursor := fun s k =>
  ⟨by rw [encode, field_zero], ringIndex s.rbWp k, ringIndex_lt s.rbWp k, ringIndex_spec s.rbWp k, exec_rread k s⟩

/-! ## The ring and the output left alone -/

/-- The ring, its cursor, its fill and the output are the same in `s` and `t`. -/
structure RingUntouched (s t : State) : Prop where
  params : t.params = s.params
  out : t.out = s.out
  ring : t.ring = s.ring
  rbWp : t.rbWp = s.rbWp

theorem RingUntouched.trans {s t u : State} (h : RingUntouched s t) (h' : RingUntouched t u) : RingUntouched s u :=
  ⟨h'.params.trans h.params, h'.out.trans h.out, h'.ring.trans h.ring, h'.rbWp.trans h.rbWp⟩

theorem RingUntouched.setRes (v : Half) (s : State) : RingUntouched s (s.setRes v) := ⟨rfl, rfl, rfl, rfl⟩

theorem RingUntouched.raise (f : Failure) (s : State) : RingUntouched s (s.raise f) := ⟨rfl, rfl, rfl, rfl⟩

theorem RingUntouched.setTree (t : TreeSel) (m : Memory 16) (s : State) : RingUntouched s (s.setTree t m) :=
  ⟨s.setTree_params t m, s.setTree_out t m, s.setTree_ring t m, s.setTree_rbWp t m⟩

theorem RingUntouched.treeBuild (t : TreeSel) (n : Nat) (s : State) : RingUntouched s (treeBuild t n s) :=
  (RingUntouched.setTree t _ s).trans ⟨rfl, rfl, rfl, rfl⟩

theorem OnlyReaderMoved.ringUntouched {s t : State} (h : OnlyReaderMoved s t) : RingUntouched s t :=
  ⟨h.params_eq, h.out_eq, h.ring_eq, h.rbWp_eq⟩

theorem rebuildIfDue_ringUntouched (s : State) : RingUntouched s (rebuildIfDue s).state := by
  obtain ⟨hparams, -, -, hout, -, -, hring, hwp, -⟩ := rebuildIfDue_frame s
  exact ⟨hparams, hout, hring, hwp⟩

theorem produceReads_ringUntouched (s : State) : RingUntouched s (produceReads s).state :=
  (rebuildIfDue_ringUntouched s).trans (produceReads_moved s).ringUntouched

/-! ## What is emitted is pushed -/

/-- From `s` to `t` exactly the bytes appended to the output are pushed into the ring (44_variant_rebuild.md R241). -/
structure PushesWhatItEmits (s t : State) : Prop where
  params : t.params = s.params
  history : ∀ {ps : List Byte}, History ps s → History (ps ++ t.out.drop s.out.length) t

/-- Nothing is emitted and nothing is pushed. -/
theorem RingUntouched.pushesWhatItEmits {s t : State} (h : RingUntouched s t) : PushesWhatItEmits s t where
  params := h.params
  history hist := by
    rw [h.out, List.drop_length, List.append_nil]
    exact hist.of_eq h.params h.ring h.rbWp

/-- An emission after a part that leaves the ring alone. -/
theorem PushesWhatItEmits.after {s t u : State} (h : PushesWhatItEmits t u) (hs : RingUntouched s t) : PushesWhatItEmits s u where
  params := h.params.trans hs.params
  history hist := hs.out ▸ h.history (hist.of_eq hs.params hs.ring hs.rbWp)

theorem PushesWhatItEmits.setRes {s t : State} (h : PushesWhatItEmits s t) (v : Half) : PushesWhatItEmits s (t.setRes v) where
  params := h.params
  history hist := (h.history hist).of_eq rfl rfl rfl

theorem emit_pushesWhatItEmits (b : Byte) (s : State) : PushesWhatItEmits s (emit b s) where
  params := rfl
  history hist := by
    rw [emit_out, List.drop_left' rfl]
    exact (hist.push b).of_eq rfl rfl rfl

theorem emitCopy_pushesWhatItEmits (n : Nat) (d : BitVec 16) (s : State) : PushesWhatItEmits s (emitCopy n d s) where
  params := (emitCopy_onlyEmitted n d s).params_eq
  history hist := hist.emitCopy n d

theorem emitToken_pushesWhatItEmits {m : Nat} (tok : Token m) (s : State) : PushesWhatItEmits s (emitToken tok s) := by
  cases tok with
  | literal b => exact (emit_pushesWhatItEmits b s).setRes _
  | copy len dist => exact (emitCopy_pushesWhatItEmits len.val dist s).setRes _

/-- A command that reads and then does its last part. -/
theorem Run.finish_pushesWhatItEmits {α : Type} {s : State} {r : Run α} {f : α → State → State}
    (hreads : RingUntouched s r.state) (hlast : ∀ a u, PushesWhatItEmits u (f a u)) : PushesWhatItEmits s (r.finish f) := by
  cases r with
  | ok a u => exact (hlast a u).after hreads
  | eos u => exact (hreads.trans (.raise .eos u)).pushesWhatItEmits

/-- A command that reads a value and only puts it into RES. -/
theorem Run.finish_setRes_pushesWhatItEmits {α : Type} {s : State} {r : Run α} (hreads : RingUntouched s r.state)
    (g : α → Half) : PushesWhatItEmits s (r.finish fun a u => u.setRes (g a)) :=
  Run.finish_pushesWhatItEmits hreads fun a u => (RingUntouched.setRes (g a) u).pushesWhatItEmits

/-- Every command but INIT and RPUSH pushes what it emits, and nothing else (43_ring_buffer.md R223). -/
theorem exec_pushesWhatItEmits {i : Instr} {s t : State} (hinit : i ≠ .init) (hrpush : ∀ b, i ≠ .rpush b)
    (h : exec i s = .next t) : PushesWhatItEmits s t := by
  cases i
  case init => exact absurd rfl hinit
  case rpush b => exact absurd rfl (hrpush b)
  all_goals obtain rfl := Host.Outcome.next.inj h
  case rdbits nm1 => exact Run.finish_setRes_pushesWhatItEmits (readBitsInto_moved _ 0 s).ringUntouched id
  case decode u => exact Run.finish_setRes_pushesWhatItEmits (decodeSym_agrees u s).state_moved.ringUntouched resOfSymbol
  case lit b => exact (emit_pushesWhatItEmits b s).setRes _
  case copy len dist => exact (emitCopy_pushesWhatItEmits (count12 len) dist s).setRes _
  case rebuild => exact Run.finish_setRes_pushesWhatItEmits (rebuildIfDue_ringUntouched s) fun ran => resOfCount ran.toNat
  case produce => exact Run.finish_pushesWhatItEmits (produceReads_ringUntouched s) emitToken_pushesWhatItEmits
  all_goals apply RingUntouched.pushesWhatItEmits
  case cltw idx len =>
    split
    · exact ⟨rfl, rfl, rfl, rfl⟩
    · exact .raise .ill s
  case treset u => exact .setTree u [] s
  case tbuild u n =>
    split
    · exact .treeBuild u (count12 n) s
    · exact .raise .ill s
  case tsingle u x => exact .setTree u _ s
  case rread dist => exact .setRes _ s
  case reservedD rest => exact .raise .ill s
  case reservedE rest => exact .raise .ill s
  case reservedF rest => exact .raise .ill s

/-! ## The pushes of a list of commands -/

theorem execAll_cons {i : Instr} {s u : State} (h : exec i s = .next u) (l : List Instr) :
    execAll (i :: l) s = execAll l u := by
  rw [execAll, h]

theorem pushedBytes_rpush_cons (b : Byte) (l : List Instr) (s : State) :
    pushedBytes (.rpush b :: l) s = b :: pushedBytes l (ringPush b s) := rfl

theorem pushedBytes_cons_of_ne {i : Instr} {s u : State} (hrpush : ∀ b, i ≠ .rpush b) (h : exec i s = .next u)
    (l : List Instr) : pushedBytes (i :: l) s = u.out.drop s.out.length ++ pushedBytes l u := by
  rw [pushedBytes, h]
  cases i
  case rpush b => exact absurd rfl (hrpush b)
  all_goals rfl

/-- RPUSH of a list of bytes pushes that list. -/
theorem pushedBytes_map_rpush (ps : List Byte) (s : State) : pushedBytes (ps.map .rpush) s = ps := by
  induction ps generalizing s with
  | nil => rfl
  | cons b ps ih => rw [List.map_cons, pushedBytes_rpush_cons, ih]

/-- Commands without INIT complete, and add their pushes to the history they started with (43_ring_buffer.md R227). -/
theorem execAll_history {l : List Instr} {s : State} {ps : List Byte} (hl : .init ∉ l) (hist : History ps s) :
    ∃ t, execAll l s = .next t ∧ t.params = s.params ∧ History (ps ++ pushedBytes l s) t := by
  induction l generalizing s ps with
  | nil => exact ⟨s, rfl, rfl, by rw [pushedBytes, List.append_nil]; exact hist⟩
  | cons i l ih =>
    rw [List.mem_cons, not_or] at hl
    obtain ⟨hinit, hl⟩ := hl
    by_cases hrpush : ∃ b, i = .rpush b
    · obtain ⟨b, rfl⟩ := hrpush
      obtain ⟨t, hrun, hparams, hend⟩ := ih hl (hist.push b)
      refine ⟨t, hrun, hparams, ?_⟩
      rw [pushedBytes_rpush_cons, List.append_cons]
      exact hend
    · have hne : ∀ b, i ≠ .rpush b := not_exists.mp hrpush
      obtain ⟨u, hu⟩ := exec_next i s
      have hpush := exec_pushesWhatItEmits (Ne.symm hinit) hne hu
      obtain ⟨t, hrun, hparams, hend⟩ := ih hl (hpush.history hist)
      refine ⟨t, (execAll_cons hu l).trans hrun, hparams.trans hpush.params, ?_⟩
      rw [pushedBytes_cons_of_ne hne hu, ← List.append_assoc]
      exact hend

/-- Settles O38: a session starts with an empty history, and every command after INIT adds its pushes to it. -/
theorem historyReadsBackThePushes : Obligations.HistoryReadsBackThePushes := by
  intro s s0 l hinit hl
  obtain rfl : s.newSession = s0 := Host.Outcome.next.inj hinit
  obtain ⟨t, hrun, hparams, hist⟩ := execAll_history hl (History.newSession s)
  refine ⟨t, hrun, fun k h1 h2 => ?_, ?_, ?_⟩
  · rw [exec_rread, hist k h1 h2, hparams]
    rfl
  · rw [exec_rread, exec_rread, ringRead_mod 0 8192 t rfl]
  · rintro ps rfl
    exact pushedBytes_map_rpush ps _

end Sys2Proof.Machine
end

section
/-! SUPPORT. Emission: LIT and COPY as the emission of a token, how many bytes a token appends and counts, and which byte
each one of a copy is (44_variant_rebuild.md R241 to R244). -/

namespace Sys2Proof.Machine

/-! ## LIT and COPY -/

theorem exec_lit (b : Byte) (s : State) : exec (.lit b) s = .next ((emit b s).setRes 1) := rfl

theorem exec_copy (len : BitVec 12) (d : BitVec 16) (s : State) :
    exec (.copy len d) s = .next ((emitCopy len.toNat d s).setRes (resOfCount len.toNat)) := rfl

theorem ringRead_setRes (v : Half) (k : BitVec 16) (s : State) : ringRead k (s.setRes v) = ringRead k s := rfl

/-- RES holds every byte count of a command whole (30_encoding.md R113). -/
theorem toNat_resOfCount {n : Nat} (h : n ≤ 4095) : (resOfCount n).toNat = n := by
  rw [resOfCount, BitVec.toNat_ofNat]
  omega

/-- Settles O39: LIT is one emission. -/
theorem litEmitsItsByte : Obligations.LitEmitsItsByte := fun s b =>
  ⟨by rw [encode, field_zero], _, exec_lit b s, rfl, ringAt_emit b s, cursor_succ s.rbWp, countDown_toInt s.rcCount, rfl, rfl⟩

/-! ## The bytes of a copy -/

/-- Once a copy has pushed its first byte, its byte `j + 1` is byte `j` of the copy that begins there; where that is the byte just
pushed, the distance starts again at `e` (44_variant_rebuild.md R244). -/
theorem ringRead_emit_period {e : Nat} (h1 : 1 ≤ e) (h2 : e ≤ 8192) (j : Nat) (s : State) :
    ringRead (BitVec.ofNat 16 (e - j % e)) (emit (ringRead (BitVec.ofNat 16 e) s) s) =
      ringRead (BitVec.ofNat 16 (e - (j + 1) % e)) s := by
  have hlt : j % e < e := Nat.mod_lt j h1
  have hdiv := Nat.div_add_mod j e
  rw [ringRead_emit, ringRead_push _ s (by omega) (by omega)]
  by_cases hlast : e - j % e = 1
  · have hwrap : (j + 1) % e = 0 := Nat.mod_eq_zero_of_dvd ⟨j / e + 1, by rw [Nat.mul_add]; omega⟩
    rw [if_pos hlast, hwrap, Nat.sub_zero]
  · have hnext : (j + 1) % e = j % e + 1 := by
      rw [← hdiv, Nat.add_assoc, Nat.mul_add_mod, Nat.mul_add_mod, Nat.mod_mod]
      exact Nat.mod_eq_of_lt (by omega)
    rw [if_neg hlast, hnext, Nat.sub_add_eq]

/-- The output of a copy (44_variant_rebuild.md R243, R244). -/
theorem emitCopy_out {e : Nat} {d : BitVec 16} (h1 : 1 ≤ e) (h2 : e ≤ 8192) (hd : e % 8192 = d.toNat % 8192) (n : Nat)
    (s : State) : (emitCopy n d s).out =
      s.out ++ (List.range n).map fun j => ringRead (BitVec.ofNat 16 (e - j % e)) s := by
  have hfirst : ∀ s, ringRead d s = ringRead (BitVec.ofNat 16 e) s := fun s =>
    ringRead_mod _ _ s (by rw [BitVec.toNat_ofNat]; omega)
  induction n generalizing s with
  | zero => simp [emitCopy]
  | succ k ih =>
    rw [emitCopy, ih, emit_out, hfirst, List.range_succ_eq_map, List.map_cons, List.map_map, Nat.zero_mod, Nat.sub_zero,
      List.append_assoc, List.singleton_append]
    simp only [ringRead_emit_period h1 h2, Function.comp_def]

/-- Read back: first what the copy emitted, newest first, and behind it what was there before (43_ring_buffer.md R227). -/
theorem ringRead_emitCopy (n : Nat) (d : BitVec 16) (s : State) {k : Nat} (h1 : 1 ≤ k) (h2 : k ≤ 8192) :
    ringRead (BitVec.ofNat 16 k) (emitCopy n d s) =
      if k ≤ n then (emitCopy n d s).out.getD ((emitCopy n d s).out.length - k) 0
      else ringRead (BitVec.ofNat 16 (k - n)) s := by
  induction n generalizing s with
  | zero => rw [if_neg (by omega)]; rfl
  | succ j ih =>
    rw [emitCopy, ih]
    by_cases hnew : k ≤ j
    · rw [if_pos hnew, if_pos (by omega)]
    · rw [if_neg hnew, ringRead_emit, ringRead_push _ s (by omega) (by omega)]
      by_cases hfirst : k = j + 1
      · obtain ⟨l, hl⟩ := emitCopy_out_prefix j d (emit (ringRead d s) s)
        have hlen := emitCopy_out_length j d (emit (ringRead d s) s)
        have hplace : (emitCopy j d (emit (ringRead d s) s)).out.length - k = s.out.length := by
          rw [hlen, emit_out, List.length_append, List.length_singleton]; omega
        rw [if_pos (by omega), if_pos (by omega), hplace, ← hl, emit_out, List.append_assoc]
        simp
      · rw [if_neg (by omega), if_neg (by omega), Nat.sub_sub]

/-- Settles O40: a copy has at most 4095 bytes, so RES holds its length. -/
theorem copyEmitsAndRepeats : Obligations.CopyEmitsAndRepeats := by
  intro s len d
  refine ⟨by rw [encode, field_zero]; rfl, _, exec_copy len d s, ?_⟩
  refine ⟨fun e h1 h2 hd => emitCopy_out h1 h2 hd _ s, emitCopy_out_length _ d s, fun k h1 hk => ?_, fun k hk h2 => ?_,
    emitCopy_rbWp _ d s, emitCopy_rcCount _ d s, toNat_resOfCount (by omega), ?_⟩
  · rw [ringRead_setRes, ringRead_emitCopy _ d s h1 (by omega), if_pos hk]
    rfl
  · rw [ringRead_setRes, ringRead_emitCopy _ d s (by omega) h2, if_neg (by omega)]
  · exact emitToken_onlyEmitted (m := 4095) (.copy ⟨len.toNat, len.isLt⟩ d) s

/-! ## A token's emission -/

/-- The command that emits a token. -/
def tokenInstr {m : Nat} : Token m → Instr
  | .literal b => .lit b
  | .copy len d => .copy (BitVec.ofNat 12 len.val) d

/-- How many bytes a token stands for (00_scope.md R13). -/
def tokenSize {m : Nat} : Token m → Nat
  | .literal _ => 1
  | .copy len _ => len.val

/-- LIT and COPY emit a token as PRODUCE does, where the length field holds MAX_COPY (00_scope.md R11; 30_encoding.md R112). -/
theorem exec_tokenInstr {m : Nat} (hm : m ≤ 4095) (tok : Token m) (s : State) :
    exec (tokenInstr tok) s = .next (emitToken tok s) := by
  cases tok with
  | literal b => rfl
  | copy len d =>
    have hlen : (BitVec.ofNat 12 len.val).toNat = len.val := by rw [BitVec.toNat_ofNat]; omega
    rw [tokenInstr, exec_copy, hlen]
    rfl

/-- LIT and COPY emit a token of at most 4095 bytes (30_encoding.md R112). -/
theorem exec_emits {i : Instr} (hi : (∃ b, i = .lit b) ∨ ∃ l d, i = .copy l d) :
    ∃ tok : Token 4095, ∀ s, exec i s = .next (emitToken tok s) := by
  obtain ⟨b, rfl⟩ | ⟨len, d, rfl⟩ := hi
  · exact ⟨.literal b, fun s => rfl⟩
  · exact ⟨.copy ⟨len.toNat, len.isLt⟩ d, fun s => rfl⟩

/-- RES is not read by an emission, and set at its end. -/
theorem emitToken_setRes {m : Nat} (tok : Token m) (v : Half) (s : State) : emitToken tok (s.setRes v) = emitToken tok s := by
  have hcopy : ∀ (n : Nat) (d : BitVec 16) (s : State), emitCopy n d (s.setRes v) = (emitCopy n d s).setRes v := by
    intro n d
    induction n with
    | zero => exact fun s => rfl
    | succ k ih => exact fun s => ih (emit (ringRead d s) s)
  cases tok with
  | literal b => rfl
  | copy len d => rw [emitToken, hcopy]; rfl

theorem tokenSize_le {m : Nat} (tok : Token m) : tokenSize tok ≤ max 1 m := by
  cases tok with
  | literal b => exact Nat.le_max_left 1 m
  | copy len d => exact (Nat.le_of_lt_succ len.isLt).trans (Nat.le_max_right 1 m)

theorem emitToken_out_length {m : Nat} (tok : Token m) (s : State) :
    (emitToken tok s).out.length = s.out.length + tokenSize tok := by
  cases tok with
  | literal b => exact List.length_append
  | copy len d => exact emitCopy_out_length len.val d s

theorem emitToken_rcCount {m : Nat} (tok : Token m) (s : State) :
    (emitToken tok s).rcCount.toInt = max (s.rcCount.toInt - tokenSize tok) (-2147483648) := by
  cases tok with
  | literal b => exact countDown_toInt s.rcCount
  | copy len d => exact emitCopy_rcCount len.val d s

theorem emitToken_res {m : Nat} (tok : Token m) (s : State) : (emitToken tok s).res = resOfCount (tokenSize tok) := by
  cases tok <;> rfl

end Sys2Proof.Machine
end

section
/-! SUPPORT. The schedule under the commands: which commands leave the phase and the countdown alone, what an emission takes from
the countdown, how an event moves both, and from these that every step keeps the schedule under CARRY (44_variant_rebuild.md R241, R245,
R252, R257, R258). -/

namespace Sys2Proof.Machine

/-! ## The schedule left alone -/

/-- The phase, its copy in STAT, the countdown and the output are the same in `s` and `t`. -/
structure ScheduleUntouched (s t : State) : Prop where
  params : t.params = s.params
  out : t.out = s.out
  rcPhase : t.rcPhase = s.rcPhase
  rcCount : t.rcCount = s.rcCount
  statPhase : t.stat.extractLsb' 8 3 = s.stat.extractLsb' 8 3

theorem ScheduleUntouched.trans {s t u : State} (h : ScheduleUntouched s t) (h' : ScheduleUntouched t u) : ScheduleUntouched s u :=
  ⟨h'.params.trans h.params, h'.out.trans h.out, h'.rcPhase.trans h.rcPhase, h'.rcCount.trans h.rcCount,
    h'.statPhase.trans h.statPhase⟩

theorem ScheduleUntouched.setRes (v : Half) (s : State) : ScheduleUntouched s (s.setRes v) := ⟨rfl, rfl, rfl, rfl, rfl⟩

theorem ScheduleUntouched.raise (f : Failure) (s : State) : ScheduleUntouched s (s.raise f) :=
  ⟨rfl, rfl, rfl, rfl, extract_raise f s (by decide)⟩

theorem ScheduleUntouched.setTree (t : TreeSel) (m : Memory 16) (s : State) : ScheduleUntouched s (s.setTree t m) :=
  ⟨s.setTree_params t m, s.setTree_out t m, s.setTree_rcPhase t m, s.setTree_rcCount t m, by rw [s.setTree_stat t m]⟩

theorem ScheduleUntouched.treeBuild (t : TreeSel) (n : Nat) (s : State) : ScheduleUntouched s (treeBuild t n s) :=
  ⟨s.setTree_params t _, s.setTree_out t _, s.setTree_rcPhase t _, s.setTree_rcCount t _,
    by rw [treeBuild_stat, extract_buildStat _ _ (by decide)]⟩

theorem OnlyReaderMoved.scheduleUntouched {s t : State} (h : OnlyReaderMoved s t) : ScheduleUntouched s t :=
  ⟨h.params_eq, h.out_eq, h.rcPhase_eq, h.rcCount_eq, by rw [h.stat_eq]⟩

/-- The reads of an event move neither the phase nor the countdown; its end does (44_variant_rebuild.md R253). -/
theorem ReadSteps.scheduleUntouched {s t : State} (h : ReadSteps s t) : ScheduleUntouched s t := by
  obtain ⟨hparams, -, -, hout, -, -, hphase, hcount, -⟩ := h.frame
  obtain ⟨-, -, hfield⟩ := h.stat
  exact ⟨hparams, hout, hphase, hcount, hfield 8 3 (by decide)⟩

/-- A command that reads a value and only puts it into RES. -/
theorem Run.finish_scheduleUntouched {α : Type} {s : State} {r : Run α} (hreads : OnlyReaderMoved s r.state) (g : α → Half) :
    ScheduleUntouched s (r.finish fun a u => u.setRes (g a)) := by
  cases r with
  | ok a u => exact hreads.scheduleUntouched.trans (.setRes (g a) u)
  | eos u => exact hreads.scheduleUntouched.trans (.raise .eos u)

/-- Every command but INIT, and those that emit or run an event (44_variant_rebuild.md R258). -/
theorem exec_scheduleUntouched {i : Instr} {s t : State} (h : exec i s = .next t) (hinit : i ≠ .init) (hrebuild : i ≠ .rebuild)
    (hproduce : i ≠ .produce) (hlit : ∀ b, i ≠ .lit b) (hcopy : ∀ l d, i ≠ .copy l d) : ScheduleUntouched s t := by
  cases i
  case init => exact absurd rfl hinit
  case rebuild => exact absurd rfl hrebuild
  case produce => exact absurd rfl hproduce
  case lit b => exact absurd rfl (hlit b)
  case copy len d => exact absurd rfl (hcopy len d)
  all_goals obtain rfl := Host.Outcome.next.inj h
  case rdbits nm1 => exact Run.finish_scheduleUntouched (readBitsInto_moved _ 0 s) id
  case decode u => exact Run.finish_scheduleUntouched (decodeSym_agrees u s).state_moved resOfSymbol
  case cltw idx len =>
    split
    · exact ⟨rfl, rfl, rfl, rfl, rfl⟩
    · exact .raise .ill s
  case treset u => exact .setTree u [] s
  case tbuild u n =>
    split
    · exact .treeBuild u (count12 n) s
    · exact .raise .ill s
  case tsingle u x => exact .setTree u _ s
  case rpush b => exact ⟨rfl, rfl, rfl, rfl, rfl⟩
  case rread dist => exact .setRes _ s
  case reservedD rest => exact .raise .ill s
  case reservedE rest => exact .raise .ill s
  case reservedF rest => exact .raise .ill s

/-- Settles O48: LIT and COPY only emit, and the other commands leave the whole schedule. -/
theorem onlyRebuildAndProduceRunAnEvent : Obligations.OnlyRebuildAndProduceRunAnEvent := by
  intro i s t h hinit hrebuild hproduce
  by_cases hi : (∃ b, i = .lit b) ∨ ∃ l d, i = .copy l d
  · obtain ⟨tok, hrun⟩ := exec_emits hi
    obtain rfl := Host.Outcome.next.inj ((hrun s).symm.trans h)
    have hemitted := emitToken_onlyEmitted tok s
    refine ⟨hemitted.rcPhase_eq, by rw [hemitted.stat_eq], fun _ => hemitted, fun hlit hcopy => ?_⟩
    obtain ⟨b, rfl⟩ | ⟨len, d, rfl⟩ := hi
    · exact absurd rfl (hlit b)
    · exact absurd rfl (hcopy len d)
  · obtain ⟨hlit, hcopy⟩ := not_or.mp hi
    have hleft := exec_scheduleUntouched h hinit hrebuild hproduce (not_exists.mp hlit) (by simpa using hcopy)
    exact ⟨hleft.rcPhase, hleft.statPhase, fun hi' => absurd hi' hi, fun _ _ => hleft.rcCount⟩

/-! ## The schedule kept -/

/-- From `s` to `t` the parameters stay, and under CARRY the countdown goes on saying how far the next threshold is
(44_variant_rebuild.md R257). -/
structure ScheduleKept (s t : State) : Prop where
  params : t.params = s.params
  schedule : s.params.overshoot = .carry → ScheduleOk s → ScheduleOk t

theorem ScheduleKept.trans {s t u : State} (h : ScheduleKept s t) (h' : ScheduleKept t u) : ScheduleKept s u where
  params := h'.params.trans h.params
  schedule hcarry hs := h'.schedule (h.params.symm ▸ hcarry) (h.schedule hcarry hs)

theorem ScheduleUntouched.kept {s t : State} (h : ScheduleUntouched s t) : ScheduleKept s t where
  params := h.params
  schedule _ hs := by rw [ScheduleOk, h.out, h.rcPhase, h.rcCount]; exact hs

/-- As many bytes are taken from the countdown as are appended to the output; below 2^31 of them the countdown does not saturate
(44_variant_rebuild.md R241). -/
theorem emitToken_scheduleKept {m : Nat} (tok : Token m) (s : State) : ScheduleKept s (emitToken tok s) where
  params := (emitToken_onlyEmitted tok s).params_eq
  schedule _ hs hlt := by
    rw [emitToken_out_length] at hlt
    obtain ⟨threshold, hthreshold, hcount⟩ := hs (by omega)
    refine ⟨threshold, (emitToken_onlyEmitted tok s).rcPhase_eq ▸ hthreshold, ?_⟩
    rw [emitToken_rcCount, emitToken_out_length, hcount]
    push_cast
    omega

/-- The thresholds follow one another by the reloads (44_variant_rebuild.md R245, R257). -/
theorem ThresholdOk.next {p : Phase} {threshold : Nat} (h : ThresholdOk p threshold) :
    ThresholdOk p.next (threshold + p.reload.toNat) := by
  cases p with
  | unbuilt => exact congrArg (· + 1024) h
  | build1 => exact congrArg (· + 1024) h
  | build2 => exact congrArg (· + 2048) h
  | build3 =>
    have h : threshold = 4096 := h
    exact show 8192 ≤ threshold + 4096 ∧ (threshold + 4096) % 4096 = 0 by omega
  | steady =>
    have h : 8192 ≤ threshold ∧ threshold % 4096 = 0 := h
    exact show 8192 ≤ threshold + 4096 ∧ (threshold + 4096) % 4096 = 0 by omega

theorem Phase.reload_toInt (p : Phase) : p.reload.toInt = p.reload.toNat := by cases p <;> rfl

/-- The end of a due event moves on to the next threshold (44_variant_rebuild.md R252, R257). -/
theorem endRebuild_scheduleKept {s : State} (hdue : s.rcCount.toInt ≤ 0) : ScheduleKept s (endRebuild s.rcPhase s) where
  params := rfl
  schedule hcarry hs hlt := by
    obtain ⟨threshold, hthreshold, hcount⟩ := hs hlt
    refine ⟨threshold + s.rcPhase.reload.toNat, hthreshold.next, ?_⟩
    have hreload : (endRebuild s.rcPhase s).rcCount.toInt = s.rcCount.toInt + s.rcPhase.reload.toInt :=
      (congrArg (fun o => (reloadCount o s.rcCount s.rcPhase.reload).toInt) hcarry).trans (reloadCount_carry_toInt s.rcPhase hdue)
    rw [hreload, hcount, Phase.reload_toInt, endRebuild_out]
    push_cast
    omega

theorem rebuildIfDue_scheduleKept (s : State) : ScheduleKept s (rebuildIfDue s).state := by
  obtain ⟨-, he⟩ | ⟨hdue, s1, -, hsteps, he⟩ | ⟨-, s1, -, hsteps, he⟩ := rebuildIfDue_cases s
  · rw [he]
    exact (OnlyReaderMoved.refl s).scheduleUntouched.kept
  · have hleft := hsteps.scheduleUntouched
    rw [he, ← hleft.rcPhase]
    exact hleft.kept.trans (endRebuild_scheduleKept (hleft.rcCount.symm ▸ hdue))
  · rw [he]
    exact hsteps.scheduleUntouched.kept

theorem produceReads_scheduleKept (s : State) : ScheduleKept s (produceReads s).state :=
  (rebuildIfDue_scheduleKept s).trans (produceReads_moved s).scheduleUntouched.kept

/-- A command that reads and then does its last part. -/
theorem Run.finish_scheduleKept {α : Type} {s : State} {r : Run α} {f : α → State → State} (hreads : ScheduleKept s r.state)
    (hlast : ∀ a u, ScheduleKept u (f a u)) : ScheduleKept s (r.finish f) := by
  cases r with
  | ok a u => exact hreads.trans (hlast a u)
  | eos u => exact hreads.trans (ScheduleUntouched.raise .eos u).kept

/-- Every command but INIT keeps the schedule. -/
theorem exec_scheduleKept {i : Instr} {s t : State} (hinit : i ≠ .init) (h : exec i s = .next t) : ScheduleKept s t := by
  by_cases hemits : (∃ b, i = .lit b) ∨ ∃ l d, i = .copy l d
  · obtain ⟨tok, hrun⟩ := exec_emits hemits
    obtain rfl := Host.Outcome.next.inj ((hrun s).symm.trans h)
    exact emitToken_scheduleKept tok s
  by_cases hrebuild : i = .rebuild
  · subst hrebuild
    obtain rfl := Host.Outcome.next.inj h
    exact Run.finish_scheduleKept (rebuildIfDue_scheduleKept s) fun ran u => (ScheduleUntouched.setRes _ u).kept
  by_cases hproduce : i = .produce
  · subst hproduce
    obtain rfl := Host.Outcome.next.inj h
    exact Run.finish_scheduleKept (produceReads_scheduleKept s) emitToken_scheduleKept
  obtain ⟨hlit, hcopy⟩ := not_or.mp hemits
  exact (exec_scheduleUntouched h hinit hrebuild hproduce (not_exists.mp hlit) (by simpa using hcopy)).kept

theorem exec_params {i : Instr} {s t : State} (h : exec i s = .next t) : t.params = s.params := by
  by_cases hinit : i = .init
  · subst hinit
    obtain rfl := Host.Outcome.next.inj h
    exact State.newSession_params s
  · exact (exec_scheduleKept hinit h).params

theorem runCommand_params {w : Word} {s t : State} (h : runCommand w s = .next t) : t.params = s.params := by
  obtain ⟨-, -, hrun⟩ | ⟨-, -, hrun⟩ | ⟨i, -, -, hrun⟩ := runCommand_cases w s
  · obtain rfl := Host.Outcome.next.inj (hrun.symm.trans h)
    rfl
  · obtain rfl := Host.Outcome.next.inj (hrun.symm.trans h)
    rfl
  · exact exec_params (hrun.symm.trans h)

/-- No input of the host changes a parameter (70_reset_and_hazards.md R332). -/
theorem step_params {s t : State} (h : step s = .next t) : t.params = s.params := by
  obtain ⟨-, ⟨-, rfl⟩ | ⟨w, rest, -, hrun⟩ | ⟨rest, -, rfl⟩ | ⟨w, rest, -, rfl⟩ | ⟨a, rest, -, rfl⟩⟩ := step_next_cases h
  · rfl
  · exact runCommand_params (s := { s with inputs := rest }) hrun
  · rfl
  · obtain ⟨u, hu, hparams, -⟩ := interruptCommand_newSession w { s with inputs := rest }
    rw [hu]
    exact hparams
  · rfl

/-- A command keeps the schedule; INIT starts it anew. -/
theorem exec_scheduleOk {i : Instr} {s t : State} (hcarry : s.params.overshoot = .carry) (h : exec i s = .next t)
    (hs : ScheduleOk s) : ScheduleOk t := by
  by_cases hinit : i = .init
  · subst hinit
    obtain rfl := Host.Outcome.next.inj h
    exact .newSession s
  · exact (exec_scheduleKept hinit h).schedule hcarry hs

/-- Settles O49: every command keeps the schedule under CARRY, and a session starts with it. -/
theorem stepKeepsTheRebuildSchedule : Obligations.StepKeepsTheRebuildSchedule := fun _ _ hcarry h hs =>
  step_preserves (P := fun s => s.params.overshoot = .carry → ScheduleOk s)
    (fun _ _ _ => id)
    (fun s _ _ => .newSession s)
    (fun s _ hp hcarry => (ScheduleUntouched.raise .ill s).kept.schedule hcarry (hp hcarry))
    (fun _ _ _ _ _ he hp hcarry => by
      rw [exec_params he] at hcarry
      exact exec_scheduleOk hcarry he (hp hcarry))
    h (fun _ => hs) (step_params h ▸ hcarry)

end Sys2Proof.Machine
end

section
/-! SUPPORT. REBUILD: the reads of an event that finds its bits, phase by phase, and the end of the event
(44_variant_rebuild.md R246 to R254). -/

namespace Sys2Proof.Machine

theorem exec_rebuild (s : State) :
    exec .rebuild s = .next ((rebuildIfDue s).finish fun ran u => u.setRes (resOfCount ran.toNat)) := rfl

/-- Settles O42: nothing is due. -/
theorem rebuildNotDueGivesZero : Obligations.RebuildNotDueGivesZero := by
  intro s hcount
  rw [exec_rebuild, rebuildIfDue, if_pos hcount]
  rfl

/-! ## Reads that find their bits -/

/-- The run `r` completes with the bits `rest` left, in the state `m` but for where the reader is. -/
def Reaches (r : Run Unit) (m : State) (rest : List Bool) : Prop :=
  ∃ u, r = .ok () u ∧ u.pendingBits = rest ∧ OnlyReaderMoved m u

/-- A header on the stream is applied (41_tree_builder.md R177). -/
theorem readTree_reaches {t : TreeSel} {n : Nat} {h : Header n} {m u : State} {rest : List Bool} (hmoved : OnlyReaderMoved m u)
    (hbits : progBits (treeHeader m.params t n) u.pendingBits = some (h, rest)) :
    Reaches (readTree t n u) (applyHeader t n h m) rest := by
  rw [← hmoved.params_eq] at hbits
  obtain ⟨h', v, hrun, hread, hmoved', -⟩ | ⟨v, -, hnone, -⟩ := readTree_cases t n u
  · obtain ⟨rfl, rfl⟩ := Prod.mk.inj (Option.some.inj (hread.symm.trans hbits))
    exact ⟨_, hrun, pendingBits_applyHeader t n h' v, applyHeader_moved (hmoved.trans hmoved') t n h'⟩
  · rw [hbits] at hnone
    cases hnone

/-- One read after another. -/
theorem Reaches.bind {r : Run Unit} {f : Unit → State → Run Unit} {m m' : State} {rest rest' : List Bool} (h : Reaches r m rest)
    (hf : ∀ u, OnlyReaderMoved m u → u.pendingBits = rest → Reaches (f () u) m' rest') : Reaches (r.bind f) m' rest' := by
  obtain ⟨u, rfl, hbits, hmoved⟩ := h
  exact hf u hmoved hbits

/-- The code tree's alphabet is a parameter, so it is the same wherever the reader is. -/
theorem readCodeTree_of_moved {s u : State} (h : OnlyReaderMoved s u) : readCodeTree u = readTree .ct s.params.codeSyms u := by
  rw [readCodeTree, h.params_eq]

/-- The code tree and then the offset tree, as three of the events read them (44_variant_rebuild.md R247, R250, R251). -/
theorem readBothTrees_reaches {p : Phase} {s u : State} {hc : Header s.params.codeSyms} {ho : Header (otSize p)}
    {r1 r2 : List Bool} (hmoved : OnlyReaderMoved s u)
    (hcode : progBits (treeHeader s.params .ct s.params.codeSyms) u.pendingBits = some (hc, r1))
    (hoffset : progBits (treeHeader s.params .ot (otSize p)) r1 = some (ho, r2)) :
    Reaches ((readCodeTree u).bind fun _ v => readOffsetTree p v)
      (applyHeader .ot (otSize p) ho (applyHeader .ct s.params.codeSyms hc s)) r2 := by
  rw [readCodeTree_of_moved hmoved]
  refine (readTree_reaches hmoved hcode).bind fun v hv hbits => readTree_reaches hv ?_
  rw [hbits, applyHeader_params]
  exact hoffset

/-- An event whose reads find their bits ends in the next phase (44_variant_rebuild.md R246, R252). -/
theorem exec_rebuild_eventDone {s m : State} {p : Phase} {rest : List Bool} (hphase : s.rcPhase = p)
    (hdue : s.rcCount.toInt ≤ 0) (hreads : Reaches (rebuildReads p s) m rest) :
    ∃ t, exec .rebuild s = .next t ∧ t.pendingBits = rest ∧ t.ct = m.ct ∧ t.ot = m.ot ∧
      EventDone s m t p.next p.reload.toNat := by
  subst hphase
  obtain ⟨u, hrun, hbits, hmoved⟩ := hreads
  have hleft : ScheduleUntouched s u := by
    have hsteps := rebuildReads_steps s.rcPhase s
    rw [hrun] at hsteps
    exact hsteps.scheduleUntouched
  have hcount : (endRebuild s.rcPhase u).rcCount = reloadCount s.params.overshoot s.rcCount s.rcPhase.reload := by
    rw [← hleft.params, ← hleft.rcCount]; rfl
  refine ⟨(endRebuild s.rcPhase u).setRes 1, ?_, hbits, hmoved.ct_eq, hmoved.ot_eq, ?_⟩
  · rw [exec_rebuild, rebuildIfDue, if_neg (by omega), hrun]
    rfl
  · constructor
    case frame => rw [hmoved]; rfl
    case bits => exact fun b => (statTest_statPhase _ b _).trans (congrArg _ hmoved.stat_eq)
    case phase => exact extract_statPhase_phase _ _
    case low => exact (extract_statPhase_other _ _ (by decide)).trans (congrArg _ hmoved.stat_eq)
    case high => exact (extract_statPhase_other _ _ (by decide)).trans (congrArg _ hmoved.stat_eq)
    case carry =>
      intro ho
      rw [State.setRes_rcCount, hcount, ho, reloadCount_carry_toInt _ hdue, Phase.reload_toInt]
    case reloads =>
      intro ho
      rw [State.setRes_rcCount, hcount, ho, reloadCount, Phase.reload_toInt]

/-! ## The events -/

/-- Settles O43: both headers are read and applied in that order. -/
theorem unbuiltEventReadsBothTrees : Obligations.UnbuiltEventReadsBothTrees := by
  intro s hc ho r1 r2 hphase hdue hcode hoffset
  obtain ⟨t, hrun, hbits, -, -, hdone⟩ :=
    exec_rebuild_eventDone hphase hdue (readBothTrees_reaches (p := .unbuilt) (.refl s) hcode hoffset)
  exact ⟨t, hrun, hbits, hdone⟩

/-- A header of the offset tree leaves the code tree. -/
theorem applyHeader_ot_ct (n : Nat) (h : Header n) (s : State) : (applyHeader .ot n h s).ct = s.ct :=
  applyHeader_other .ot .ct (by decide) n h s

/-- Settles O44: one header, of the offset tree, is read and applied. -/
theorem buildEventsReadTheOffsetTreeOnly : Obligations.BuildEventsReadTheOffsetTreeOnly := by
  intro s rest hdue
  refine ⟨fun h hphase hoffset => ?_, fun h hphase hoffset => ?_⟩
  · obtain ⟨t, hrun, hbits, hct, -, hdone⟩ :=
      exec_rebuild_eventDone hphase hdue (readTree_reaches (n := otSize .build1) (.refl s) hoffset)
    exact ⟨t, hrun, hbits, hct.trans (applyHeader_ot_ct 6 h s), hdone⟩
  · obtain ⟨t, hrun, hbits, hct, -, hdone⟩ :=
      exec_rebuild_eventDone hphase hdue (readTree_reaches (n := otSize .build2) (.refl s) hoffset)
    exact ⟨t, hrun, hbits, hct.trans (applyHeader_ot_ct 7 h s), hdone⟩

/-- The flag of an event is the first bit there is. -/
theorem readBit_bind_reaches {s m : State} {b : Bool} {bits rest : List Bool} {f : Bool → State → Run Unit}
    (hbits : s.pendingBits = b :: bits)
    (hf : ∀ u, OnlyReaderMoved s u → u.pendingBits = bits → Reaches (f b u) m rest) : Reaches ((readBit s).bind f) m rest := by
  obtain ⟨u, hrun, hleft, hmoved, -, -⟩ := readBit_cons hbits
  rw [hrun]
  exact hf u hmoved hleft

/-- Settles O45: the flag says whether the code tree is read before the offset tree. -/
theorem build3EventReadsAFlagAndTheOffsetTree : Obligations.Build3EventReadsAFlagAndTheOffsetTree := by
  intro s ho r1 r2 hphase hdue
  refine ⟨fun hflag hoffset => ?_, fun hc r0 hflag hcode hoffset => ?_⟩
  · obtain ⟨t, hrun, hbits, hct, -, hdone⟩ := exec_rebuild_eventDone hphase hdue <|
      readBit_bind_reaches hflag fun u hmoved hleft => readTree_reaches (n := otSize .build3) hmoved (hleft ▸ hoffset)
    exact ⟨t, hrun, hbits, hct.trans (applyHeader_ot_ct 8 ho s), hdone⟩
  · obtain ⟨t, hrun, hbits, -, -, hdone⟩ := exec_rebuild_eventDone hphase hdue <|
      readBit_bind_reaches hflag fun u hmoved hleft =>
        readBothTrees_reaches (p := .build3) hmoved (hleft ▸ hcode) hoffset
    exact ⟨t, hrun, hbits, hdone⟩

/-- Settles O46: the flag says whether both trees are read or nothing more is. -/
theorem steadyEventReadsBothTreesOrNone : Obligations.SteadyEventReadsBothTreesOrNone := by
  intro s hphase hdue
  refine ⟨fun r hflag => ?_, fun hc ho r0 r1 r2 hflag hcode hoffset => ?_⟩
  · exact exec_rebuild_eventDone hphase hdue <| readBit_bind_reaches hflag fun u hmoved hleft => ⟨u, rfl, hleft, hmoved⟩
  · obtain ⟨t, hrun, hbits, -, -, hdone⟩ := exec_rebuild_eventDone hphase hdue <|
      readBit_bind_reaches hflag fun u hmoved hleft =>
        readBothTrees_reaches (p := .steady) hmoved (hleft ▸ hcode) hoffset
    exact ⟨t, hrun, hbits, hdone⟩

end Sys2Proof.Machine
end

section
/-! SUPPORT. An event that meets end of input: how REBUILD ends, and what such an event has done to the trees and CLT
(44_variant_rebuild.md R253). -/

namespace Sys2Proof.Machine

/-! ## The two ends of REBUILD -/

/-- REBUILD in a session that has not failed: it completes, or the reads of an event meet end of input. -/
theorem exec_rebuild_cases {s : State} (hs : s.failed = false) :
    (∃ ran u, rebuildIfDue s = .ok ran u ∧ exec .rebuild s = .next (u.setRes (resOfCount ran.toNat)) ∧ u.failed = false) ∨
    (∃ u, rebuildIfDue s = .eos u ∧ rebuildReads s.rcPhase s = .eos u ∧ exec .rebuild s = .next (u.raise .eos)) := by
  have hfail := (rebuildIfDue_statKept s).fail.trans hs
  obtain ⟨-, he⟩ | ⟨-, s1, -, -, he⟩ | ⟨-, s1, hreads, -, he⟩ := rebuildIfDue_cases s
  · rw [he] at hfail
    exact .inl ⟨false, s, he, by rw [exec_rebuild, he]; rfl, hfail⟩
  · rw [he] at hfail
    exact .inl ⟨true, _, he, by rw [exec_rebuild, he]; rfl, hfail⟩
  · exact .inr ⟨s1, he, hreads, by rw [exec_rebuild, he]; rfl⟩

theorem State.raise_failed (f : Failure) (s : State) : (s.raise f).failed = true := by
  rw [State.failed, statTest_raise]
  simp

theorem statTest_eos_raise_eos (s : State) : statTest .eos (s.raise .eos).stat = true := by
  rw [statTest_raise]
  simp [Failure.bit]

/-- A REBUILD that fails. -/
theorem exec_rebuild_failed {s t : State} (hs : s.failed = false) (h : exec .rebuild s = .next t) (ht : t.failed = true) :
    ∃ u, rebuildIfDue s = .eos u ∧ rebuildReads s.rcPhase s = .eos u ∧ t = u.raise .eos := by
  obtain ⟨ran, u, -, hrun, hu⟩ | ⟨u, hdue, hreads, hrun⟩ := exec_rebuild_cases hs
  · obtain rfl := Host.Outcome.next.inj (hrun.symm.trans h)
    exact absurd (hu.symm.trans ht) Bool.false_ne_true
  · exact ⟨u, hdue, hreads, (Host.Outcome.next.inj (hrun.symm.trans h)).symm⟩

/-- A REBUILD that does not fail. -/
theorem exec_rebuild_completed {s t : State} (hs : s.failed = false) (h : exec .rebuild s = .next t) (ht : t.failed = false) :
    ∃ ran u, rebuildIfDue s = .ok ran u ∧ t = u.setRes (resOfCount ran.toNat) := by
  obtain ⟨ran, u, hdue, hrun, -⟩ | ⟨u, -, -, hrun⟩ := exec_rebuild_cases hs
  · exact ⟨ran, u, hdue, (Host.Outcome.next.inj (hrun.symm.trans h)).symm⟩
  · obtain rfl := Host.Outcome.next.inj (hrun.symm.trans h)
    exact absurd (ht.symm.trans (u.raise_failed .eos)) Bool.false_ne_true

/-! ## Where the event reads a code tree -/

/-- The event of the phase of `s` reads a code tree, whose header starts at the bits `r0`. -/
def CodeTreeAt (s : State) (r0 : List Bool) : Prop :=
  (s.rcPhase = .unbuilt ∧ s.pendingBits = r0) ∨
    ((s.rcPhase = .build3 ∨ s.rcPhase = .steady) ∧ s.pendingBits = true :: r0)

/-- `t` is what reading a code tree from the bits `r0` leaves of the trees and CLT of `s`: with a whole header the code tree and CLT
are those it gives, with one cut short they are those of `s`. -/
structure CodeTreeRead (s : State) (r0 : List Bool) (t : State) : Prop where
  ot : t.ot = s.ot
  whole : ∀ hc rest, progBits (treeHeader s.params .ct s.params.codeSyms) r0 = some (hc, rest) →
    t.ct = (applyHeader .ct s.params.codeSyms hc s).ct ∧ t.clt = (applyHeader .ct s.params.codeSyms hc s).clt
  cutShort : progBits (treeHeader s.params .ct s.params.codeSyms) r0 = none → t.ct = s.ct ∧ t.clt = s.clt

/-- A reader that moves on leaves the trees. -/
theorem CodeTreeRead.moved {s t u : State} {r0 : List Bool} (h : CodeTreeRead s r0 t) (hmoved : OnlyReaderMoved t u) :
    CodeTreeRead s r0 u where
  ot := hmoved.ot_eq.trans h.ot
  whole := by rw [hmoved.ct_eq, hmoved.clt_eq]; exact h.whole
  cutShort := by rw [hmoved.ct_eq, hmoved.clt_eq]; exact h.cutShort

theorem readCodeTree_read {s u : State} (hmoved : OnlyReaderMoved s u) :
    CodeTreeRead s u.pendingBits (readCodeTree u).state := by
  rw [readCodeTree_of_moved hmoved]
  obtain ⟨h, v, hrun, hbits, hmoved', -⟩ | ⟨v, hrun, hbits, hmoved', -⟩ := readTree_cases .ct s.params.codeSyms u
  · rw [hmoved.params_eq] at hbits
    have happly := applyHeader_moved (hmoved.trans hmoved') .ct s.params.codeSyms h
    rw [hrun]
    constructor
    case ot => exact happly.ot_eq.trans (applyHeader_other .ct .ot (by decide) _ h s)
    case whole =>
      intro hc rest hsome
      obtain ⟨rfl, -⟩ := Prod.mk.inj (Option.some.inj (hbits.symm.trans hsome))
      exact ⟨happly.ct_eq, happly.clt_eq⟩
    case cutShort => exact fun hnone => by cases hbits.symm.trans hnone
  · rw [hmoved.params_eq] at hbits
    have hstay := hmoved.trans hmoved'
    rw [hrun]
    constructor
    case ot => exact hstay.ot_eq
    case whole => exact fun hc rest hsome => by cases hbits.symm.trans hsome
    case cutShort => exact fun _ => ⟨hstay.ct_eq, hstay.clt_eq⟩

/-- A header cut short writes nothing (41_tree_builder.md R177). -/
theorem readTree_eos_moved {t : TreeSel} {n : Nat} {s u : State} (h : readTree t n s = .eos u) : OnlyReaderMoved s u := by
  obtain ⟨hd, v, hrun, -⟩ | ⟨v, hrun, -, hmoved, -⟩ := readTree_cases t n s
  · rw [hrun] at h
    cases h
  · rw [hrun] at h
    cases h
    exact hmoved

/-- The offset tree is read last, so what ends the reads of both trees has written the code tree or nothing. -/
theorem readBothTrees_eos {p : Phase} {s u v : State} (hmoved : OnlyReaderMoved s u)
    (h : ((readCodeTree u).bind fun _ w => readOffsetTree p w) = .eos v) : CodeTreeRead s u.pendingBits v := by
  have hread := readCodeTree_read hmoved
  cases hrun : readCodeTree u with
  | ok a w =>
    rw [hrun] at hread h
    exact hread.moved (readTree_eos_moved h)
  | eos w =>
    rw [hrun] at hread h
    cases h
    exact hread

/-- An event that reads a code tree, cut short. -/
theorem rebuildReads_eos_of_codeTree {s u : State} {r0 : List Bool} (hat : CodeTreeAt s r0)
    (h : rebuildReads s.rcPhase s = .eos u) : CodeTreeRead s r0 u := by
  obtain ⟨hphase, rfl⟩ | ⟨hphase, hflag⟩ := hat
  · rw [hphase] at h
    exact readBothTrees_eos (.refl s) h
  · obtain ⟨v, hrun, rfl, hmoved, -, -⟩ := readBit_cons hflag
    obtain hphase | hphase := hphase
    · rw [hphase, rebuildReads, hrun] at h
      exact readBothTrees_eos hmoved h
    · rw [hphase, rebuildReads, hrun] at h
      exact readBothTrees_eos hmoved h

/-- An event that starts with a flag, where the flag is 0 or missing. -/
theorem readBit_bind_eos_moved {s u : State} {f : Bool → State → Run Unit} (hflag : ∀ r0, s.pendingBits ≠ true :: r0)
    (hf : ∀ v, f false v = .eos u → OnlyReaderMoved v u) (h : (readBit s).bind f = .eos u) : OnlyReaderMoved s u := by
  obtain ⟨b, rest, v, hbits, hrun, -, hmoved, -, -⟩ | ⟨-, -, hrun⟩ := readBit_cases s
  · rw [hrun] at h
    cases b with
    | true => exact absurd hbits (hflag rest)
    | false => exact hmoved.trans (hf v h)
  · rw [hrun] at h
    cases h
    rfl

/-- An event that reads no code tree, cut short. -/
theorem rebuildReads_eos_of_no_codeTree {s u : State} (hat : ∀ r0, ¬ CodeTreeAt s r0)
    (h : rebuildReads s.rcPhase s = .eos u) : OnlyReaderMoved s u := by
  cases hphase : s.rcPhase with
  | unbuilt => exact absurd (.inl ⟨hphase, rfl⟩) (hat s.pendingBits)
  | build1 =>
    rw [hphase] at h
    exact readTree_eos_moved h
  | build2 =>
    rw [hphase] at h
    exact readTree_eos_moved h
  | build3 =>
    rw [hphase] at h
    exact readBit_bind_eos_moved (fun r0 hbits => hat r0 (.inr ⟨.inl hphase, hbits⟩)) (fun v => readTree_eos_moved) h
  | steady =>
    rw [hphase] at h
    exact readBit_bind_eos_moved (fun r0 hbits => hat r0 (.inr ⟨.inr hphase, hbits⟩)) (fun v hv => by cases hv) h

/-- Settles O47: what the reads had done stays, and the end of the event is not reached. -/
theorem eventThatMeetsEndOfInputKeepsTheSchedule : Obligations.EventThatMeetsEndOfInputKeepsTheSchedule := by
  intro s t hs h ht
  obtain ⟨u, hdue, hreads, rfl⟩ := exec_rebuild_failed hs h ht
  have hcut := rebuildIfDue_cutShort hdue .rebuild
  obtain ⟨hphase, hcount⟩ := hcut.schedule (by decide)
  refine ⟨hphase, hcount, hcut.res, statTest_eos_raise_eos u, ?_, fun r0 hat => ?_, fun hnone => ?_⟩
  · by_cases hat : ∃ r0, CodeTreeAt s r0
    · obtain ⟨r0, hat⟩ := hat
      exact (rebuildReads_eos_of_codeTree hat hreads).ot
    · exact (rebuildReads_eos_of_no_codeTree (not_exists.mp hat) hreads).ot_eq
  · have hread := rebuildReads_eos_of_codeTree hat hreads
    cases hbits : progBits (treeHeader s.params .ct s.params.codeSyms) r0 with
    | none => exact hread.cutShort hbits
    | some q => exact hread.whole q.1 q.2 hbits
  · have hat : ∀ r0, ¬ CodeTreeAt s r0 := by
      rintro r0 (⟨hunbuilt, -⟩ | ⟨hflagged, hbits⟩)
      · simp [hunbuilt] at hnone
      · obtain hbuild | hbuild | ⟨-, hno⟩ := hnone
        · simp [hbuild] at hflagged
        · simp [hbuild] at hflagged
        · exact hno r0 hbits
    have hmoved := rebuildReads_eos_of_no_codeTree hat hreads
    exact ⟨hmoved.ct_eq, hmoved.clt_eq⟩

end Sys2Proof.Machine
end

section
/-! SUPPORT. PRODUCE: its reads where the bits are there, its emission as LIT or COPY of the token, and its two ends
(44_variant_rebuild.md R255, R256). -/

namespace Sys2Proof.Machine

/-- PRODUCE reads the rebuild, the symbol and the token, and then emits the token (R255). -/
theorem exec_produce (s : State) : exec .produce s = .next ((produceReads s).finish emitToken) := rfl

/-! ## One unit -/

/-- The reads of PRODUCE where, after RebuildIfDue, the bits give a symbol and its token. -/
theorem produceReads_ok {s r : State} {ran : Bool} {x : Symbol} {tok : Token s.params.maxCopy} {r1 r2 : List Bool}
    (hdue : rebuildIfDue s = .ok ran r) (hsymbol : r.symbolBits .ct r.pendingBits = some (x, r1))
    (htoken : r.tokenBits (pm2Token s.params x) r1 = some (tok, r2)) :
    ∃ m, produceReads s = .ok tok m ∧ OnlyReaderMoved r m ∧ m.pendingBits = r2 := by
  have hdecode := decodeSym_agrees .ct r
  rw [hsymbol] at hdecode
  obtain ⟨u, hrun, hbits, hmoved, -⟩ := hdecode
  have htok := runToken_agrees (pm2Token s.params x) u
  rw [hbits, tokenBits_of_moved hmoved, htoken] at htok
  obtain ⟨m, hrun', hbits', hmoved', -⟩ := htok
  refine ⟨m, ?_, hmoved.trans hmoved', hbits'⟩
  rw [produceReads, hdue]
  simp only [Run.bind, hrun, hrun']

/-- MAX_COPY fits the length field of COPY (00_scope.md R11). -/
theorem Params.maxCopy_le {p : Params} (h : p.wf = true) : p.maxCopy ≤ 4095 := by
  obtain ⟨-, -, hcopy⟩ := (Params.wf_iff p).mp h
  exact hcopy

/-- Settles O50: with no event due the reads of PRODUCE start with the symbol. -/
theorem produceEmitsTheTokenOfTheNextSymbol : Obligations.ProduceEmitsTheTokenOfTheNextSymbol := by
  intro s x tok r1 r2 hp hcount hsymbol htoken
  have hdue : rebuildIfDue s = .ok false s := by rw [rebuildIfDue, if_pos hcount]
  obtain ⟨m, hreads, hmoved, hbits⟩ := produceReads_ok hdue hsymbol htoken
  have hemit := exec_tokenInstr (Params.maxCopy_le hp) tok m
  refine ⟨m, emitToken tok m, hmoved, hbits, by rw [exec_produce, hreads]; rfl, ?_⟩
  cases tok <;> exact hemit

/-! ## After a rebuild -/

/-- A token is read from the offset tree and the bits, wherever RES stands. -/
theorem tokenBits_setRes {α : Type} (v : Half) (s : State) (p : TokProg α) (bits : List Bool) :
    (s.setRes v).tokenBits p bits = s.tokenBits p bits := by
  have hsymbol : (s.setRes v).symbolBits .ot = s.symbolBits .ot := rfl
  induction p generalizing bits with
  | ret a => rfl
  | bit k ih => cases bits <;> simp [State.tokenBits, ih]
  | offset k ih => simp only [State.tokenBits, hsymbol, ih]

theorem OnlyReaderMoved.setRes {s t : State} (h : OnlyReaderMoved s t) (v : Half) : OnlyReaderMoved (s.setRes v) (t.setRes v) := by
  rw [h]
  rfl

/-- Settles O51: REBUILD differs from what PRODUCE does first only in RES, which the emission sets anew. -/
theorem produceIsRebuildThenOneUnit : Obligations.ProduceIsRebuildThenOneUnit := by
  intro s r x tok r1 r2 hp hs hrebuild hr hsymbol htoken
  obtain ⟨ran, u, hdue, rfl⟩ := exec_rebuild_completed hs hrebuild hr
  rw [tokenBits_setRes] at htoken
  obtain ⟨m, hreads, hmoved, hbits⟩ := produceReads_ok hdue hsymbol htoken
  have hemit := exec_tokenInstr (Params.maxCopy_le hp) tok (m.setRes (resOfCount ran.toNat))
  rw [emitToken_setRes] at hemit
  refine ⟨m.setRes _, emitToken tok m, hmoved.setRes _, hbits, by rw [exec_produce, hreads]; rfl, ?_⟩
  cases tok <;> exact hemit

/-! ## All or nothing -/

/-- What a token's emission appends to the output is as long as RES says. -/
theorem emitToken_unit {m : Nat} (hm : m ≤ 4095) (tok : Token m) (s : State) :
    ∃ unit, (emitToken tok s).out = s.out ++ unit ∧ unit.length = (emitToken tok s).res.toNat ∧ unit.length ≤ max 1 m := by
  obtain ⟨unit, hout⟩ := emitToken_out_prefix tok s
  have hlen : unit.length = tokenSize tok := by
    have hlength := emitToken_out_length tok s
    rw [← hout, List.length_append] at hlength
    omega
  have hsize := tokenSize_le tok
  refine ⟨unit, hout.symm, ?_, hlen ▸ hsize⟩
  rw [emitToken_res, toNat_resOfCount (by omega), hlen]

/-- A PRODUCE whose rebuild meets end of input is cut short there (44_variant_rebuild.md R253, R255). -/
theorem produceReads_of_rebuild_eos {s u : State} (h : rebuildIfDue s = .eos u) : produceReads s = .eos u := by
  rw [produceReads, h]
  rfl

/-- Settles O52: the reads of PRODUCE come before its emission. -/
theorem produceEmitsAllOrNothing : Obligations.ProduceEmitsAllOrNothing := by
  intro s t hp hs h
  rw [exec_produce] at h
  have hstat := (produceReads_statKept s).fail.trans hs
  have hring := produceReads_ringUntouched s
  cases hreads : produceReads s with
  | ok tok u =>
    rw [hreads] at h hstat hring
    obtain rfl := Host.Outcome.next.inj h
    obtain ⟨unit, hunit⟩ := emitToken_unit (Params.maxCopy_le hp) tok u
    exact .inl ⟨(emitToken_statKept tok u).fail.trans hstat, unit, hring.out ▸ hunit⟩
  | eos u =>
    rw [hreads] at h
    obtain rfl := Host.Outcome.next.inj h
    have hcut := produceReads_cutShort hreads
    refine .inr ⟨u.raise_failed .eos, statTest_eos_raise_eos u, hcut.out, hcut.res, hcut.ring, hcut.rbWp, fun r hr hfail => ?_⟩
    obtain ⟨v, hdue, -, -⟩ := exec_rebuild_failed hs hr hfail
    obtain rfl : u = v := Run.eos.inj (hreads.symm.trans (produceReads_of_rebuild_eos hdue))
    exact (rebuildIfDue_cutShort hdue .rebuild).schedule (by decide)

end Sys2Proof.Machine
end

section
/-! SUPPORT. INIT (45_session.md R280, R281): it answers the start of a session, so the table of 10_state.md R52 holds after it,
and what is not the block's own stays or is bound anew. -/

namespace Sys2Proof.Machine

/-- INIT completes in every state, a failed session included. -/
theorem exec_init (s : State) : exec .init s = .next s.newSession := rfl

/-- Settles O14: INIT is one of the two ways of reaching the table of R52. -/
theorem initGivesTheResetValues : Obligations.InitGivesTheResetValues := by
  intro s
  obtain ⟨hbyte, hpos, hvalid, hslot, hclt, hring, hwp, hphase, hcount, hres, hstat, -⟩ :=
    resetGivesTheResetTable.2 s.newSession (.inr ⟨s, s.newSession_params.symm, exec_init s⟩)
  rw [State.newSession_params] at hring
  exact ⟨s.newSession, exec_init s, hbyte, hpos, hvalid, hslot, hclt, hring, hwp, hphase, hcount, hstat, hres⟩

/-- The bytes of the ended session pass from OUT to those already taken, so none is lost (log 6). -/
theorem State.newSession_emitted (s : State) : s.newSession.taken ++ s.newSession.out = s.taken ++ s.out := by
  rw [State.newSession_taken, State.newSession_out, List.append_nil]

/-- With no source connected the one there was goes on (log 7). -/
theorem State.newSession_src_of_not_connected {s : State} (h : s.connected = none) : s.newSession.src = s.src := by
  rw [State.newSession_src, h, Option.getD_none]

/-- A connected source is the one the session reads from (R281; log 7). -/
theorem State.newSession_src_of_connected {s : State} {a : List SrcAnswer} (h : s.connected = some a) :
    s.newSession.src = a := by
  rw [State.newSession_src, h, Option.getD_some]

/-- Settles O15: field by field, with the two cases of the source. -/
theorem initKeepsWhatIsNotTheBlocks : Obligations.InitKeepsWhatIsNotTheBlocks := fun s =>
  ⟨s.newSession, exec_init s, s.newSession_params, s.newSession_inputs, s.newSession_freeCtr, s.newSession_connected,
    s.newSession_emitted, s.newSession_out, State.newSession_src_of_not_connected, fun _ => State.newSession_src_of_connected⟩

end Sys2Proof.Machine
end

section
/-! SUPPORT. What a command word does (60_exceptions.md R301, R303, R308): a legal one runs its command, which raises no ILL; an
illegal one sets STAT.FAIL and STAT.ILL; and how a step leads out of a failed session (R310). -/

namespace Sys2Proof.Machine

/-! ## A word that decodes -/

/-- A word that passes the failure gate and decodes is the run of its command (R301). -/
theorem runCommand_of_decode {w : Word} {i : Instr} {s : State} (hrun : s.failed = false ∨ w = 0) (hd : decode w = some i) :
    runCommand w s = exec i s := by
  obtain ⟨hf, hw, -⟩ | ⟨-, hnone, -⟩ | ⟨j, -, hj, h⟩ := runCommand_cases w s
  · exact absurd (hf.symm.trans (hrun.resolve_right hw)) Bool.noConfusion
  · cases hd.symm.trans hnone
  · cases hd.symm.trans hj
    exact h

/-- Settles O6: the step is the run of the word, and the word decodes. -/
theorem stepRunsTheDecodedCommand : Obligations.StepRunsTheDecodedCommand := by
  intro s w rest i hwf hin hrun hd
  rw [step_command hwf hin]
  exact runCommand_of_decode hrun hd

/-! ## A legal and an illegal word -/

/-- `Decode` of 30_encoding.md R123 gives the command of a row where its operands are in range, and that command only. -/
theorem decodeLegal_eq_some_iff {cltMax : Nat} {w : Word} {i : Instr} :
    decodeLegal cltMax w = some i ↔ decode w = some i ∧ i.wf cltMax = true := by
  rw [decodeLegal]
  cases decode w with
  | none => simp
  | some j => grind

/-- In a session that has not failed an illegal word raises ILL, in the decoder or in its command (R303; log 16). -/
theorem runCommand_of_illegal {w : Word} {s : State} (hf : s.failed = false) (hill : decodeLegal s.params.cltMax w = none) :
    runCommand w s = .next (s.raise .ill) := by
  obtain ⟨hfailed, -⟩ | ⟨-, -, h⟩ | ⟨i, -, hd, h⟩ := runCommand_cases w s
  · cases hf.symm.trans hfailed
  · exact h
  · rw [h]
    exact exec_of_not_wf (not_wf_of_decodeLegal hd hill)

/-- Settles O8: the step is the run of the word, which raises ILL. -/
theorem illegalWordSetsFailAndIllOnly : Obligations.IllegalWordSetsFailAndIllOnly := by
  intro s w rest hwf hin hf hill
  rw [step_command hwf hin, runCommand_of_illegal (s := { s with inputs := rest }) hf hill, State.raise_ill]

/-! ## The way out of a failed session -/

/-- INIT's word passes the failure gate (R301, R310). -/
theorem runCommand_zero (s : State) : runCommand 0 s = .next s.newSession :=
  runCommand_of_decode (.inr rfl) (show decode 0 = some .init by decide)

/-- A command word that leads out of a failed session is INIT's. -/
theorem eq_zero_of_runCommand_leavesFailed {w : Word} {s t : State} (h : runCommand w s = .next t) (hs : s.failed = true)
    (ht : t.failed = false) : w = 0 := by
  by_contra hw
  rw [runCommand_of_failed hs hw] at h
  cases h
  cases hs.symm.trans ht

/-- Settles O17: an idle engine, another word and a newly connected source leave STAT.FAIL set. -/
theorem onlyInitOrResetLeavesAFailedSession : Obligations.OnlyInitOrResetLeavesAFailedSession := by
  intro s t h hs ht
  obtain ⟨-, ⟨-, rfl⟩ | ⟨w, rest, hin, hrun⟩ | ⟨rest, hin, rfl⟩ | ⟨w, rest, hin, rfl⟩ | ⟨a, rest, -, rfl⟩⟩ := step_next_cases h
  · cases hs.symm.trans ht
  · obtain rfl := eq_zero_of_runCommand_leavesFailed hrun hs ht
    rw [runCommand_zero] at hrun
    exact ⟨⟨rest, hin.imp_right .inl⟩, { s with inputs := rest }, rfl, hrun⟩
  · exact ⟨⟨rest, .inr (.inr (.inl hin))⟩, { s with inputs := rest }, rfl, exec_init _⟩
  · obtain ⟨u, hu, hparams, -⟩ := interruptCommand_newSession w { s with inputs := rest }
    rw [hu]
    exact ⟨⟨rest, .inr (.inr (.inr ⟨w, hin⟩))⟩, u, hparams, exec_init u⟩
  · cases hs.symm.trans ht

/-! ## One failure at most -/

/-- What a command does after its reads leaves ILL alone, and end of input raises EOS (R302). -/
theorem Run.finish_ill {α : Type} {s : State} {r : Run α} {f : α → State → State} (hreads : StatKept s r.state)
    (hlast : ∀ a u, StatKept u (f a u)) : statTest .ill (r.finish f).stat = statTest .ill s.stat := by
  cases r with
  | ok a u => exact (hreads.trans (hlast a u)).ill
  | eos u =>
    have hraise : statTest .ill (u.raise .eos).stat = statTest .ill u.stat := by
      rw [statTest_raise]
      simp [Failure.bit]
    exact hraise.trans hreads.ill

/-- A legal command raises no ILL (30_encoding.md R114, R116). -/
theorem exec_ill_of_wf {i : Instr} {s t : State} (hwf : i.wf s.params.cltMax = true) (h : exec i s = .next t)
    (hill : statTest .ill s.stat = false) : statTest .ill t.stat = false := by
  cases i
  case init =>
    obtain rfl := Host.Outcome.next.inj h
    exact s.newSession_statTest .ill
  case reservedD | reservedE | reservedF => cases hwf
  all_goals rw [← hill]
  case cltw idx len =>
    obtain rfl := Host.Outcome.next.inj ((exec_cltw (of_decide_eq_true hwf) len).symm.trans h)
    rfl
  case tbuild u n =>
    obtain rfl := eq_of_exec_tbuild (of_decide_eq_true hwf) h
    exact (StatKept.treeBuild u n.toNat s).ill
  all_goals obtain rfl := Host.Outcome.next.inj h
  case rdbits nm1 => exact Run.finish_ill (readBitsInto_moved _ 0 s).statKept fun v u => .setRes v u
  case decode u => exact Run.finish_ill (decodeSym_agrees u s).state_moved.statKept fun x v => .setRes (resOfSymbol x) v
  case rebuild => exact Run.finish_ill (rebuildIfDue_statKept s) fun ran u => .setRes _ u
  case produce => exact Run.finish_ill (produceReads_statKept s) emitToken_statKept
  case treset u => exact (StatKept.setTree u [] s).ill
  case tsingle u x => exact (StatKept.setTree u _ s).ill
  case rpush b => rfl
  case rread dist => rfl
  case lit b => rfl
  case copy len dist => exact (emitCopy_onlyEmitted (count12 len) dist s).statKept.ill

/-- A session that has not failed has neither cause set (10_state.md R39). -/
theorem StatusOk.causes_clear {s : State} (hs : StatusOk s) (hf : s.failed = false) :
    statTest .eos s.stat = false ∧ statTest .ill s.stat = false :=
  Bool.or_eq_false_iff.mp (hs.cause.symm.trans hf)

/-- Settles O58: an illegal word raises ILL and does nothing else; a legal one sets no ILL, so its failure is EOS. -/
theorem oneFailureAtMost : Obligations.OneFailureAtMost := by
  intro w s t hs hf h ht
  obtain ⟨heos, hill⟩ := hs.causes_clear hf
  cases hlegal : decodeLegal s.params.cltMax w with
  | none =>
    obtain rfl := Host.Outcome.next.inj ((runCommand_of_illegal hf hlegal).symm.trans h)
    refine .inr ⟨?_, ?_, s.raise_ill⟩
    · rw [statTest_raise, heos]
      rfl
    · rw [statTest_raise, hill]
      rfl
  | some i =>
    obtain ⟨hd, hwf⟩ := decodeLegal_eq_some_iff.mp hlegal
    rw [runCommand_of_decode (.inl hf) hd] at h
    have hillT : statTest .ill t.stat = false := exec_ill_of_wf hwf h hill
    have hcause := (exec_statusOk (.inl hf) h hs).cause.symm.trans ht
    rw [hillT, Bool.or_false] at hcause
    exact .inl ⟨hcause, hillT⟩

end Sys2Proof.Machine
end

section
/-! SUPPORT. A build from a table with no used symbol, in a tree with room for one level: one level is run, which makes the root
internal and places no leaf (41_tree_builder.md R170; 60_exceptions.md R304). -/

namespace Sys2Proof.Machine

/-! ## The one level -/

/-- A level whose depth is no symbol's length places no leaf (R168). -/
theorem Build.assign_of_ne {lens : List Byte} {b : Build} (h : ∀ l ∈ lens, l.toNat ≠ b.depth) (i : Nat) :
    b.assign lens i = b := by
  induction lens generalizing i with
  | nil => rfl
  | cons l rest ih =>
    obtain ⟨hl, hrest⟩ := List.forall_mem_cons.mp h
    rw [Build.assign, if_neg hl, ih hrest]

/-- The build after the level: the root is internal, and its two children are still queued. -/
def unusedLevel : Build := { Build.start with tree := [(0, 0x0001)], queue := [1, 2], alloc := 3, depth := 1 }

theorem level_unused {cap : Nat} (hcap : 3 ≤ cap) {lens : List Byte} (hlens : ∀ l ∈ lens, l = 0) :
    Build.start.level cap lens = unusedLevel := by
  have hexpand : { Build.start.expandLevel cap with depth := 1 } = unusedLevel := by
    rw [Build.expandLevel_of_fit (by exact hcap)]
    decide
  have hplace : unusedLevel.assign lens 0 = unusedLevel := Build.assign_of_ne (fun l hl => by rw [hlens l hl]; decide) 0
  rw [Build.level, Build.expandLevel_depth]
  exact (congrArg (Build.assign lens 0) hexpand).trans hplace

/-- No symbol is deeper than the first level, so the build ends with it (R170). -/
theorem buildTree_unused {cap : Nat} (hcap : 3 ≤ cap) {lens : List Byte} (hlens : ∀ l ∈ lens, l = 0) :
    buildTree cap lens = unusedLevel := by
  have hdone : unusedLevel.more lens = false := List.any_eq_false.mpr fun l hl => by rw [hlens l hl]; decide
  exact Build.levels_of_done 254 (level_unused hcap hlens) hdone

/-! ## The walk -/

/-- A walk ends at a leaf (42_tree_decoder.md R201). -/
theorem walkBits_of_leaf {v : Slot} (h : isLeaf v = true) (rd : Nat → Slot) (bits : List Bool) :
    walkBits rd v bits = some (leafSymbol v, bits) := by
  cases bits with
  | nil => rw [walkBits, if_pos h]
  | cons b rest => rw [walkBits, if_pos h]

/-- From an internal slot 0 whose children both read as the reset leaf, a walk reads one bit and gives symbol 0 (R201, R207). -/
theorem symbolBits_of_resetChildren {s : State} {u : TreeSel} (hroot : s.slot u 0 = 0x0001)
    (hother : ∀ i, i ≠ 0 → s.slot u i = resetSlot) (b : Bool) (rest : List Bool) :
    s.symbolBits u (b :: rest) = some (0, rest) := by
  have hchild : s.slot u (childSlot 0x0001 b) = resetSlot := hother _ (by cases b <;> decide)
  rw [State.symbolBits, hroot, walkBits, if_neg (by decide), hchild, walkBits_of_leaf isLeaf_resetSlot, leafSymbol_resetSlot]

/-- Settles O31: the slots are those of `unusedLevel`, which met no warning. -/
theorem unusedTableDecodesOneBitToZero : Obligations.UnusedTableDecodesOneBitToZero := by
  intro s u nsym hcap hn hunused
  have hlens : ∀ l ∈ s.codeLens nsym.toNat, l = 0 := List.forall_mem_map.mpr fun i hi => hunused i (List.mem_range.mp hi)
  have hbuild := buildTree_unused hcap hlens
  have hroot : (treeBuild u nsym.toNat s).slot u 0 = 0x0001 := by
    rw [treeBuild_slot, hbuild, if_pos (by omega)]
    rfl
  have hother : ∀ i, i ≠ 0 → (treeBuild u nsym.toNat s).slot u i = resetSlot := by
    intro i hi
    have hwf : Memory.wf resetSlot 1 unusedLevel.tree = true := by decide
    rw [treeBuild_slot, hbuild, Memory.read_of_wf hwf (Nat.pos_of_ne_zero hi), ite_self]
  refine ⟨treeBuild u nsym.toNat s, exec_tbuild hn u, ?_, hroot, hother, symbolBits_of_resetChildren hroot hother⟩
  rw [treeBuild_stat, hbuild]
  rfl

end Sys2Proof.Machine
end

section
/-! SUPPORT. One step of the host's interface: an idle engine, a word presented too early, and RST, which does what INIT does
(60_exceptions.md R316; 70_reset_and_hazards.md R330, R343). -/

namespace Sys2Proof.Machine

/-- With parameters in range a step takes the host's oldest input. -/
theorem step_takesInput {s : State} {e : HostInput} {rest : List HostInput} (hwf : s.params.wf = true)
    (hin : s.inputs = e :: rest) : step s = takeInput e { s with inputs := rest } := by
  rw [step, if_pos hwf, hin]

theorem step_idle {s : State} (hwf : s.params.wf = true) (hin : s.inputs = []) : step s = .next s := by
  rw [step, if_pos hwf, hin]

/-- Settles O12: the refusal is the input's own. -/
theorem idleEngineWaitsAndEarlyCommandIsRefused : Obligations.IdleEngineWaitsAndEarlyCommandIsRefused :=
  fun _ hwf => ⟨step_idle hwf, fun _ _ => step_takesInput hwf⟩

/-- RST inside a command is INIT after a part of the command's transfers, from none to all of them (U14; log 8). -/
theorem interruptCommand_eq_init (w : Word) (s : State) : ∃ given moved,
    given ≤ answersTaken w s ∧ moved ≤ (bytesEmitted w s).length ∧
    .next (interruptCommand w s) = exec .init { s with src := s.src.drop given, freeCtr := s.freeCtr + 2,
                                                       out := s.out ++ (bytesEmitted w s).take moved } :=
  ⟨Config.freeNat s.freeCtr % (answersTaken w s + 1), Config.freeNat (s.freeCtr + 1) % ((bytesEmitted w s).length + 1),
    Nat.le_of_lt_succ (Nat.mod_lt _ (Nat.succ_pos _)), Nat.le_of_lt_succ (Nat.mod_lt _ (Nat.succ_pos _)), rfl⟩

/-- Settles O13: both kinds of RST answer the start of a session, as INIT does. -/
theorem rstActsAsInit : Obligations.RstActsAsInit := by
  intro s rest hwf
  refine ⟨step_takesInput hwf, fun w hin => ?_⟩
  obtain ⟨given, moved, hgiven, hmoved, hinit⟩ := interruptCommand_eq_init w { s with inputs := rest }
  exact ⟨given, moved, hgiven, hmoved, (step_takesInput hwf hin).trans hinit⟩

end Sys2Proof.Machine
end

section
/-! SUPPORT. What a command moves at the block's two streams: the four commands that read bits, the two that emit a token, and the
others, which leave the reader, the source and the output alone (70_reset_and_hazards.md R345); and from these that an emitted
byte stays (45_session.md R280). -/

namespace Sys2Proof.Machine

/-! ## The kinds of commands -/

/-- The commands that read the bit stream (70_reset_and_hazards.md R345). -/
inductive ReadsBits : Instr → Prop where
  | rdbits (nm1 : BitVec 4) : ReadsBits (.rdbits nm1)
  | decode (u : TreeSel) : ReadsBits (.decode u)
  | rebuild : ReadsBits .rebuild
  | produce : ReadsBits .produce

/-- The reader, the source and the bytes emitted in all sessions are the same in `s` and `t`. -/
structure StreamsUntouched (s t : State) : Prop extends ReaderUntouched s t where
  out : t.out = s.out
  taken : t.taken = s.taken

theorem StreamsUntouched.raise (f : Failure) (s : State) : StreamsUntouched s (s.raise f) := ⟨.raise f s, rfl, rfl⟩

theorem StreamsUntouched.setTree (t : TreeSel) (m : Memory 16) (s : State) : StreamsUntouched s (s.setTree t m) :=
  ⟨.setTree t m s, s.setTree_out t m, s.setTree_taken t m⟩

theorem StreamsUntouched.treeBuild (t : TreeSel) (n : Nat) (s : State) : StreamsUntouched s (treeBuild t n s) :=
  ⟨.treeBuild t n s, s.setTree_out t _, s.setTree_taken t _⟩

/-- What each command but INIT does at the streams. -/
theorem exec_streams_cases {i : Instr} {s t : State} (hinit : i ≠ .init) (h : exec i s = .next t) :
    ReadsBits i ∨ (∃ tok : Token 4095, t = emitToken tok s) ∨ StreamsUntouched s t := by
  by_cases hreads : ReadsBits i
  · exact .inl hreads
  by_cases hemits : (∃ b, i = .lit b) ∨ ∃ l d, i = .copy l d
  · obtain ⟨tok, hrun⟩ := exec_emits hemits
    exact .inr (.inl ⟨tok, Host.Outcome.next.inj (h.symm.trans (hrun s))⟩)
  refine .inr (.inr ?_)
  by_cases hwf : i.wf s.params.cltMax = true
  · cases i
    case init => exact absurd rfl hinit
    case rdbits | decode | rebuild | produce => exact absurd (by constructor) hreads
    case lit b => exact absurd (.inl ⟨b, rfl⟩) hemits
    case copy len d => exact absurd (.inr ⟨len, d, rfl⟩) hemits
    case reservedD | reservedE | reservedF => cases hwf
    case cltw idx len =>
      obtain rfl := Host.Outcome.next.inj ((exec_cltw (of_decide_eq_true hwf) len).symm.trans h)
      exact ⟨⟨rfl, rfl, rfl, rfl⟩, rfl, rfl⟩
    case tbuild u n =>
      obtain rfl := eq_of_exec_tbuild (of_decide_eq_true hwf) h
      exact .treeBuild u n.toNat s
    all_goals obtain rfl := Host.Outcome.next.inj h
    case treset u => exact .setTree u [] s
    case tsingle u x => exact .setTree u _ s
    case rpush b => exact ⟨⟨rfl, rfl, rfl, rfl⟩, rfl, rfl⟩
    case rread dist => exact ⟨.setRes _ s, rfl, rfl⟩
  · obtain rfl := Host.Outcome.next.inj ((exec_of_not_wf hwf).symm.trans h)
    exact .raise .ill s

/-! ## Commands that read no bits -/

theorem exec_readerUntouched {i : Instr} {s t : State} (hinit : i ≠ .init) (hreads : ¬ ReadsBits i)
    (h : exec i s = .next t) : ReaderUntouched s t := by
  obtain hreads' | ⟨tok, rfl⟩ | hstreams := exec_streams_cases hinit h
  · exact absurd hreads' hreads
  · exact emitToken_readerUntouched tok s
  · exact hstreams.toReaderUntouched

/-- Settles O21: INIT leaves the source where none has been connected. -/
theorem onlyFourCommandsReadBits : Obligations.OnlyFourCommandsReadBits := by
  intro i s t h hrdbits hdecode hrebuild hproduce
  have hreads : ¬ ReadsBits i := by
    rintro (nm1 | u | _ | _)
    exacts [hrdbits nm1 rfl, hdecode u rfl, hrebuild rfl, hproduce rfl]
  by_cases hinit : i = .init
  · subst hinit
    obtain rfl := Host.Outcome.next.inj h
    exact ⟨absurd rfl, State.newSession_src_of_not_connected⟩
  · obtain ⟨hsrc, hbyte, hpos, hvalid⟩ := exec_readerUntouched hinit hreads h
    exact ⟨fun _ => ⟨hsrc, hbyte, hpos, hvalid⟩, fun _ => hsrc⟩

/-! ## Emitted bytes stay -/

/-- The bytes emitted up to `s`, in all sessions, are the first of those emitted up to `t` (45_session.md R280; log 6). -/
def EmittedStays (s t : State) : Prop := (s.taken ++ s.out) <+: (t.taken ++ t.out)

theorem EmittedStays.trans {s t u : State} (h : EmittedStays s t) (h' : EmittedStays t u) : EmittedStays s u :=
  List.IsPrefix.trans h h'

theorem EmittedStays.of_out_prefix {s t : State} (htaken : t.taken = s.taken) (hout : s.out <+: t.out) : EmittedStays s t := by
  rw [EmittedStays, htaken]
  exact (List.prefix_append_right_inj s.taken).mpr hout

/-- Where no byte is emitted, all stay. -/
theorem EmittedStays.of_eq {s t : State} (htaken : t.taken = s.taken) (hout : t.out = s.out) : EmittedStays s t :=
  .of_out_prefix htaken (hout ▸ List.prefix_rfl)

theorem EmittedStays.refl (s : State) : EmittedStays s s := .of_eq rfl rfl

theorem EmittedStays.setRes (v : Half) (s : State) : EmittedStays s (s.setRes v) := .of_eq rfl rfl

/-- The bytes of the ended session pass to those already taken. -/
theorem EmittedStays.newSession (s : State) : EmittedStays s s.newSession := by
  rw [EmittedStays, State.newSession_emitted]

theorem OnlyReaderMoved.emittedStays {s t : State} (h : OnlyReaderMoved s t) : EmittedStays s t := .of_eq h.taken_eq h.out_eq

theorem emitToken_emittedStays {m : Nat} (tok : Token m) (s : State) : EmittedStays s (emitToken tok s) :=
  .of_out_prefix (emitToken_onlyEmitted tok s).taken_eq (emitToken_out_prefix tok s)

theorem rebuildIfDue_emittedStays (s : State) : EmittedStays s (rebuildIfDue s).state := by
  obtain ⟨-, -, -, hout, htaken, -⟩ := rebuildIfDue_frame s
  exact .of_eq htaken hout

theorem produceReads_emittedStays (s : State) : EmittedStays s (produceReads s).state :=
  (rebuildIfDue_emittedStays s).trans (produceReads_moved s).emittedStays

/-- A command that reads and then does its last part. -/
theorem EmittedStays.finish {α : Type} {s : State} {r : Run α} {f : α → State → State} (hreads : EmittedStays s r.state)
    (hlast : ∀ a u, EmittedStays u (f a u)) : EmittedStays s (r.finish f) := by
  cases r with
  | ok a u => exact hreads.trans (hlast a u)
  | eos u => exact hreads.trans (.of_eq rfl rfl)

/-- Every command keeps what was emitted; of those that read, only PRODUCE adds to it. -/
theorem exec_emittedStays {i : Instr} {s t : State} (h : exec i s = .next t) : EmittedStays s t := by
  by_cases hinit : i = .init
  · subst hinit
    obtain rfl := Host.Outcome.next.inj h
    exact .newSession s
  obtain hreads | ⟨tok, rfl⟩ | hstreams := exec_streams_cases hinit h
  · cases hreads
    all_goals obtain rfl := Host.Outcome.next.inj h
    case rdbits nm1 => exact .finish (readBitsInto_moved _ 0 s).emittedStays EmittedStays.setRes
    case decode u => exact .finish (decodeSym_agrees u s).state_moved.emittedStays fun x => .setRes (resOfSymbol x)
    case rebuild => exact .finish (rebuildIfDue_emittedStays s) fun ran => .setRes (resOfCount ran.toNat)
    case produce => exact .finish (produceReads_emittedStays s) emitToken_emittedStays
  · exact emitToken_emittedStays tok s
  · exact .of_eq hstreams.taken hstreams.out

theorem runCommand_emittedStays {w : Word} {s t : State} (h : runCommand w s = .next t) : EmittedStays s t := by
  obtain ⟨-, -, hrun⟩ | ⟨-, -, hrun⟩ | ⟨i, -, -, hrun⟩ := runCommand_cases w s
  · obtain rfl := Host.Outcome.next.inj (hrun.symm.trans h)
    exact .refl s
  · obtain rfl := Host.Outcome.next.inj (hrun.symm.trans h)
    exact .of_eq rfl rfl
  · exact exec_emittedStays (hrun.symm.trans h)

/-- An interrupted command may have emitted bytes, which the start of a session keeps (70_reset_and_hazards.md R330). -/
theorem interruptCommand_emittedStays (w : Word) (s : State) : EmittedStays s (interruptCommand w s) := by
  obtain ⟨u, hu, -, -, -, htaken, hout, -⟩ := interruptCommand_newSession w s
  rw [hu]
  exact (EmittedStays.of_out_prefix htaken hout).trans (.newSession u)

/-- Taking an input off the host's list emits nothing. -/
theorem step_emittedStays {s t : State} (h : step s = .next t) : EmittedStays s t := by
  obtain ⟨-, ⟨-, rfl⟩ | ⟨w, rest, -, hrun⟩ | ⟨rest, -, rfl⟩ | ⟨w, rest, -, rfl⟩ | ⟨a, rest, -, rfl⟩⟩ := step_next_cases h
  · exact .refl _
  · exact runCommand_emittedStays (s := { s with inputs := rest }) hrun
  · exact EmittedStays.newSession { s with inputs := rest }
  · exact interruptCommand_emittedStays w { s with inputs := rest }
  · exact .of_eq rfl rfl

/-- Settles O59: every input of the host keeps both. -/
theorem parametersAndEmittedBytesStay : Obligations.ParametersAndEmittedBytesStay := fun _ _ h =>
  ⟨step_params h, step_emittedStays h⟩

end Sys2Proof.Machine
end
